-- ==== Sys2Proof/Word.lean ====
section
/-! DEFINITION. The word types of the engine, one per width that 00_scope.md R7 names. -/

namespace Sys2Proof

/-- One byte of a byte port, and the width of the packer and unpacker registers (20_memory.md R60). -/
abbrev Byte := BitVec 8

/-- A Symbol, `SYM_W = 9` bits (00_scope.md R7, 30_encoding.md R100). -/
abbrev Symbol := BitVec 9

/-- A node index, `IDX_W = 10` bits (00_scope.md R7). -/
abbrev Index := BitVec 10

/-- A command word, `CMD_W = 16` bits (00_scope.md R7, 30_encoding.md R110). -/
abbrev CmdWord := BitVec 16

/-- The position of a symbol in the arrays `FT[0..256]` and `CT[0..256]` (10_state.md R23, R27). -/
abbrev SymIdx := Fin 257

/-- The End-Of-File sentinel, symbol 256 (00_scope.md R7). -/
abbrev eofSymbol : Symbol := 256

/-- The sentinel's position in `FT` and `CT`. -/
abbrev eofIdx : SymIdx := 256

end Sys2Proof
end

