-- ==== Sys2Proof/Config.lean ====
section
/-! DEFINITION. The parameters of the engine (00_scope.md R7) and the free values: the values the spec
calls unspecified. -/

namespace Sys2Proof

/-- The two OPEN parameters of 00_scope.md R7, fixed for the life of the engine (10_state.md R42).
They are an argument of the model: a state carries them and no step changes them
(DESIGN CHOICE, notes/assumptions/1.md). -/
structure Config where
  /-- `CNT_W`, the width of one frequency counter, at least 1. -/
  cntW : Nat
  /-- `MAGIC`, the 32-bit magic number (46_container.md R246). -/
  magic : BitVec 32
  deriving DecidableEq, Repr

/-- `WGT_W = CNT_W + 9`, the width of a node weight (00_scope.md R7). -/
def Config.wgtW (c : Config) : Nat := c.cntW + 9

/-- `2^CNT_W − 1`, the largest count (40_freq.md R143). -/
def Config.maxCount (c : Config) : Nat := 2 ^ c.cntW - 1

/-- The magic number of the engine that `State.reset` describes: the spec withholds the value
(91_not_in_source.md N2), so nothing can be proved of it (notes/assumptions/2.md). -/
opaque Config.anyMagic : BitVec 32

/-- The parameters of the engine that `State.reset` describes: the spec's default `CNT_W = 32` and an
unknown `MAGIC` (00_scope.md R7; notes/assumptions/2.md). -/
def Config.atReset : Config := { cntW := 32, magic := Config.anyMagic }

/-! FREE VALUES (notes/assumptions/3.md). Each is applied to the number of the drawing operation
(`State.draws`) and to the position of the element; none has a body, so no proof can see a value. -/

/-- A free `leaf` bit of a node record the spec calls unspecified (93_implementation_defined.md X1). -/
opaque Config.freeLeaf : Nat → Nat → Bool

/-- A free `sym` field of a node record (93_implementation_defined.md X1, X3). -/
opaque Config.freeSym : Nat → Nat → Symbol

/-- A free `left` field of a node record (93_implementation_defined.md X1, X3). -/
opaque Config.freeLeft : Nat → Nat → Index

/-- A free `right` field of a node record (93_implementation_defined.md X1, X3). -/
opaque Config.freeRight : Nat → Nat → Index

/-- A free `w` field of a node record, cut to `WGT_W` bits where it is used
(93_implementation_defined.md X1, X2). -/
opaque Config.freeWeight : Nat → Nat → Nat

/-- A free content of `HEAP` (93_implementation_defined.md X1, X5), by the drawing operation. -/
opaque Config.freeHeap : Nat → Vector Index 257

/-- A free code length of a `CT` record the spec calls unspecified, at most 256
(93_implementation_defined.md X1). -/
opaque Config.freeCodeLen : Nat → Nat → Fin 257

/-- A free 256-bit field from which a code the spec calls unspecified is cut
(93_implementation_defined.md X1). -/
opaque Config.freeCodeField : Nat → Nat → BitVec 256

/-- A free content of the bits above a code in its 256-bit field (93_implementation_defined.md X1, X4). -/
opaque Config.freeCodeAbove : Nat → Nat → BitVec 256

end Sys2Proof
end

