-- ==== Sys2Proof/Syntax.lean ====
section
/-! DEFINITION. The sixteen commands of 30_encoding.md R112, one constructor per row of
spec/opcode_table.json. -/

namespace Sys2Proof

/-- A command of the engine. The operand of `facc` is the byte of format `B`, the operand of `fset`
the 9-bit symbol field of format `S` (30_encoding.md R111). -/
inductive Instr where
  /-- `NOP`, 47_system.md R265. -/
  | nop
  /-- `RST`, 47_system.md R266. -/
  | rst
  /-- `FCLR`, 40_freq.md R140. -/
  | fclr
  /-- `FACC imm8`, 40_freq.md R141. -/
  | facc (imm8 : Byte)
  /-- `FEOF`, 40_freq.md R142. -/
  | feof
  /-- `FSET sym9`, 40_freq.md R144. -/
  | fset (sym9 : Symbol)
  /-- `FSCAN`, 40_freq.md R145. -/
  | fscan
  /-- `BUILD`, 41_tree_builder.md R170. -/
  | build
  /-- `GEN`, 42_code_table.md R192. -/
  | gen
  /-- `SER`, 43_tree_codec.md R201. -/
  | ser
  /-- `DES`, 43_tree_codec.md R204. -/
  | des
  /-- `ENC`, 44_stream_encoder.md R221. -/
  | enc
  /-- `DEC`, 45_stream_decoder.md R231. -/
  | dec
  /-- `WMAGIC`, 46_container.md R245. -/
  | wmagic
  /-- `RMAGIC`, 46_container.md R247. -/
  | rmagic
  /-- `CLOSE`, 46_container.md R249. -/
  | close
  deriving DecidableEq, Repr

end Sys2Proof
end

