-- ==== Sys2Proof/Machine/State.lean ====
section
/-! DEFINITION. The engine's registers and arrays (10_state.md R20), the four byte ports and the host's
pending actions, which belong to the environment (10_state.md R42), and the state after reset. -/

namespace Sys2Proof.Machine

/-- One record of the node memory (10_state.md R24). `sym` means something when `leaf` is set, `left`
and `right` when it is clear; `w` only inside `BUILD`. -/
structure NodeRec where
  leaf : Bool
  sym : Symbol
  left : Index
  right : Index
  /-- The aggregate weight, a number below `2^WGT_W` (41_tree_builder.md R173). -/
  w : Nat
  deriving DecidableEq, Repr, Inhabited

/-- One record of the code table (10_state.md R27): the code as a bit sequence, first bit sent first,
and the rest of its 256-bit field. `CodeRec.len` and `CodeRec.field`
(Operands.lean) are the stored fields. -/
structure CodeRec where
  /-- The code; empty when the symbol has no entry. -/
  code : List Bool
  /-- What stands in the 256-bit field above the code: its bit `i` is the field's bit `len + i`. -/
  above : BitVec 256
  deriving DecidableEq, Repr, Inhabited

/-- An input port: a finite byte sequence with a read position (20_memory.md R60), and the answers the
failure oracle will give to the next accesses of this port, first access first, `true` for `IOFail`;
past the end of the list it answers that the access does not fail (20_memory.md R65;
notes/assumptions/4.md). -/
structure InPort where
  data : List Byte
  pos : Nat
  oracle : List Bool
  deriving DecidableEq, Repr, Inhabited

/-- An output port: the bytes collected so far (20_memory.md R60), and the oracle's coming answers as
in `InPort`. -/
structure OutPort where
  data : List Byte
  oracle : List Bool
  deriving DecidableEq, Repr, Inhabited

/-- The four ports (20_memory.md R60). -/
inductive Port where
  | src
  | upi
  | pko
  | dst
  deriving DecidableEq, Repr

/-- What the inspection port can name (47_system.md R271). -/
inductive Space where
  | ft
  | node
  | heap
  | ct
  | nn
  | root
  | hsize
  | cur
  | pkAcc
  | pkCnt
  | upBuf
  | upCnt
  deriving DecidableEq, Repr

/-- What the host, or the environment behind it, does to the engine between operations
(60_exceptions.md R299). -/
inductive HostAction where
  /-- A write of host register number `reg` (10_state.md R35); register 0 is `CMD`. -/
  | write (reg : Nat) (v : Nat)
  /-- A read of host register number `reg`. -/
  | read (reg : Nat)
  /-- An inspection read (47_system.md R271); a scalar has the one index 0. -/
  | inspect (space : Space) (index : Nat)
  /-- The host replaces the content and read position of `SRC` (20_memory.md R64); a position beyond
  the end: notes/assumptions/18.md. -/
  | armSrc (bytes : List Byte) (pos : Nat)
  /-- The host replaces the content and read position of `UPI` (20_memory.md R64); a position beyond
  the end: notes/assumptions/18.md. -/
  | armUpi (bytes : List Byte) (pos : Nat)
  /-- The host takes the first `taken` bytes off `PKO` and keeps `kept` of the rest
  (20_memory.md R64: take away or truncate). -/
  | trimPko (taken : Nat) (kept : Nat)
  /-- The same on `DST`. -/
  | trimDst (taken : Nat) (kept : Nat)
  /-- The environment fixes the oracle's coming answers on a port (20_memory.md R65). -/
  | oracle (port : Port) (answers : List Bool)
  /-- Hardware reset (70_reset_and_hazards.md R320). -/
  | hardwareReset
  deriving DecidableEq, Repr

/-- What the host saw in its last read or inspection. -/
inductive HostView where
  /-- Nothing yet. -/
  | nothing
  /-- The value of a host register, a counter, an index or a scalar register. -/
  | word (v : Nat)
  /-- A node record. -/
  | node (r : NodeRec)
  /-- A code table record, as its two stored fields. -/
  | code (len : Nat) (field : BitVec 256)
  deriving DecidableEq, Repr

/-- Why the machine stops. No state that keeps 10_state.md R45 and R46 reaches any of these. -/
inductive Fault where
  /-- `GEN`, `SER` or `DEC` follows a 10-bit node index of 513 or above, where there is no record
  (10_state.md R24). Safe: the machine stops. -/
  | noSuchNode
  /-- `GEN` meets a leaf whose symbol is 257 or above, where `CT` has no record (10_state.md R27).
  Safe: the machine stops. -/
  | noSuchSymbol
  /-- `GEN` or `SER` is more than 513 records deep, so the stored records form no tree and the walk of
  the spec has no end. Raised by a loop that runs out of its bound. Safe: the machine stops. -/
  | neverEnds
  /-- The inspection port is asked for an element that does not exist (47_system.md R271).
  Safe: the machine stops. -/
  | noSuchElement
  deriving DecidableEq, Repr

/-- What the model gives no meaning to. -/
inductive Refusal where
  /-- An instruction without a meaning yet, raised by `exec` alone. Safe: nothing runs. -/
  | notModelled (mnemonic : String)
  /-- The host replaces or trims a port while an operation runs, which has no defined result
  (70_reset_and_hazards.md R331); raised by the host's actions, in no reachable state. Safe. -/
  | portActionWhileBusy
  /-- The host inspects an element while an operation runs (47_system.md R271 allows it only while
  `BUSY = 0`); raised by the host's actions, in no reachable state. Safe. -/
  | inspectWhileBusy
  deriving DecidableEq, Repr

/-- The engine, its ports and its host. -/
structure State where
  /-- `FT[0..256]`, the frequency table (10_state.md R23). -/
  ft : Vector Nat 257
  /-- `NODE[0..512]`, the node memory (10_state.md R24). -/
  node : Vector NodeRec 513
  /-- `nn`, the number of allocated node records (10_state.md R25). -/
  nn : Index
  /-- `root`, the index of the tree's root (10_state.md R25). -/
  root : Index
  /-- `HEAP[0..256]`, the priority queue (10_state.md R26). -/
  heap : Vector Index 257
  /-- `hsize`, the number of entries of `HEAP` in use (10_state.md R26). -/
  hsize : BitVec 9
  /-- `CT[0..256]`, the code table (10_state.md R27). -/
  ct : Vector CodeRec 257
  /-- `TV`, tree valid (10_state.md R28). -/
  tv : Bool
  /-- `CV`, code table valid (10_state.md R28). -/
  cv : Bool
  /-- `cur`, the decoder's pointer (10_state.md R29). -/
  cur : Index
  /-- `pk_acc`, the packer's collected bits (10_state.md R30). -/
  pkAcc : BitVec 8
  /-- `pk_cnt`, how many there are (10_state.md R30). -/
  pkCnt : BitVec 3
  /-- `up_buf`, the unpacker's current byte (10_state.md R31). -/
  upBuf : BitVec 8
  /-- `up_cnt`, how many of its bits are unread (10_state.md R31). -/
  upCnt : BitVec 4
  /-- `ERR`, the latched error class, 0 for none (10_state.md R32). -/
  err : BitVec 3
  /-- `ESUB`, its sub-code (10_state.md R32). -/
  esub : BitVec 3
  /-- `EINFO`, its information word (10_state.md R32). -/
  einfo : BitVec 32
  /-- `BUSY` (10_state.md R33). -/
  busy : Bool
  /-- `DIN`, the operand of `FSET`, a number below `2^CNT_W` (10_state.md R37). -/
  din : Nat
  /-- The parameters of the engine (10_state.md R42); no step changes them. -/
  cfg : Config
  /-- Port `SRC`, the literal byte source. -/
  src : InPort
  /-- Port `UPI`, the packed container input. -/
  upi : InPort
  /-- Port `PKO`, the packed container output. -/
  pko : OutPort
  /-- Port `DST`, the literal byte sink. -/
  dst : OutPort
  /-- What the host is about to do, first action first (10_state.md R21: the order of operations is the
  order of the host's writes). -/
  host : List HostAction
  /-- What the host saw last. -/
  hostSaw : HostView
  /-- The model's own field: how many operations have drawn free values. -/
  draws : Nat
  deriving DecidableEq, Repr

/-- The state after hardware reset (10_state.md R43) with nothing attached to the ports and a host that
has not acted yet. `NODE`, `HEAP` and `CT` are unspecified there and all zero here
(DESIGN CHOICE, notes/assumptions/5.md); the ports, the host and the parameters are the environment's
(DESIGN CHOICE, notes/assumptions/2.md and 6.md). -/
def State.reset : State where
  ft := Vector.replicate 257 0
  node := Vector.replicate 513 { leaf := false, sym := 0, left := 0, right := 0, w := 0 }
  nn := 0
  root := 0
  heap := Vector.replicate 257 0
  hsize := 0
  ct := Vector.replicate 257 { code := [], above := 0 }
  tv := false
  cv := false
  cur := 0
  pkAcc := 0
  pkCnt := 0
  upBuf := 0
  upCnt := 0
  err := 0
  esub := 0
  einfo := 0
  busy := false
  din := 0
  cfg := Config.atReset
  src := { data := [], pos := 0, oracle := [] }
  upi := { data := [], pos := 0, oracle := [] }
  pko := { data := [], oracle := [] }
  dst := { data := [], oracle := [] }
  host := []
  hostSaw := .nothing
  draws := 0

end Sys2Proof.Machine
end

