-- ==== Sys2Proof/Machine/Flags.lean ====
section
/-! DEFINITION. The validity flags (10_state.md R28), the conditions commands test, and the host
registers and output lines that show flags (10_state.md R38, R40; 60_exceptions.md R294). -/

namespace Sys2Proof.Machine

/-- `TV <- 0 ; CV <- 0`, the start of `BUILD` and `DES` (10_state.md R28). -/
def State.dropTree (s : State) : State := { s with tv := false, cv := false }

/-- `TV <- 1`, the success of `BUILD` and `DES` (10_state.md R28). -/
def State.treeMade (s : State) : State := { s with tv := true }

/-- `CV <- 0`, the start of `GEN` (10_state.md R28). -/
def State.dropCodes (s : State) : State := { s with cv := false }

/-- `CV <- 1`, the completion of `GEN` (10_state.md R28). -/
def State.codesMade (s : State) : State := { s with cv := true }

/-- The frequency table is non-empty: some symbol is present (10_state.md R23). -/
def State.tableNonEmpty (s : State) : Bool := s.ft.toList.any (fun c => c != 0)

/-- The error state, `ERR != 0` (10_state.md R32). -/
def State.inError (s : State) : Bool := s.err != 0

/-- The output line `err_o` (60_exceptions.md R294). -/
def State.errO (s : State) : Bool := s.inError

/-- The output line `busy_o` (60_exceptions.md R294). -/
def State.busyO (s : State) : Bool := s.busy

/-- `HR2 STATUS` (10_state.md R38), bit 15 first: five reserved bits, `ESUB`, a reserved bit, `ERR`, a
reserved bit, `CV`, `TV`, `BUSY`. -/
def State.status (s : State) : BitVec 16 :=
  (0 : BitVec 5) ++ s.esub ++ (0 : BitVec 1) ++ s.err ++ (0 : BitVec 1)
    ++ BitVec.ofBool s.cv ++ BitVec.ofBool s.tv ++ BitVec.ofBool s.busy

/-- `HR4 TREE` (10_state.md R40): `root` in bits 9:0, `nn` in bits 19:10. -/
def State.treeReg (s : State) : BitVec 32 := (0 : BitVec 12) ++ s.nn ++ s.root

end Sys2Proof.Machine
end

