-- ==== Sys2Proof/WellFormed.lean ====
section
/-! DEFINITION. Which terms of `Instr` a command word can stand for. -/

namespace Sys2Proof

/-- A command is well formed when its operand is legal: the symbol of `FSET` is at most 256
(30_encoding.md R111, R113). Every other operand is legal at every value. -/
def Instr.wellFormed : Instr → Bool
  | .fset sym9 => decide (sym9.toNat ≤ 256)
  | .nop | .rst | .fclr | .facc _ | .feof | .fscan | .build | .gen | .ser | .des | .enc | .dec
  | .wmagic | .rmagic | .close => true

end Sys2Proof
end

