-- ==== Sys2Proof/Decode.lean ====
section
/-! DEFINITION. Decoding a command word (30_encoding.md R110 to R113) and, after it, encoding a
command. -/

namespace Sys2Proof

/-- What the decoder finds in a command word: a command, or one of the two errors of steps (1) and (2)
of 30_encoding.md R113. -/
inductive Decoded where
  /-- The word stands for this command. -/
  | instr (i : Instr)
  /-- Step (1): the opcode is `0x10` or above (`UsageError` sub-code 1). -/
  | illegalOpcode
  /-- Step (2): reserved bits set, or the operand out of range (`UsageError` sub-code 2). -/
  | badOperand
  deriving DecidableEq, Repr

/-- The field `op`, bits 15:11 (30_encoding.md R110). -/
def opField (c : CmdWord) : BitVec 5 := c.extractLsb' 11 5

/-- The field `rsv`, bits 10:9 (30_encoding.md R110). -/
def rsvField (c : CmdWord) : BitVec 2 := c.extractLsb' 9 2

/-- The field `arg`, bits 8:0 (30_encoding.md R110). -/
def argField (c : CmdWord) : BitVec 9 := c.extractLsb' 0 9

/-- The three operand formats of 30_encoding.md R111, each with the commands it makes. -/
inductive Format where
  /-- `N`: `arg` must be 0. -/
  | none (i : Instr)
  /-- `B`: `arg[8]` must be 0 and `arg[7:0]` is the byte. -/
  | byte (mk : Byte → Instr)
  /-- `S`: `arg` is the symbol and must be at most 256. -/
  | symbol (mk : Symbol → Instr)

/-- The assigned opcodes `0x00` to `0x0F` with their formats (30_encoding.md R112). -/
def formatOf (op : BitVec 5) : Option Format :=
  match op.toNat with
  | 0x00 => some (.none .nop)
  | 0x01 => some (.none .rst)
  | 0x02 => some (.none .fclr)
  | 0x03 => some (.byte .facc)
  | 0x04 => some (.none .feof)
  | 0x05 => some (.symbol .fset)
  | 0x06 => some (.none .fscan)
  | 0x07 => some (.none .build)
  | 0x08 => some (.none .gen)
  | 0x09 => some (.none .ser)
  | 0x0A => some (.none .des)
  | 0x0B => some (.none .enc)
  | 0x0C => some (.none .dec)
  | 0x0D => some (.none .wmagic)
  | 0x0E => some (.none .rmagic)
  | 0x0F => some (.none .close)
  | _ => none

/-- The operand of a format, checked (30_encoding.md R111 and step (2) of R113). -/
def operandOf (f : Format) (arg : BitVec 9) : Decoded :=
  match f with
  | .none i => if arg = 0 then .instr i else .badOperand
  | .byte mk => if arg.getLsbD 8 then .badOperand else .instr (mk (arg.setWidth 8))
  | .symbol mk => if arg.toNat ≤ 256 then .instr (mk arg) else .badOperand

/-- Steps (1) and (2) of 30_encoding.md R113, in that order: the opcode, then the reserved bits and the
operand. Total on all 65536 words. -/
def decode (c : CmdWord) : Decoded :=
  match formatOf (opField c) with
  | none => .illegalOpcode
  | some f => if rsvField c = 0 then operandOf f (argField c) else .badOperand

/-- The word with opcode `op`, reserved bits 0 and operand field `arg` (30_encoding.md R110). -/
def commandWord (op : BitVec 5) (arg : BitVec 9) : CmdWord := (op ++ (0 : BitVec 2)) ++ arg

/-- The word of a command (30_encoding.md R112). Of an ill-formed `fset` it is the word with that
operand field, which `decode` refuses. -/
def encode : Instr → CmdWord
  | .nop => commandWord 0x00 0
  | .rst => commandWord 0x01 0
  | .fclr => commandWord 0x02 0
  | .facc imm8 => commandWord 0x03 (imm8.setWidth 9)
  | .feof => commandWord 0x04 0
  | .fset sym9 => commandWord 0x05 sym9
  | .fscan => commandWord 0x06 0
  | .build => commandWord 0x07 0
  | .gen => commandWord 0x08 0
  | .ser => commandWord 0x09 0
  | .des => commandWord 0x0A 0
  | .enc => commandWord 0x0B 0
  | .dec => commandWord 0x0C 0
  | .wmagic => commandWord 0x0D 0
  | .rmagic => commandWord 0x0E 0
  | .close => commandWord 0x0F 0

/-- The 16-bit word whose low `nbits` bits are those of `w` and whose other bits are 0, with the bit
numbers of spec/opcode_table.json (bit 0 the least significant of the one command word). -/
def tableWord (nbits w : Nat) : CmdWord := BitVec.ofNat 16 (w % 2 ^ nbits)

/-- The command the decoder reads from a word given as spec/opcode_table.json numbers its bits. -/
def decodeTableWord (nbits w : Nat) : Option Instr :=
  match decode (tableWord nbits w) with
  | .instr i => some i
  | .illegalOpcode => none
  | .badOperand => none

end Sys2Proof
end

