-- ==== Sys2Proof/Machine/Operands.lean ====
section
/-! DEFINITION. Operand forms (30_encoding.md R111) and bit sequences (00_scope.md R8, R9). -/

namespace Sys2Proof.Machine

/-- The symbol of a literal byte, `zext_9(imm8)` (30_encoding.md R111), as a position in `FT` and
`CT`. -/
def byteIdx (b : Byte) : SymIdx := ⟨b.toNat, by have := b.isLt; omega⟩

/-- The position of a symbol in `FT` and `CT`, for the symbols 0 to 256 (30_encoding.md R100). -/
def symIdx? (s : Symbol) : Option SymIdx := if h : s.toNat < 257 then some ⟨s.toNat, h⟩ else none

/-- A position in `FT` or `CT` as the 9-bit symbol it stands for. -/
def idxSymbol (i : SymIdx) : Symbol := BitVec.ofNat 9 i.val

/-- The literal byte of a leaf symbol, `s[7:0]` (45_stream_decoder.md R235). -/
def symByte (s : Symbol) : Byte := s.setWidth 8

/-- The bit sequence `bits_n(v)`, most significant bit first (00_scope.md R9). -/
def bitsOf {n : Nat} (v : BitVec n) : List Bool := (List.range n).map v.getMsbD

/-- A bit sequence as a number, first bit the most significant (00_scope.md R9). -/
def bitsToNat (q : List Bool) : Nat := q.foldl (fun v b => 2 * v + b.toNat) 0

/-- The field `len` of a code table record (10_state.md R27). -/
def CodeRec.len (r : CodeRec) : Nat := r.code.length

/-- The 256-bit field `code` of a code table record: bit `i` of the sequence at field bit
`len − 1 − i` (10_state.md R27). -/
def CodeRec.field (r : CodeRec) : BitVec 256 :=
  BitVec.ofNat 256 (bitsToNat r.code) ||| r.above <<< r.len

/-- `zext_32` of a command word, a symbol, an index or a byte (00_scope.md R8). -/
def zext32 {n : Nat} (v : BitVec n) : BitVec 32 := v.setWidth 32

/-- A number written on a bus to a register of `n` bits: the upper bits are discarded
(10_state.md R37). -/
def cutTo (n v : Nat) : Nat := v % 2 ^ n

end Sys2Proof.Machine
end

