-- ==== Sys2Proof/Machine/Ops.lean ====
section
/-! DEFINITION. The shared operations: the ports (20_memory.md R61, R62), the error entry
(60_exceptions.md R288) with the reset that leaves it, the bit packer (R66 to R68) and unpacker (R70 to
R73), and the accesses to the arrays. -/

namespace Sys2Proof.Machine

/-- How a piece of an operation ends: it goes on with a value, it has raised an error (the error entry
is done and the operation is over), or the machine stops. -/
inductive Res (α : Type) where
  | ok (a : α) (s : State)
  | raised (s : State)
  | stop (f : Fault)

/-- Go on with `k` where the first piece went on; `raise` ends the operation at once (00_scope.md R11). -/
def Res.andThen {α β : Type} (r : Res α) (k : α → State → Res β) : Res β :=
  match r with
  | .ok a s => k a s
  | .raised s => .raised s
  | .stop f => .stop f

/-- The outcome of a whole operation: completion and error entry are both next states
(47_system.md R268). -/
def Res.outcome {α : Type} (r : Res α) : Host.Outcome State Fault Refusal :=
  match r with
  | .ok _ s => .next s
  | .raised s => .next s
  | .stop f => .fault f

/-! ## The byte ports -/

/-- What `ByteIn` returns (20_memory.md R61). -/
inductive InAnswer where
  | byte (v : Byte)
  | endOfStream
  | ioFail
  deriving DecidableEq, Repr

/-- What `ByteOut` returns (20_memory.md R62). -/
inductive OutAnswer where
  | done
  | ioFail
  deriving DecidableEq, Repr

/-- `ByteIn` on one input port (20_memory.md R61): the oracle first, then the end of the sequence, then
the byte at the read position, which is consumed. R61 names a position in the sequence or at its end; that
one beyond the end answers `EndOfStream` too is a DESIGN CHOICE, unsafe (notes/assumptions/18.md). -/
def InPort.byteIn (p : InPort) : InAnswer × InPort :=
  let q := { p with oracle := p.oracle.tail }
  if p.oracle.headD false then (.ioFail, q)
  else
    match p.data[p.pos]? with
    | none => (.endOfStream, q)
    | some v => (.byte v, { q with pos := p.pos + 1 })

/-- `ByteOut` on one output port (20_memory.md R62): the oracle first, then the byte is appended. -/
def OutPort.byteOut (p : OutPort) (v : Byte) : OutAnswer × OutPort :=
  let q := { p with oracle := p.oracle.tail }
  if p.oracle.headD false then (.ioFail, q) else (.done, { q with data := p.data ++ [v] })

/-- `ByteIn(SRC)`. -/
def byteInSrc (s : State) : InAnswer × State :=
  (s.src.byteIn.1, { s with src := s.src.byteIn.2 })

/-- `ByteIn(UPI)`. -/
def byteInUpi (s : State) : InAnswer × State :=
  (s.upi.byteIn.1, { s with upi := s.upi.byteIn.2 })

/-- `ByteOut(PKO, v)`. -/
def byteOutPko (v : Byte) (s : State) : OutAnswer × State :=
  ((s.pko.byteOut v).1, { s with pko := (s.pko.byteOut v).2 })

/-- `ByteOut(DST, v)`. -/
def byteOutDst (v : Byte) (s : State) : OutAnswer × State :=
  ((s.dst.byteOut v).1, { s with dst := (s.dst.byteOut v).2 })

/-- How many bytes of an input port are still to be read; none where the read position is beyond the end
(DESIGN CHOICE, unsafe; notes/assumptions/18.md). -/
def InPort.left (p : InPort) : Nat := p.data.length - p.pos

/-! ## Taking an error, and reset -/

/-- The error classes of 60_exceptions.md R281. -/
inductive ErrClass where
  | format
  | corruptStream
  | io
  | internalInvariant
  | usage
  | overflow
  deriving DecidableEq, Repr

/-- The value of `ERR` for a class (60_exceptions.md R281). -/
def ErrClass.code : ErrClass → BitVec 3
  | .format => 1
  | .corruptStream => 2
  | .io => 3
  | .internalInvariant => 4
  | .usage => 5
  | .overflow => 6

/-- The packer's pending bits at the top of a byte with zeros below, `(pk_acc << (8 − pk_cnt))[7:0]`
(20_memory.md R68). -/
def paddedByte (s : State) : Byte := s.pkAcc <<< (8 - s.pkCnt.toNat)

/-- `pk_acc <- 0 ; pk_cnt <- 0`. -/
def emptyPacker (s : State) : State := { s with pkAcc := 0, pkCnt := 0 }

/-- The flush inside the error entry: as `Flush`, the answer of `PKO` not examined
(60_exceptions.md R288). -/
def flushIgnoring (s : State) : State :=
  if s.pkCnt = 0 then s else emptyPacker (byteOutPko (paddedByte s) s).2

/-- `raise E(sub, info)`, the error entry (60_exceptions.md R288): latch class, sub-code and
information word, flush the packer, go idle. Nothing else changes. -/
def raiseError (e : ErrClass) (sub : BitVec 3) (info : BitVec 32) (s : State) : State :=
  { flushIgnoring { s with err := e.code, esub := sub, einfo := info } with busy := false }

/-- `raise UsageError(sub, zext_32(c))` for the command word `c` (60_exceptions.md R286). -/
def usageError (sub : BitVec 3) (c : CmdWord) (s : State) : State :=
  raiseError .usage sub (zext32 c) s

/-- The operation draws free values: those it takes carry the new number (notes/assumptions/3.md). -/
def State.draw (s : State) : State := { s with draws := s.draws + 1 }

/-- A free node record of the current draw, for node index `n`; its weight has `WGT_W` bits. -/
def freeNodeRec (s : State) (n : Nat) : NodeRec where
  leaf := Config.freeLeaf s.draws n
  sym := Config.freeSym s.draws n
  left := Config.freeLeft s.draws n
  right := Config.freeRight s.draws n
  w := cutTo s.cfg.wgtW (Config.freeWeight s.draws n)

/-- A free `HEAP` of the current draw (10_state.md R26). -/
def freeHeap (s : State) : Vector Index 257 := Config.freeHeap s.draws

/-- A free `CT` record of the current draw, for symbol `i`. -/
def freeCodeRec (s : State) (i : Nat) : CodeRec where
  code := (bitsOf (Config.freeCodeField s.draws i)).take (Config.freeCodeLen s.draws i).val
  above := Config.freeCodeAbove s.draws i

/-- A free `NODE` of the current draw. -/
def freeNodes (s : State) : Vector NodeRec 513 := Vector.ofFn fun i => freeNodeRec s i.val

/-- A free `CT` of the current draw. -/
def freeCodes (s : State) : Vector CodeRec 257 := Vector.ofFn fun i => freeCodeRec s i.val

/-- Reset, by the `RST` command or in hardware (10_state.md R43, 47_system.md R266, 70_reset_and_hazards.md
R320): every register takes its reset value; `NODE`, `HEAP` and `CT` are unspecified, hence free; the
ports, the host and the parameters are not the engine's and stay. It is the one way back from the error
state (60_exceptions.md R291). -/
def resetEngine (s : State) : State :=
  let d := s.draw
  { d with
    ft := Vector.replicate 257 0
    node := freeNodes d
    nn := 0
    root := 0
    heap := freeHeap d
    hsize := 0
    ct := freeCodes d
    tv := false
    cv := false
    cur := 0
    pkAcc := 0
    pkCnt := 0
    upBuf := 0
    upCnt := 0
    err := 0
    esub := 0
    einfo := 0
    busy := false
    din := 0 }

/-! ## The bit packer -/

/-- `WriteBit(b)` (20_memory.md R66). -/
def writeBit (b : Bool) (s : State) : Res Unit :=
  let acc := s.pkAcc.shiftConcat b
  if s.pkCnt = 7 then
    match byteOutPko acc s with
    | (.done, t) => .ok () (emptyPacker t)
    | (.ioFail, t) => .raised (raiseError .io 3 0 (emptyPacker t))
  else .ok () { s with pkAcc := acc, pkCnt := s.pkCnt + 1 }

/-- Writing a bit sequence is `WriteBit` of each of its bits in order (20_memory.md R67). -/
def writeSeq : List Bool → State → Res Unit
  | [], s => .ok () s
  | b :: q, s => (writeBit b s).andThen fun _ t => writeSeq q t

/-- `WriteBits(v, n)`: the sequence `bits_n(v)`, most significant bit first (20_memory.md R67). -/
def writeBits {n : Nat} (v : BitVec n) (s : State) : Res Unit := writeSeq (bitsOf v) s

/-- `Flush()` (20_memory.md R68). -/
def flush (s : State) : Res Unit :=
  if s.pkCnt = 0 then .ok () s
  else
    match byteOutPko (paddedByte s) s with
    | (.done, t) => .ok () (emptyPacker t)
    | (.ioFail, t) => .raised (raiseError .io 3 0 (emptyPacker t))

/-! ## The bit unpacker -/

/-- The end of `ReadBit`: hand out `up_buf[7]` and shift (20_memory.md R70). -/
def takeBit (s : State) : Res (Option Bool) :=
  .ok (some s.upBuf.msb) { s with upBuf := s.upBuf <<< 1, upCnt := s.upCnt - 1 }

/-- `ReadBit()` (20_memory.md R70); `none` is `EndOfStream`. -/
def readBit (s : State) : Res (Option Bool) :=
  if s.upCnt = 0 then
    match byteInUpi s with
    | (.ioFail, t) => .raised (raiseError .io 2 0 t)
    | (.endOfStream, t) => .ok none t
    | (.byte v, t) => takeBit { t with upBuf := v, upCnt := 8 }
  else takeBit s

/-- `k` more bits of a `ReadBits`, the value so far being `v` (20_memory.md R71). -/
def readMore {n : Nat} : Nat → BitVec n → State → Res (Option (BitVec n))
  | 0, v, s => .ok (some v) s
  | k + 1, v, s => (readBit s).andThen fun b t =>
      match b with
      | none => .ok none t
      | some b => readMore k (v.shiftConcat b) t

/-- `ReadBits(n)`: the first bit read is the most significant (20_memory.md R71). -/
def readBits (n : Nat) (s : State) : Res (Option (BitVec n)) := readMore n 0 s

/-- `HasMoreBits()` (20_memory.md R72). No operation calls it. That a read position beyond the end of `UPI`
counts as the end is a DESIGN CHOICE, unsafe (notes/assumptions/18.md). -/
def hasMoreBits (s : State) : Bool := decide (0 < s.upCnt.toNat) || decide (s.upi.pos < s.upi.data.length)

/-- `DiscardBits()` (20_memory.md R73). -/
def discardBits (s : State) : State := { s with upBuf := 0, upCnt := 0 }

/-- A bound on the bits a run can still take from the unpacker and `UPI` together. -/
def bitsLeft (s : State) : Nat := s.upCnt.toNat + 8 * s.upi.left

/-! ## The arrays -/

/-- `FT[i]` (10_state.md R23). -/
def State.count (s : State) (i : SymIdx) : Nat := s.ft[i]

/-- `FT[i] <- c` (10_state.md R23). -/
def State.setCount (i : SymIdx) (c : Nat) (s : State) : State := { s with ft := s.ft.set i c }

/-- `NODE[n]`, where there is such a record (10_state.md R24). -/
def State.nodeAt? (s : State) (n : Index) : Option NodeRec := s.node[n.toNat]?

/-- `NODE[n] <- r` (10_state.md R24). Every operation that writes a record has `n < 513`. -/
def State.setNode (n : Index) (r : NodeRec) (s : State) : State :=
  { s with node := s.node.setIfInBounds n.toNat r }

/-- `nn <- nn + 1`: the record at `nn` is allocated (10_state.md R25). -/
def State.alloc (s : State) : State := { s with nn := s.nn + 1 }

/-- `nn <- 0`: no record is allocated (10_state.md R25). -/
def State.noNodes (s : State) : State := { s with nn := 0 }

/-- `root <- n` (10_state.md R25). -/
def State.setRoot (n : Index) (s : State) : State := { s with root := n }

/-- `cur <- n` (10_state.md R29). -/
def State.setCur (n : Index) (s : State) : State := { s with cur := n }

/-- `hsize <- k` (10_state.md R26). -/
def State.setHsize (k : BitVec 9) (s : State) : State := { s with hsize := k }

/-- The contents of `HEAP` are unspecified from here on, hence free (10_state.md R26). -/
def State.dropHeap (s : State) : State := { s with heap := freeHeap s }

/-- `NODE[n].w` as `BUILD` reads it, of records it has itself written (41_tree_builder.md R161). -/
def State.weight (s : State) (n : Index) : Nat := (s.nodeAt? n).elim 0 NodeRec.w

/-- `CT[i]` (10_state.md R27). -/
def State.codeAt (s : State) (i : SymIdx) : CodeRec := s.ct[i]

/-- `CT[i] <- { len = len(p), code = p }`; the field bits at `len` and above are unspecified, hence
free (10_state.md R27). -/
def State.setCode (i : SymIdx) (p : List Bool) (s : State) : State :=
  { s with ct := s.ct.set i { code := p, above := Config.freeCodeAbove s.draws i.val } }

end Sys2Proof.Machine
end

