-- ==== Sys2Proof/Machine/CodeTable.lean ====
section
/-! DEFINITION. The code table generator (42_code_table.md): `GEN`. -/

namespace Sys2Proof.Machine

/-- `CT[sym] <- { len = len(p), code = p }` for the symbol of a leaf (42_code_table.md R191). -/
def recordCode (sym : Symbol) (p : List Bool) (s : State) : Res Unit :=
  match symIdx? sym with
  | some i => .ok () (s.setCode i p)
  | none => .stop .noSuchSymbol

/-- `Walk(n, p)` (42_code_table.md R191): left before right, edge bits 0 and 1. A path through a tree of
10_state.md R45 has at most 513 records, which is the bound it is started with. -/
def walk : Nat → Index → List Bool → State → Res Unit
  | 0, _, _, _ => .stop .neverEnds
  | fuel + 1, n, p, s =>
    match s.nodeAt? n with
    | none => .stop .noSuchNode
    | some r =>
      if r.leaf then recordCode r.sym p s
      else
        (walk fuel r.left (p ++ [false]) s).andThen fun _ t => walk fuel r.right (p ++ [true]) t

/-- A code table without entries: `len = 0` for every symbol, the fields unspecified, hence free
(10_state.md R27). -/
def emptyCodes (s : State) : Vector CodeRec 257 := Vector.ofFn fun i =>
  { code := [], above := Config.freeCodeAbove s.draws i.val }

/-- `for s = 0 to 256: CT[s] <- { len = 0 }` (42_code_table.md R192). -/
def clearCodes (s : State) : State := { s with ct := emptyCodes s }

/-- The codes of the tree at `root` (42_code_table.md R192): a single Leaf gets the code `0`
(R193). -/
def genCodes (s : State) : Res Unit :=
  match s.nodeAt? s.root with
  | none => .stop .noSuchNode
  | some r => if r.leaf then recordCode r.sym [false] s else walk 513 s.root [] s

/-- `GEN` (42_code_table.md R192). -/
def execGen (s : State) : Host.Outcome State Fault Refusal :=
  if s.tv then
    ((genCodes (clearCodes s.draw.dropCodes)).andThen fun _ t => .ok () t.codesMade).outcome
  else .next (usageError 3 (encode .gen) s)

end Sys2Proof.Machine
end

