-- ==== Sys2Proof/Machine/Container.lean ====
section
/-! DEFINITION. The container commands (46_container.md): `WMAGIC`, `RMAGIC`, `CLOSE`. -/

namespace Sys2Proof.Machine

/-- `WMAGIC` (46_container.md R245). -/
def execWmagic (s : State) : Host.Outcome State Fault Refusal := (writeBits s.cfg.magic s).outcome

/-- The two checks of `RMAGIC` on what `ReadBits(32)` gave (46_container.md R247). -/
def checkMagic (m : Option (BitVec 32)) (s : State) : Res Unit :=
  match m with
  | none => .raised (raiseError .format 2 0 s)
  | some m => if m = s.cfg.magic then .ok () s else .raised (raiseError .format 1 m s)

/-- `RMAGIC` (46_container.md R247). -/
def execRmagic (s : State) : Host.Outcome State Fault Refusal :=
  ((readBits 32 s).andThen checkMagic).outcome

/-- `CLOSE` (46_container.md R249). -/
def execClose (s : State) : Host.Outcome State Fault Refusal := (flush s).outcome

end Sys2Proof.Machine
end

