-- ==== Sys2Proof/Machine/Freq.lean ====
section
/-! DEFINITION. The frequency histogram accumulator (40_freq.md): `FCLR`, `FACC`, `FEOF`, `FSET`,
`FSCAN`. -/

namespace Sys2Proof.Machine

/-- `for s = 0 to 256: FT[s] <- 0` (40_freq.md R140). -/
def clearTable (s : State) : State := { s with ft := Vector.replicate 257 0 }

/-- Count one literal byte (40_freq.md R141): at the largest count raise `OverflowError(1, zext_32(b))`,
else add one. -/
def countByte (b : Byte) (s : State) : Res Unit :=
  if s.count (byteIdx b) = s.cfg.maxCount then .raised (raiseError .overflow 1 (zext32 b) s)
  else .ok () (s.setCount (byteIdx b) (s.count (byteIdx b) + 1))

/-- `FT[256] <- 1` (40_freq.md R142). -/
def addSentinel (s : State) : State := s.setCount eofIdx 1

/-- The loop of `FSCAN` (40_freq.md R145). Each turn but the last consumes a byte of `SRC`, so the bytes
left and one more bound its turns. -/
def scanLoop : Nat → State → Res Unit
  | 0, _ => .stop .neverEnds
  | fuel + 1, s =>
    match byteInSrc s with
    | (.ioFail, t) => .raised (raiseError .io 1 0 t)
    | (.endOfStream, t) => .ok () t
    | (.byte b, t) => (countByte b t).andThen fun _ u => scanLoop fuel u

/-- `FCLR` (40_freq.md R140). -/
def execFclr (s : State) : Host.Outcome State Fault Refusal := .next (clearTable s)

/-- `FACC imm8` (40_freq.md R141). -/
def execFacc (imm8 : Byte) (s : State) : Host.Outcome State Fault Refusal := (countByte imm8 s).outcome

/-- `FEOF` (40_freq.md R142). -/
def execFeof (s : State) : Host.Outcome State Fault Refusal := .next (addSentinel s)

/-- `FSET sym9` (40_freq.md R144): `FT[sym9] <- DIN`. A symbol above 256 is `UsageError(2)`, which the
decoder raises before this. -/
def execFset (sym9 : Symbol) (s : State) : Host.Outcome State Fault Refusal :=
  match symIdx? sym9 with
  | some i => .next (s.setCount i s.din)
  | none => .next (usageError 2 (encode (.fset sym9)) s)

/-- `FSCAN` (40_freq.md R145). -/
def execFscan (s : State) : Host.Outcome State Fault Refusal :=
  ((scanLoop (s.src.left + 1) (clearTable s)).andThen fun _ t => .ok () (addSentinel t)).outcome

end Sys2Proof.Machine
end

