-- ==== Sys2Proof/Machine/StreamDecoder.lean ====
section
/-! DEFINITION. The stream decoder (45_stream_decoder.md): `DEC`. -/

namespace Sys2Proof.Machine

/-- One tree edge for the bit `b` (45_stream_decoder.md R231): at a Leaf root bit 0 stays and bit 1 is
`CorruptStreamError(5, 0)` (R232); else bit 0 goes to `left`, bit 1 to `right`. -/
def moveCur (b : Bool) (s : State) : Res Unit :=
  match s.nodeAt? s.root with
  | none => .stop .noSuchNode
  | some top =>
    if top.leaf then
      if b then .raised (raiseError .corruptStream 5 0 s) else .ok () s
    else
      match s.nodeAt? s.cur with
      | none => .stop .noSuchNode
      | some here => .ok () (s.setCur (if b then here.right else here.left))

/-- The arrival at a node (45_stream_decoder.md R231): the answer is `true` where decoding is over, at
the EOF leaf (R233); a literal leaf is written to `DST` (R235) and `cur` returns to the root. -/
def arrive (s : State) : Res Bool :=
  match s.nodeAt? s.cur with
  | none => .stop .noSuchNode
  | some r =>
    if r.leaf then
      if r.sym = eofSymbol then .ok true (discardBits s)
      else
        match byteOutDst (symByte r.sym) s with
        | (.ioFail, t) => .raised (raiseError .io 4 0 t)
        | (.done, t) => .ok false (t.setCur t.root)
    else .ok false s

/-- The loop of `DEC` (45_stream_decoder.md R231). Each turn but the last consumes a bit, so the bits
left and one more bound its turns (R237). -/
def decLoop : Nat → State → Res Unit
  | 0, _ => .stop .neverEnds
  | fuel + 1, s =>
    (readBit s).andThen fun b t =>
      match b with
      | none => .raised (raiseError .corruptStream 4 (zext32 t.cur) t)
      | some b =>
        (moveCur b t).andThen fun _ u =>
          (arrive u).andThen fun atEnd v => if atEnd then .ok () v else decLoop fuel v

/-- `DEC` (45_stream_decoder.md R231). -/
def execDec (s : State) : Host.Outcome State Fault Refusal :=
  if s.tv then (decLoop (bitsLeft s + 1) (s.setCur s.root)).outcome
  else .next (usageError 3 (encode .dec) s)

end Sys2Proof.Machine
end

