-- ==== Sys2Proof/Machine/StreamEncoder.lean ====
section
/-! DEFINITION. The stream encoder (44_stream_encoder.md): `ENC`. -/

namespace Sys2Proof.Machine

/-- `EMIT(s)` (44_stream_encoder.md R220): a symbol without a code raises before any bit is written. -/
def emit (i : SymIdx) (s : State) : Res Unit :=
  if (s.codeAt i).len = 0 then
    .raised (raiseError .internalInvariant 1 (zext32 (idxSymbol i)) s)
  else writeSeq (s.codeAt i).code s

/-- The loop of `ENC` (44_stream_encoder.md R221). Each turn but the last consumes a byte of `SRC`, so
the bytes left and one more bound its turns. -/
def encLoop : Nat → State → Res Unit
  | 0, _ => .stop .neverEnds
  | fuel + 1, s =>
    match byteInSrc s with
    | (.ioFail, t) => .raised (raiseError .io 1 0 t)
    | (.endOfStream, t) => .ok () t
    | (.byte b, t) => (emit (byteIdx b) t).andThen fun _ u => encLoop fuel u

/-- `ENC` (44_stream_encoder.md R221): all of `SRC`, then the EOF code once. -/
def execEnc (s : State) : Host.Outcome State Fault Refusal :=
  if s.cv then ((encLoop (s.src.left + 1) s).andThen fun _ t => emit eofIdx t).outcome
  else .next (usageError 3 (encode .enc) s)

end Sys2Proof.Machine
end

