-- ==== Sys2Proof/Machine/System.lean ====
section
/-! DEFINITION. The system commands (47_system.md): `NOP`, `RST`. -/

namespace Sys2Proof.Machine

/-- `NOP` (47_system.md R265). -/
def execNop (s : State) : Host.Outcome State Fault Refusal := .next s

/-- `RST` (47_system.md R266). -/
def execRst (s : State) : Host.Outcome State Fault Refusal := .next (resetEngine s)

end Sys2Proof.Machine
end

