-- ==== Sys2Proof/Machine/Queue.lean ====
section
/-! DEFINITION. The priority queue of `BUILD`, an array heap (41_tree_builder.md R160 to R165). -/

namespace Sys2Proof.Machine

/-- `Less(a, b)`: by weight, then by node index, which is the creation number (41_tree_builder.md
R161). -/
def less (s : State) (a b : Index) : Bool :=
  decide (s.weight a < s.weight b) || (decide (s.weight a = s.weight b) && decide (a.toNat < b.toNat))

/-- `HEAP[i]`, for `i <= 256`. -/
def heapAt (s : State) (i : Nat) : Index := s.heap[i]?.getD 0

/-- `HEAP[i] <- n`, for `i <= 256`. -/
def setHeap (i : Nat) (n : Index) (s : State) : State := { s with heap := s.heap.setIfInBounds i n }

/-- `swap HEAP[i], HEAP[j]`. -/
def swapHeap (i j : Nat) (s : State) : State := setHeap j (heapAt s i) (setHeap i (heapAt s j) s)

/-- The loop of `PQ_INSERT` at position `i` (41_tree_builder.md R163); `fuel` bounds its turns and `i`
itself is enough. -/
def siftUp : Nat → Nat → State → State
  | 0, _, s => s
  | fuel + 1, i, s =>
    if i = 0 then s
    else if less s (heapAt s i) (heapAt s ((i - 1) / 2)) then
      siftUp fuel ((i - 1) / 2) (swapHeap i ((i - 1) / 2) s)
    else s

/-- `PQ_INSERT(n)` (41_tree_builder.md R163). -/
def pqInsert (n : Index) (s : State) : State :=
  let i := s.hsize.toNat
  siftUp i i ((setHeap i n s).setHsize (s.hsize + 1))

/-- The smaller of position `c` and its candidate child `k`, if `k` is in use and its key is smaller. -/
def smallerOf (s : State) (k c : Nat) : Nat :=
  if decide (k < s.hsize.toNat) && less s (heapAt s k) (heapAt s c) then k else c

/-- The loop of `PQ_EXTRACT_MIN` at position `i` (41_tree_builder.md R164); `fuel` bounds its turns and
`hsize` is enough. -/
def siftDown : Nat → Nat → State → State
  | 0, _, s => s
  | fuel + 1, i, s =>
    let c := smallerOf s (2 * i + 2) (smallerOf s (2 * i + 1) i)
    if c = i then s else siftDown fuel c (swapHeap i c s)

/-- `PQ_EXTRACT_MIN()` (41_tree_builder.md R164), called with `hsize >= 1`. -/
def pqExtractMin (s : State) : Index × State :=
  let m := heapAt s 0
  let t := s.setHsize (s.hsize - 1)
  let k := t.hsize.toNat
  if k = 0 then (m, t) else (m, siftDown k 0 (setHeap 0 (heapAt t k) t))

end Sys2Proof.Machine
end

