-- ==== Sys2Proof/Machine/TreeBuilder.lean ====
section
/-! DEFINITION. The Huffman tree builder (41_tree_builder.md): `BUILD`. -/

namespace Sys2Proof.Machine

/-- The present symbols in ascending order (10_state.md R23, 41_tree_builder.md R166). -/
def presentSymbols (s : State) : List SymIdx :=
  (List.finRange 257).filter fun i => s.count i != 0

/-- One leaf: its record at the next index, inserted at once (41_tree_builder.md R166). `left` and
`right` of a leaf are unspecified, hence free (10_state.md R24). -/
def addLeaf (s : State) (i : SymIdx) : State :=
  let r : NodeRec :=
    { freeNodeRec s s.nn.toNat with leaf := true, sym := idxSymbol i, w := s.count i }
  (pqInsert s.nn (s.setNode s.nn r)).alloc

/-- One merge (41_tree_builder.md R167): the first extracted goes left, the second right. `sym` of an
Internal record is unspecified, hence free (10_state.md R24). -/
def mergeTwo (s : State) : State :=
  let a := pqExtractMin s
  let b := pqExtractMin a.2
  let t := b.2
  let r : NodeRec :=
    { freeNodeRec t t.nn.toNat with
      leaf := false, left := a.1, right := b.1, w := t.weight a.1 + t.weight b.1 }
  (pqInsert t.nn (t.setNode t.nn r)).alloc

/-- `while hsize > 1` merge (41_tree_builder.md R170). Each merge leaves one entry less, so `hsize`
bounds its turns. -/
def mergeLoop : Nat → State → State
  | 0, s => s
  | fuel + 1, s => if 1 < s.hsize.toNat then mergeLoop fuel (mergeTwo s) else s

/-- The end of `BUILD`: the one node left is the root, `TV <- 1`, and the contents of `HEAP` are
unspecified from here on, hence free (10_state.md R26). -/
def takeRoot (s : State) : State :=
  let m := pqExtractMin s
  (m.2.setRoot m.1).dropHeap.treeMade

/-- The body of `BUILD` on a non-empty table (41_tree_builder.md R170). -/
def buildTree (s : State) : State :=
  let u := (presentSymbols s).foldl addLeaf (s.draw.dropTree.noNodes.setHsize 0)
  takeRoot (mergeLoop u.hsize.toNat u)

/-- `BUILD` (41_tree_builder.md R170). -/
def execBuild (s : State) : Host.Outcome State Fault Refusal :=
  if s.tableNonEmpty then .next (buildTree s) else .next (usageError 3 (encode .build) s)

end Sys2Proof.Machine
end

