-- ==== Sys2Proof/Machine/TreeCodec.lean ====
section
/-! DEFINITION. The tree serializer and deserializer (43_tree_codec.md): `SER`, `DES`. -/

namespace Sys2Proof.Machine

/-- `Put(n)` (43_tree_codec.md R200). A path through a tree of 10_state.md R45 has at most 513 records,
which is the bound it is started with. -/
def put : Nat → Index → State → Res Unit
  | 0, _, _ => .stop .neverEnds
  | fuel + 1, n, s =>
    match s.nodeAt? n with
    | none => .stop .noSuchNode
    | some r =>
      if r.leaf then (writeBit true s).andThen fun _ t => writeBits r.sym t
      else
        (writeBit false s).andThen fun _ t =>
          (put fuel r.left t).andThen fun _ u => put fuel r.right u

/-- `SER` (43_tree_codec.md R201). -/
def execSer (s : State) : Host.Outcome State Fault Refusal :=
  if s.tv then (put 513 s.root s).outcome else .next (usageError 3 (encode .ser) s)

/-- The leaf branch of `Get` for the record `n` (43_tree_codec.md R203): nine bits, then the range
check. Every field but `leaf` and `sym` is unspecified, hence free (10_state.md R24). -/
def getLeaf (n : Index) (s : State) : Res Index :=
  (readBits 9 s).andThen fun v t =>
    match v with
    | none => .raised (raiseError .corruptStream 1 0 t)
    | some v =>
      if 256 < v.toNat then .raised (raiseError .corruptStream 2 (zext32 v) t)
      else .ok n (t.setNode n { freeNodeRec t n.toNat with leaf := true, sym := v })

/-- `NODE[n] <- { leaf = 0, left = l, right = r }`, the weight and the symbol unspecified, hence free
(43_tree_codec.md R203). -/
def setInternal (n l r : Index) (s : State) : State :=
  s.setNode n { freeNodeRec s n.toNat with leaf := false, left := l, right := r }

/-- `Get()` (43_tree_codec.md R203), from the capacity check on. Every level of nesting but the last has
allocated a record, so 514 levels are enough. -/
def get : Nat → State → Res Index
  | 0, _ => .stop .neverEnds
  | fuel + 1, s =>
    if s.nn = 513 then .raised (raiseError .corruptStream 3 0 s)
    else
      (readBit s).andThen fun b t =>
        match b with
        | none => .raised (raiseError .corruptStream 1 0 t)
        | some tag =>
          if tag then getLeaf t.nn t.alloc
          else
            (get fuel t.alloc).andThen fun l u =>
              (get fuel u).andThen fun r v => .ok t.nn (setInternal t.nn l r v)

/-- `DES` (43_tree_codec.md R204). -/
def execDes (s : State) : Host.Outcome State Fault Refusal :=
  ((get 514 s.draw.dropTree.noNodes).andThen fun n t => .ok () (t.setRoot n).treeMade).outcome

end Sys2Proof.Machine
end

