-- ==== Sys2Proof/Machine/Dispatch.lean ====
section
/-! DEFINITION. Each command's operation (step (4) of 30_encoding.md R113, the precondition of step (3)
being the first thing an operation tests). -/

namespace Sys2Proof.Machine

def exec (i : Instr) (s : State) : Host.Outcome State Fault Refusal :=
  match i with
  | .nop => Sys2Proof.Machine.execNop s
  | .rst => Sys2Proof.Machine.execRst s
  | .fclr => Sys2Proof.Machine.execFclr s
  | .facc imm8 => Sys2Proof.Machine.execFacc imm8 s
  | .feof => Sys2Proof.Machine.execFeof s
  | .fset sym9 => Sys2Proof.Machine.execFset sym9 s
  | .fscan => Sys2Proof.Machine.execFscan s
  | .build => Sys2Proof.Machine.execBuild s
  | .gen => Sys2Proof.Machine.execGen s
  | .ser => Sys2Proof.Machine.execSer s
  | .des => Sys2Proof.Machine.execDes s
  | .enc => Sys2Proof.Machine.execEnc s
  | .dec => Sys2Proof.Machine.execDec s
  | .wmagic => Sys2Proof.Machine.execWmagic s
  | .rmagic => Sys2Proof.Machine.execRmagic s
  | .close => Sys2Proof.Machine.execClose s

end Sys2Proof.Machine
end

