-- ==== Sys2Proof/Machine/HostPort.lean ====
section
/-! DEFINITION. The host interface: accepting a command (10_state.md R36, 47_system.md R268), the host
registers (10_state.md R35 to R41), the inspection port (47_system.md R271) and the host's liberties
with the ports (20_memory.md R64). -/

namespace Sys2Proof.Machine

/-- `BUSY <- 1`: the command is accepted (10_state.md R33). -/
def accept (s : State) : State := { s with busy := true }

/-- `BUSY <- 0` at completion (47_system.md R268). -/
def complete (o : Host.Outcome State Fault Refusal) : Host.Outcome State Fault Refusal :=
  match o with
  | .next s => .next { s with busy := false }
  | .fault f => .fault f
  | .refused r => .refused r

/-- The operation of an accepted command word, or the error of its decoding (30_encoding.md R113). -/
def runCommand (c : CmdWord) (s : State) : Host.Outcome State Fault Refusal :=
  match decode c with
  | .illegalOpcode => .next (usageError 1 c s)
  | .badOperand => .next (usageError 2 c s)
  | .instr i => complete (exec i s)

/-- A write of `CMD` (10_state.md R36): ignored while busy; ignored in the error state unless the word
is exactly `RST` (60_exceptions.md R290); else accepted. -/
def writeCmd (c : CmdWord) (s : State) : Host.Outcome State Fault Refusal :=
  if s.busy then .next s
  else if s.inError && c != encode .rst then .next s
  else runCommand c (accept s)

/-- A write of `DIN` (10_state.md R37): ignored while busy (R41), else cut to `CNT_W` bits. -/
def writeDin (v : Nat) (s : State) : State :=
  if s.busy then s else { s with din := cutTo s.cfg.cntW v }

/-- A write of a host register (10_state.md R35): 0 is `CMD`, 1 is `DIN`; the others ignore writes. A
bus wider than `CMD` loses its upper bits (notes/assumptions/7.md). -/
def writeReg (reg v : Nat) (s : State) : Host.Outcome State Fault Refusal :=
  match reg with
  | 0 => writeCmd (BitVec.ofNat 16 v) s
  | 1 => .next (writeDin v s)
  | _ => .next s

/-- What a read of a host register gives (10_state.md R35 to R40): `CMD` and unlisted numbers read 0. -/
def readReg (reg : Nat) (s : State) : Nat :=
  match reg with
  | 1 => s.din
  | 2 => s.status.toNat
  | 3 => s.einfo.toNat
  | 4 => s.treeReg.toNat
  | _ => 0

/-- A scalar register, which has the one index 0. -/
def scalarAt (i v : Nat) : Option HostView := if i = 0 then some (.word v) else none

/-- `Inspect(space, index)` (47_system.md R271); `none` where there is no such element. -/
def inspect (space : Space) (i : Nat) (s : State) : Option HostView :=
  match space with
  | .ft => s.ft[i]?.map .word
  | .node => s.node[i]?.map .node
  | .heap => s.heap[i]?.map fun n => .word n.toNat
  | .ct => s.ct[i]?.map fun r => .code r.len r.field
  | .nn => scalarAt i s.nn.toNat
  | .root => scalarAt i s.root.toNat
  | .hsize => scalarAt i s.hsize.toNat
  | .cur => scalarAt i s.cur.toNat
  | .pkAcc => scalarAt i s.pkAcc.toNat
  | .pkCnt => scalarAt i s.pkCnt.toNat
  | .upBuf => scalarAt i s.upBuf.toNat
  | .upCnt => scalarAt i s.upCnt.toNat

/-- An inspection read, allowed while `BUSY = 0` (47_system.md R271). -/
def hostInspect (space : Space) (i : Nat) (s : State) : Host.Outcome State Fault Refusal :=
  if s.busy then .refused .inspectWhileBusy
  else
    match inspect space i s with
    | some v => .next { s with hostSaw := v }
    | none => .fault .noSuchElement

/-- Bytes taken off the front and cut at the back of an output port (20_memory.md R64). -/
def OutPort.trim (p : OutPort) (taken kept : Nat) : OutPort :=
  { p with data := (p.data.drop taken).take kept }

/-- An input port with new content and read position (20_memory.md R64). DESIGN CHOICE, unsafe: any position
is accepted, also one beyond the end of the content, which R64 does not speak of; it behaves as the end
(`InPort.byteIn`; notes/assumptions/18.md). -/
def InPort.arm (p : InPort) (bytes : List Byte) (pos : Nat) : InPort :=
  { p with data := bytes, pos := pos }

/-- The oracle's coming answers on a port are these (20_memory.md R65). -/
def setOracle (p : Port) (answers : List Bool) (s : State) : State :=
  match p with
  | .src => { s with src := { s.src with oracle := answers } }
  | .upi => { s with upi := { s.upi with oracle := answers } }
  | .pko => { s with pko := { s.pko with oracle := answers } }
  | .dst => { s with dst := { s.dst with oracle := answers } }

/-- The host changes a port between operations (20_memory.md R64); during one there is no defined
result (70_reset_and_hazards.md R331). -/
def portAction (t s : State) : Host.Outcome State Fault Refusal :=
  if s.busy then .refused .portActionWhileBusy else .next t

/-- One action of the host or of the environment behind it (60_exceptions.md R299). -/
def hostAct (a : HostAction) (s : State) : Host.Outcome State Fault Refusal :=
  match a with
  | .write reg v => writeReg reg v s
  | .read reg => .next { s with hostSaw := .word (readReg reg s) }
  | .inspect space i => hostInspect space i s
  | .armSrc bytes pos => portAction { s with src := s.src.arm bytes pos } s
  | .armUpi bytes pos => portAction { s with upi := s.upi.arm bytes pos } s
  | .trimPko taken kept => portAction { s with pko := s.pko.trim taken kept } s
  | .trimDst taken kept => portAction { s with dst := s.dst.trim taken kept } s
  | .oracle p answers => .next (setOracle p answers s)
  | .hardwareReset => .next (resetEngine s)

/-- The next step of engine and host: the host's next action; with none pending, an idle engine keeps
all its state (60_exceptions.md R297). -/
def stepHost (s : State) : Host.Outcome State Fault Refusal :=
  match s.host with
  | [] => .next s
  | a :: rest => hostAct a { s with host := rest }

/-- `s` with one more action that the host performs next. -/
def State.hostNext (s : State) (a : HostAction) : State := { s with host := a :: s.host }

end Sys2Proof.Machine
end

