-- ==== Sys2Proof/Machine/Step.lean ====
section
/-! DEFINITION. One step, and where a step takes its command from. -/

namespace Sys2Proof.Machine

/-- One step: the host's next action, whole. An operation is one atomic step (47_system.md R268). -/
def step (s : State) : Host.Outcome State Fault Refusal := stepHost s

/-- `s` with a host about to write this command word to `CMD`: the engine fetches nothing, a command
comes to it by that write (10_state.md R21, R36; notes/assumptions/8.md). -/
def State.withFetchWord (s : State) (nbits w : Nat) : State :=
  s.hostNext (.write 0 (tableWord nbits w).toNat)

end Sys2Proof.Machine
end

