-- ==== Sys2Proof/Safety.lean ====
section
/-! DEFINITION. The terms of the claims: bit streams as the packer and unpacker carry them, trees and
codes as the spec writes them (00_scope.md R12), the invariants of the state (10_state.md), and the
host's two command sequences (46_container.md R251, R252). -/

namespace Sys2Proof.Machine

/-! ## Ports and bit streams -/

/-- The oracle fails none of the coming accesses of a port (20_memory.md R65). -/
abbrev NoFail (oracle : List Bool) : Prop := ∀ b ∈ oracle, b = false

/-- The bytes an input port has left, from its read position on (20_memory.md R60); none where the position
is beyond the end (DESIGN CHOICE, unsafe; notes/assumptions/18.md). -/
def InPort.rest (p : InPort) : List Byte := p.data.drop p.pos

/-- The bits of a byte sequence in stream order (20_memory.md R75). -/
def streamBits (l : List Byte) : List Bool := l.flatMap bitsOf

/-- The bits collected in the packer, oldest first: `pk_acc[pk_cnt−1:0]` (10_state.md R30). -/
def pending (s : State) : List Bool := (bitsOf s.pkAcc).drop (8 - s.pkCnt.toNat)

/-- Every bit written so far: those on `PKO`, then those in the packer (20_memory.md R69). -/
def written (s : State) : List Bool := streamBits s.pko.data ++ pending s

/-- The bits buffered in the unpacker, next first: `up_buf[7:8−up_cnt]` (10_state.md R31). -/
def buffered (s : State) : List Bool := (bitsOf s.upBuf).take s.upCnt.toNat

/-- Every bit still to be read: those in the unpacker, then those on `UPI` (20_memory.md R74). -/
def unread (s : State) : List Bool := buffered s ++ streamBits s.upi.rest

/-- The zero bits that `Flush` appends to a stream of `n` bits (20_memory.md R69). -/
def padding (n : Nat) : List Bool := List.replicate ((8 - n % 8) % 8) false

/-! ## Trees and codes -/

/-- The tree terms `L(s)` and `I(l, r)` of 00_scope.md R12. -/
inductive CodeTree where
  | leaf (s : Symbol)
  | node (l r : CodeTree)
  deriving DecidableEq, Repr

/-- The number of leaves `L`. -/
def CodeTree.leaves : CodeTree → Nat
  | .leaf _ => 1
  | .node l r => l.leaves + r.leaves

/-- The number of node records. -/
def CodeTree.size : CodeTree → Nat
  | .leaf _ => 1
  | .node l r => 1 + l.size + r.size

/-- The number of edges on the longest path from the root to a leaf (00_scope.md R12). -/
def CodeTree.depth : CodeTree → Nat
  | .leaf _ => 0
  | .node l r => 1 + max l.depth r.depth

/-- The leaf symbols in preorder. -/
def CodeTree.symbols : CodeTree → List Symbol
  | .leaf s => [s]
  | .node l r => l.symbols ++ r.symbols

/-- The sum of `f s × depth` over the leaves, the tree's root being at depth `d` (41_tree_builder.md
R174). -/
def CodeTree.pathLength (f : Symbol → Nat) : Nat → CodeTree → Nat
  | d, .leaf s => f s * d
  | d, .node l r => l.pathLength f (d + 1) + r.pathLength f (d + 1)

/-- The serialization `T(t)` (30_encoding.md R102). -/
def CodeTree.serial : CodeTree → List Bool
  | .leaf s => true :: bitsOf s
  | .node l r => false :: (l.serial ++ r.serial)

/-- The bits of one record of a serialized tree: the tag 0 for an Internal node (`none`), the tag 1 and
nine bits for a Leaf (30_encoding.md R102). -/
def recordBits : Option Symbol → List Bool
  | none => [false]
  | some s => true :: bitsOf s

/-- How many trees are still to be read where `k` were and the records `rs` have come, in preorder: an
Internal record asks for two subtrees in place of the one it begins (43_tree_codec.md R203). -/
def pendingTrees : Nat → List (Option Symbol) → Nat
  | k, [] => k
  | 0, _ :: _ => 0
  | k + 1, none :: rs => pendingTrees (k + 2) rs
  | k + 1, some _ :: rs => pendingTrees k rs

/-- Well-formed records, Internal and Leaf in any order, that begin a tree and do not complete it. -/
abbrev Unfinished (rs : List (Option Symbol)) : Prop :=
  0 < pendingTrees 1 rs ∧ ∀ o ∈ rs, ∀ x ∈ o, x.toNat ≤ 256

/-- The leaves in preorder, each with its path from the root, left edge 0 and right edge 1
(42_code_table.md R190, R191). -/
def CodeTree.paths : CodeTree → List (Symbol × List Bool)
  | .leaf s => [(s, [])]
  | .node l r =>
    l.paths.map (fun p => (p.1, false :: p.2)) ++ r.paths.map (fun p => (p.1, true :: p.2))

/-- The last entry for `s` of a list of codes, the empty sequence if there is none: each later visit of
the walk overwrites the entry (42_code_table.md R194). -/
def lastFor (s : Symbol) (l : List (Symbol × List Bool)) : List Bool :=
  l.foldl (fun c p => if p.1 = s then p.2 else c) []

/-- The code of a symbol (42_code_table.md R192 to R194); empty for a symbol of no leaf. A single Leaf
gets the code `0`. -/
def CodeTree.codeOf (t : CodeTree) (s : Symbol) : List Bool :=
  match t with
  | .leaf x => if x = s then [false] else []
  | .node _ _ => lastFor s t.paths

/-- The tree an encoder or decoder may hold: at most 257 leaves, every symbol at most 256
(10_state.md R45). -/
abbrev CodeTree.Legal (t : CodeTree) : Prop := t.leaves ≤ 257 ∧ ∀ s ∈ t.symbols, s.toNat ≤ 256

/-- The node memory `v` holds the tree term below node index `n`, and `ns` are the indices of its
records in preorder (10_state.md R24). -/
def Holds (v : Vector NodeRec 513) : CodeTree → Index → List Nat → Prop
  | .leaf s, n, ns => ns = [n.toNat] ∧ ∃ r, v[n.toNat]? = some r ∧ r.leaf = true ∧ r.sym = s
  | .node a b, n, ns =>
    ∃ r la lb, v[n.toNat]? = some r ∧ r.leaf = false ∧ Holds v a r.left la ∧ Holds v b r.right lb ∧
      ns = n.toNat :: (la ++ lb)

/-- The records `NODE[0..nn−1]` with `root` are exactly the tree `t`: each is reached by exactly one
path (10_state.md R45). -/
def State.HasTree (s : State) (t : CodeTree) : Prop :=
  ∃ ns, Holds s.node t s.root ns ∧ ns.Perm (List.range s.nn.toNat)

/-- `CT` is the code table of the tree `t` (10_state.md R46). -/
def State.HasCodes (s : State) (t : CodeTree) : Prop :=
  ∀ i : SymIdx, (s.codeAt i).code = t.codeOf (idxSymbol i)

/-- The node index that the edges `p` lead to from node index `n`: bit 0 to `left`, bit 1 to `right`
(45_stream_decoder.md R231). -/
def follow (v : Vector NodeRec 513) : Index → List Bool → Index
  | n, [] => n
  | n, b :: p =>
    match v[n.toNat]? with
    | none => n
    | some r => follow v (if b then r.right else r.left) p

/-- The edges `p` lead to an Internal node of the tree: `p` is a proper beginning of some leaf's path. -/
abbrev CodeTree.Inside (t : CodeTree) (p : List Bool) : Prop := ∃ x q, q ≠ [] ∧ (x, p ++ q) ∈ t.paths

/-- The bits that encode a byte sequence and the sentinel under the table of `s` (30_encoding.md
R107). -/
def payload (s : State) (bytes : List Byte) : List Bool :=
  bytes.flatMap (fun b => (s.codeAt (byteIdx b)).code) ++ (s.codeAt eofIdx).code

/-- The same under the codes of a tree (30_encoding.md R107). -/
def CodeTree.payload (t : CodeTree) (bytes : List Byte) : List Bool :=
  bytes.flatMap (fun b => t.codeOf (idxSymbol (byteIdx b))) ++ t.codeOf eofSymbol

/-- How often a byte sequence holds the symbol `i` (40_freq.md R145). -/
def occurrences (i : SymIdx) (bytes : List Byte) : Nat := (bytes.map byteIdx).count i

/-! ## The priority queue -/

/-- The entries in use, `HEAP[0..hsize−1]` (10_state.md R26). -/
def queue (s : State) : List Index := s.heap.toList.take s.hsize.toNat

/-- The heap invariant (41_tree_builder.md R162): no entry in use has a smaller key than its parent, and
no index stands there twice. -/
def HeapOk (s : State) : Prop :=
  s.hsize.toNat ≤ 257 ∧ (queue s).Nodup ∧
    ∀ i, 1 ≤ i → i < s.hsize.toNat → less s (heapAt s ((i - 1) / 2)) (heapAt s i) = true

/-! ## The tree that `BUILD` builds -/

/-- A node that waits to be merged: its weight, its node index and the tree below it
(41_tree_builder.md R166, R167). -/
structure Twig where
  weight : Nat
  index : Index
  tree : CodeTree
  deriving DecidableEq, Repr

/-- The smaller of two twigs by weight, then by node index (41_tree_builder.md R161). -/
def Twig.least (a b : Twig) : Twig :=
  if b.weight < a.weight ∨ b.weight = a.weight ∧ b.index.toNat < a.index.toNat then b else a

/-- The least of a list of twigs, and the others. -/
def takeLeast : List Twig → Option (Twig × List Twig)
  | [] => none
  | a :: l => let m := l.foldl Twig.least a; some (m, (a :: l).erase m)

/-- The twigs of the leaves: the present symbols in ascending order at the indices 0, 1, …
(41_tree_builder.md R166). -/
def forest (s : State) : List Twig :=
  (presentSymbols s).zipIdx.map fun e =>
    { weight := s.count e.1, index := BitVec.ofNat 10 e.2, tree := .leaf (idxSymbol e.1) }

/-- Merging down to one tree, without a heap: the least twig goes left, the next least right, and the
new node has the next index `n` (41_tree_builder.md R167, R170). The first argument bounds the merges. -/
def huffman : Nat → Index → List Twig → Option CodeTree
  | 0, _, _ => none
  | fuel + 1, n, l =>
    match takeLeast l with
    | none => none
    | some (a, l) =>
      match takeLeast l with
      | none => some a.tree
      | some (b, l) =>
        huffman fuel (n + 1)
          ({ weight := a.weight + b.weight, index := n, tree := .node a.tree b.tree } :: l)

/-! ## Invariants -/

/-- The ranges and reserved values of the registers between operations. -/
structure State.RegInv (s : State) : Prop where
  /-- `CNT_W >= 1` (00_scope.md R7). -/
  width : 1 ≤ s.cfg.cntW
  /-- Counters have `CNT_W` bits (10_state.md R23). -/
  counts : ∀ i : SymIdx, s.count i < 2 ^ s.cfg.cntW
  /-- `DIN` has `CNT_W` bits (10_state.md R37). -/
  operand : s.din < 2 ^ s.cfg.cntW
  /-- `0 <= nn <= 513` (10_state.md R25). -/
  records : s.nn.toNat ≤ 513
  /-- The queue is empty between operations (10_state.md R26). -/
  queueEmpty : s.hsize = 0
  /-- `pk_acc[7:pk_cnt] = 0` (10_state.md R30). -/
  packer : s.pkAcc.toNat < 2 ^ s.pkCnt.toNat
  /-- `up_cnt` is at most 8 (10_state.md R31). -/
  unpackerCount : s.upCnt.toNat ≤ 8
  /-- The consumed bits of `up_buf` are 0 (10_state.md R31). -/
  unpacker : ∀ i, i < 8 - s.upCnt.toNat → s.upBuf.getLsbD i = false
  /-- `ERR = 7` is never produced (60_exceptions.md R281). -/
  errClass : s.err.toNat ≤ 6
  /-- `ESUB` and `EINFO` are 0 while there is no error (10_state.md R32, R39). -/
  noError : s.err = 0 → s.esub = 0 ∧ s.einfo = 0
  /-- No operation runs between steps (10_state.md R33). -/
  idle : s.busy = false

/-- What the validity flags promise (10_state.md R28, R45, R46). -/
structure State.TreeInv (s : State) : Prop where
  /-- `TV = 1`: the records are one legal tree. -/
  tree : s.tv = true → ∃ t : CodeTree, t.Legal ∧ s.HasTree t
  /-- `CV = 1`: `TV = 1` and `CT` is the code table of that tree. -/
  codes : s.cv = true → s.tv = true ∧ ∀ t : CodeTree, s.HasTree t → s.HasCodes t

/-- Every register at its reset value (the table of 10_state.md R43). -/
structure State.AtReset (s : State) : Prop where
  ft : ∀ i : SymIdx, s.count i = 0
  nn : s.nn = 0
  root : s.root = 0
  hsize : s.hsize = 0
  tv : s.tv = false
  cv : s.cv = false
  cur : s.cur = 0
  pkAcc : s.pkAcc = 0
  pkCnt : s.pkCnt = 0
  upBuf : s.upBuf = 0
  upCnt : s.upCnt = 0
  err : s.err = 0
  esub : s.esub = 0
  einfo : s.einfo = 0
  busy : s.busy = false
  din : s.din = 0

/-! ## Errors -/

/-- The error classes, with their sub-codes, that a decoded command can raise: the table of
60_exceptions.md R293 without the decode errors of its column "Usage". -/
def mayRaise : Instr → List (Nat × Nat)
  | .nop | .rst | .fclr | .feof | .fset _ => []
  | .facc _ => [(6, 1)]
  | .fscan => [(3, 1), (6, 1)]
  | .build | .gen => [(5, 3)]
  | .ser => [(5, 3), (3, 3)]
  | .des => [(2, 1), (2, 2), (2, 3), (3, 2)]
  | .enc => [(5, 3), (3, 1), (3, 3), (4, 1)]
  | .dec => [(5, 3), (2, 4), (2, 5), (3, 2), (3, 4)]
  | .wmagic | .close => [(3, 3)]
  | .rmagic => [(1, 1), (1, 2), (3, 2)]

/-! ## Command sequences -/

/-- The host performs these actions one after the other. -/
def hostRun : List HostAction → State → Host.Outcome State Fault Refusal
  | [], s => .next s
  | a :: rest, s =>
    match hostAct a s with
    | .next t => hostRun rest t
    | .fault f => .fault f
    | .refused r => .refused r

/-- The host writes the word of a command to `CMD`. -/
def issue (i : Instr) : HostAction := .write 0 (encode i).toNat

/-- `ENCODE` (46_container.md R251) for the input file `bytes`. -/
def encodeSequence (bytes : List Byte) : List HostAction :=
  [issue .rst, .armSrc bytes 0, issue .fscan, issue .build, issue .gen, .armSrc bytes 0,
    issue .wmagic, issue .ser, issue .enc, issue .close]

/-- `DECODE` (46_container.md R252) for the container `bytes`. -/
def decodeSequence (bytes : List Byte) : List HostAction :=
  [issue .rst, .armUpi bytes 0, issue .rmagic, issue .des, issue .dec]

end Sys2Proof.Machine
end

