-- ==== Sys2Proof/Certificates/Slice0/Obligations.lean ====
section
/-! DEFINITION. The statements for the provers, from the numbered rules of spec/. -/

open Sys2Proof Sys2Proof.Machine

/-! ## Command words (30_encoding.md) -/

/-- Words written out from the table of 30_encoding.md R112 stand for the commands they name, one or
more of every command, the operands at both ends of their ranges. -/
def Obligations.DecodeWrittenOutWords : Prop :=
  decode 0x0000 = .instr .nop ∧ decode 0x0800 = .instr .rst ∧ decode 0x1000 = .instr .fclr ∧
  decode 0x1800 = .instr (.facc 0x00) ∧ decode 0x1841 = .instr (.facc 0x41) ∧
  decode 0x18FF = .instr (.facc 0xFF) ∧ decode 0x2000 = .instr .feof ∧
  decode 0x2800 = .instr (.fset 0) ∧ decode 0x2842 = .instr (.fset 0x42) ∧
  decode 0x2900 = .instr (.fset 256) ∧ decode 0x3000 = .instr .fscan ∧
  decode 0x3800 = .instr .build ∧ decode 0x4000 = .instr .gen ∧ decode 0x4800 = .instr .ser ∧
  decode 0x5000 = .instr .des ∧ decode 0x5800 = .instr .enc ∧ decode 0x6000 = .instr .dec ∧
  decode 0x6800 = .instr .wmagic ∧ decode 0x7000 = .instr .rmagic ∧ decode 0x7800 = .instr .close

/-- 30_encoding.md R110 to R113: decoding the word of a well-formed command gives that command back,
with every operand at every legal value. -/
def Obligations.DecodeEncode : Prop :=
  ∀ i : Instr, i.wellFormed = true → decode (encode i) = .instr i

/-- 30_encoding.md R112, R113: a word that decodes to a command is the word of that command, and the
command is well formed: no two words stand for one command, and no bit is ignored. -/
def Obligations.EncodeDecode : Prop :=
  ∀ (c : CmdWord) (i : Instr), decode c = .instr i → i.wellFormed = true ∧ encode i = c

/-- 30_encoding.md R113 steps (1) and (2), on every word, with the fields of R110 as numbers: the
opcode is illegal exactly from `0x10` on; of the other words those are refused whose reserved bits are
set, or whose operand field is not 0 (format `N`), not below 256 (format `B`, opcode 3) or not at most
256 (format `S`, opcode 5); every other word selects a command. -/
def Obligations.DecodeRefuses : Prop :=
  ∀ c : CmdWord,
    (decode c = .illegalOpcode ↔ 16 ≤ c.toNat / 2048) ∧
    (decode c = .badOperand ↔ c.toNat / 2048 < 16 ∧
      (c.toNat / 512 % 4 ≠ 0 ∨
        (c.toNat / 2048 ≠ 3 ∧ c.toNat / 2048 ≠ 5 ∧ c.toNat % 512 ≠ 0) ∨
        (c.toNat / 2048 = 3 ∧ 256 ≤ c.toNat % 512) ∨
        (c.toNat / 2048 = 5 ∧ 256 < c.toNat % 512)))

/-! ## The host port (10_state.md, 30_encoding.md R113, 60_exceptions.md) -/

/-- 10_state.md R36 and 47_system.md R268: when the host's next action is a write of `CMD` with a word
that decodes to a command, and the engine is idle without an error, the step is `exec` of that command
with `BUSY` set, and `BUSY` is clear after it. -/
def Obligations.StepRunsDecodedInstruction : Prop :=
  ∀ (s : State) (c : CmdWord) (rest : List HostAction) (i : Instr),
    s.host = .write 0 c.toNat :: rest → s.busy = false → s.err = 0 → decode c = .instr i →
    step s =
      match exec i { s with host := rest, busy := true } with
      | .next t => .next { t with busy := false }
      | .fault f => .fault f
      | .refused r => .refused r

/-- 30_encoding.md R113 steps (1) and (2), R115: a word the decoder refuses raises `UsageError` with
sub-code 1 or 2 and the word as its information, and changes nothing else. -/
def Obligations.DecodeErrorsRaise : Prop :=
  ∀ (s : State) (c : CmdWord) (rest : List HostAction),
    s.host = .write 0 c.toNat :: rest → s.busy = false → s.err = 0 →
    (decode c = .illegalOpcode →
      step s = .next (raiseError .usage 1 (zext32 c) { s with host := rest, busy := true })) ∧
    (decode c = .badOperand →
      step s = .next (raiseError .usage 2 (zext32 c) { s with host := rest, busy := true }))

/-- 30_encoding.md R114 and step (3) of R113: `BUILD` on an empty table, `GEN`, `SER` and `DEC` without
a valid tree and `ENC` without a valid code table raise `UsageError(3)` with the command word, and
change nothing else. -/
def Obligations.PreconditionsRaise : Prop :=
  ∀ s : State,
    ((∀ i : SymIdx, s.count i = 0) → exec .build s = .next (raiseError .usage 3 0x3800 s)) ∧
    (s.tv = false →
      exec .gen s = .next (raiseError .usage 3 0x4000 s) ∧
      exec .ser s = .next (raiseError .usage 3 0x4800 s) ∧
      exec .dec s = .next (raiseError .usage 3 0x6000 s)) ∧
    (s.cv = false → exec .enc s = .next (raiseError .usage 3 0x5800 s))

/-- 60_exceptions.md R288, the error entry: class, sub-code and information word are latched with the
class's number of R281, the packer's pending bits go to `PKO` in one zero-padded byte unless that access
fails, the packer is empty and the engine idle; nothing else changes. -/
def Obligations.ErrorEntry : Prop :=
  ErrClass.format.code = 1 ∧ ErrClass.corruptStream.code = 2 ∧ ErrClass.io.code = 3 ∧
  ErrClass.internalInvariant.code = 4 ∧ ErrClass.usage.code = 5 ∧ ErrClass.overflow.code = 6 ∧
  ∀ (e : ErrClass) (sub : BitVec 3) (info : BitVec 32) (s : State),
    (s.pkCnt = 0 → raiseError e sub info s =
      { s with err := e.code, esub := sub, einfo := info, busy := false }) ∧
    (s.pkCnt ≠ 0 → ∃ v : Byte,
      bitsOf v = pending s ++ List.replicate (8 - s.pkCnt.toNat) false ∧
      raiseError e sub info s =
        { s with
          err := e.code, esub := sub, einfo := info, busy := false, pkAcc := 0, pkCnt := 0
          pko := { data := if s.pko.oracle.head? = some true then s.pko.data else s.pko.data ++ [v]
                   oracle := s.pko.oracle.tail } })

/-- 60_exceptions.md R290, the error state: a write of `CMD` is ignored unless the word is exactly
`0x0800`, which resets the engine; reads of the host registers and of the inspection port work as
usual. -/
def Obligations.ErrorStateIgnores : Prop :=
  ∀ (s : State) (rest : List HostAction), s.err ≠ 0 → s.busy = false →
    (∀ c : CmdWord, s.host = .write 0 c.toNat :: rest → c ≠ 0x0800 →
      step s = .next { s with host := rest }) ∧
    (s.host = .write 0 0x0800 :: rest → ∃ t, step s = .next t ∧ t.AtReset) ∧
    (∀ reg, s.host = .read reg :: rest →
      step s = .next { s with host := rest, hostSaw := .word (readReg reg s) }) ∧
    (∀ space i v, s.host = .inspect space i :: rest → inspect space i s = some v →
      step s = .next { s with host := rest, hostSaw := v })

/-- 10_state.md R38: the fields of `STATUS`, at any time; reading it changes nothing but what the host
saw, and writing it changes nothing. -/
def Obligations.StatusRegister : Prop :=
  ∀ (s : State) (rest : List HostAction),
    (s.status.getLsbD 0 = s.busy ∧ s.status.getLsbD 1 = s.tv ∧ s.status.getLsbD 2 = s.cv ∧
      s.status.getLsbD 3 = false ∧ s.status.extractLsb' 4 3 = s.err ∧ s.status.getLsbD 7 = false ∧
      s.status.extractLsb' 8 3 = s.esub ∧ s.status.extractLsb' 11 5 = 0) ∧
    (s.host = .read 2 :: rest →
      step s = .next { s with host := rest, hostSaw := .word s.status.toNat }) ∧
    (∀ v, s.host = .write 2 v :: rest → step s = .next { s with host := rest })

/-- 10_state.md R39, R40: a read of `HR3` gives the register `EINFO`, which is 0 while `ERR = 0`; a read
of `HR4` gives `root` in bits 9:0 and `nn` in bits 19:10 and 0 above; neither read changes anything but
what the host saw, and writes of both change nothing. -/
def Obligations.EinfoAndTreeRegisters : Prop :=
  ∀ (s : State) (rest : List HostAction), s.RegInv →
    (s.host = .read 3 :: rest →
      step s = .next { s with host := rest, hostSaw := .word s.einfo.toNat }) ∧
    (s.err = 0 → s.einfo = 0) ∧
    (s.host = .read 4 :: rest →
      step s = .next { s with host := rest, hostSaw := .word s.treeReg.toNat }) ∧
    (s.treeReg.extractLsb' 0 10 = s.root ∧ s.treeReg.extractLsb' 10 10 = s.nn ∧
      s.treeReg.extractLsb' 20 12 = 0) ∧
    (∀ reg v, reg = 3 ∨ reg = 4 → s.host = .write reg v :: rest →
      step s = .next { s with host := rest })

/-- 10_state.md R37: a write of `DIN` while the engine is idle stores the low `CNT_W` bits, a write
while it is busy is ignored, a read gives the stored value; no command changes `DIN` but `RST`, which
clears it. -/
def Obligations.DinRegister : Prop :=
  ∀ s : State,
    (∀ v rest, s.host = .write 1 v :: rest → s.busy = false →
      step s = .next { s with host := rest, din := v % 2 ^ s.cfg.cntW }) ∧
    (∀ v rest, s.host = .write 1 v :: rest → s.busy = true →
      step s = .next { s with host := rest }) ∧
    (∀ rest, s.host = .read 1 :: rest →
      step s = .next { s with host := rest, hostSaw := .word s.din }) ∧
    (∀ i t, exec i s = .next t → (i ≠ .rst → t.din = s.din) ∧ (i = .rst → t.din = 0))

/-- 10_state.md R35, R36, 60_exceptions.md R297: `CMD` reads 0 and ignores writes while the engine is
busy, every register number above 4 reads 0 and ignores writes, and an engine whose host does nothing
keeps all its state. -/
def Obligations.OtherHostAccesses : Prop :=
  ∀ s : State,
    (∀ rest, s.host = .read 0 :: rest →
      step s = .next { s with host := rest, hostSaw := .word 0 }) ∧
    (∀ reg rest, 5 ≤ reg → s.host = .read reg :: rest →
      step s = .next { s with host := rest, hostSaw := .word 0 }) ∧
    (∀ reg v rest, 5 ≤ reg → s.host = .write reg v :: rest →
      step s = .next { s with host := rest }) ∧
    (∀ v rest, s.host = .write 0 v :: rest → s.busy = true →
      step s = .next { s with host := rest }) ∧
    (s.host = [] → step s = .next s)

/-- 47_system.md R271: while the engine is idle the inspection port returns the stored element of every
array and every scalar register it names, and changes nothing but what the host saw. -/
def Obligations.InspectionReads : Prop :=
  ∀ (s : State) (rest : List HostAction), s.busy = false →
    (∀ i : Fin 257, s.host = .inspect .ft i.val :: rest →
      step s = .next { s with host := rest, hostSaw := .word s.ft[i] }) ∧
    (∀ i : Fin 513, s.host = .inspect .node i.val :: rest →
      step s = .next { s with host := rest, hostSaw := .node s.node[i] }) ∧
    (∀ i : Fin 257, s.host = .inspect .heap i.val :: rest →
      step s = .next { s with host := rest, hostSaw := .word s.heap[i].toNat }) ∧
    (∀ i : Fin 257, s.host = .inspect .ct i.val :: rest →
      step s = .next { s with host := rest, hostSaw := .code s.ct[i].len s.ct[i].field }) ∧
    (∀ space v,
      (space, v) ∈ [(Space.nn, s.nn.toNat), (.root, s.root.toNat), (.hsize, s.hsize.toNat),
        (.cur, s.cur.toNat), (.pkAcc, s.pkAcc.toNat), (.pkCnt, s.pkCnt.toNat),
        (.upBuf, s.upBuf.toNat), (.upCnt, s.upCnt.toNat)] →
      s.host = .inspect space 0 :: rest →
      step s = .next { s with host := rest, hostSaw := .word v })

/-- 20_memory.md R64: between operations the host replaces the content and the read position of `SRC` or
`UPI`, and takes away or truncates the bytes on `PKO` or `DST`; nothing else changes. That a position beyond
the end of the content is taken too is the model's choice (notes/assumptions/18.md). -/
def Obligations.HostOwnsPorts : Prop :=
  ∀ (s : State) (rest : List HostAction), s.busy = false →
    (∀ b p, s.host = .armSrc b p :: rest →
      step s = .next { s with host := rest, src := { data := b, pos := p, oracle := s.src.oracle } }) ∧
    (∀ b p, s.host = .armUpi b p :: rest →
      step s = .next { s with host := rest, upi := { data := b, pos := p, oracle := s.upi.oracle } }) ∧
    (∀ m n, s.host = .trimPko m n :: rest →
      step s = .next { s with
        host := rest, pko := { data := (s.pko.data.drop m).take n, oracle := s.pko.oracle } }) ∧
    (∀ m n, s.host = .trimDst m n :: rest →
      step s = .next { s with
        host := rest, dst := { data := (s.dst.data.drop m).take n, oracle := s.dst.oracle } })

/-! ## Reset (10_state.md R43, 47_system.md R266, 70_reset_and_hazards.md) -/

/-- 47_system.md R266, 10_state.md R43, 70_reset_and_hazards.md R320, R323: `RST`, the word `0x0800`,
gives every register its reset value and touches neither the ports nor the parameters; what `NODE`,
`HEAP` and `CT` hold is open; hardware reset does the same; the model's state after reset has those
values too. -/
def Obligations.ResetValues : Prop :=
  encode .rst = 0x0800 ∧ State.reset.AtReset ∧
  (∀ s : State, ∃ t, exec .rst s = .next t ∧ t.AtReset ∧ t =
    { s with
      ft := Vector.replicate 257 0, node := t.node, nn := 0, root := 0, heap := t.heap, hsize := 0
      ct := t.ct, tv := false, cv := false, cur := 0, pkAcc := 0, pkCnt := 0, upBuf := 0, upCnt := 0
      err := 0, esub := 0, einfo := 0, busy := false, din := 0, draws := s.draws + 1 }) ∧
  (∀ (s : State) (rest : List HostAction), s.host = .hardwareReset :: rest →
    ∃ t, step s = .next t ∧ exec .rst { s with host := rest } = .next t)

/-! ## Invariants of the state -/

/-- The register ranges of 10_state.md (R23, R25, R26, R30, R31, R32, R33, R37) and what the validity
flags promise (R28, R45, R46) hold at reset, with the model's width there (log entry 2). -/
def Obligations.InvariantsHoldAtReset : Prop := State.reset.RegInv ∧ State.reset.TreeInv

/-- The register ranges of 10_state.md (R23, R25, R26, R30, R31, R32, R33, R37) hold after every step
from a state where they hold. -/
def Obligations.RegistersStayInRange : Prop :=
  ∀ s t : State, s.RegInv → step s = .next t → t.RegInv

/-- What the validity flags promise (10_state.md R28, R45, R46) holds after every step: a set `TV` means
a legal tree, a set `CV` means that tree's code table. -/
def Obligations.FlagsStayTrue : Prop :=
  ∀ s t : State, s.RegInv → s.TreeInv → step s = .next t → t.TreeInv

/-- 41_tree_builder.md R173: a node weight never needs more than `WGT_W = CNT_W + 9` bits, over every
step from a state in which the counters fit `CNT_W` bits and the weights `WGT_W` bits. -/
def Obligations.WeightsNeverOverflow : Prop :=
  ∀ s t : State, s.RegInv → (∀ n : Fin 513, s.node[n].w < 2 ^ (s.cfg.cntW + 9)) →
    step s = .next t → ∀ n : Fin 513, t.node[n].w < 2 ^ (t.cfg.cntW + 9)

/-- 70_reset_and_hazards.md R337: every command ends, whatever the ports hold and however they fail. -/
def Obligations.EveryOperationEnds : Prop :=
  ∀ (s : State) (i : Instr), s.RegInv → s.TreeInv → ∃ t, exec i s = .next t

/-! ## Rules about all commands -/

/-- The frame of every command, completed or ended by an error: who may write each piece of state
(10_state.md R23 to R33, R37, R42; 20_memory.md R63, R84; 40_freq.md R143). The packer and `PKO`, and
the error registers, are also written by the error entry, which leaves `ERR` set. -/
def Obligations.WhoWritesWhat : Prop :=
  ∀ (s t : State) (i : Instr), exec i s = .next t →
    (i ∉ [.rst, .fclr, .feof, .fscan] → (∀ b, i ≠ .facc b) → (∀ x, i ≠ .fset x) → t.ft = s.ft) ∧
    (i ∉ [.rst, .build, .des] →
      t.node = s.node ∧ t.nn = s.nn ∧ t.root = s.root ∧ t.tv = s.tv) ∧
    (i ∉ [.rst, .build] → t.heap = s.heap ∧ t.hsize = s.hsize) ∧
    (i ∉ [.rst, .gen] → t.ct = s.ct) ∧
    (i ∉ [.rst, .build, .des, .gen] → t.cv = s.cv) ∧
    (i ∉ [.rst, .dec] → t.cur = s.cur) ∧
    (i ∉ [.rst, .des, .dec, .rmagic] → t.upBuf = s.upBuf ∧ t.upCnt = s.upCnt) ∧
    (i ∉ [.des, .dec, .rmagic] → t.upi = s.upi) ∧
    (i ∉ [.fscan, .enc] → t.src = s.src) ∧
    (i ∉ [.dec] → t.dst = s.dst) ∧
    (i ∉ [.wmagic, .ser, .enc, .close] → t.err = 0 → t.pko = s.pko) ∧
    (i ∉ [.rst, .wmagic, .ser, .enc, .close] → t.err = 0 →
      t.pkAcc = s.pkAcc ∧ t.pkCnt = s.pkCnt) ∧
    (i ≠ .rst → t.err = 0 →
      s.err = 0 ∧ t.esub = s.esub ∧ t.einfo = s.einfo ∧ t.busy = s.busy) ∧
    (i ≠ .rst → t.din = s.din) ∧
    t.cfg = s.cfg ∧ t.host = s.host ∧ t.hostSaw = s.hostSaw

/-- 60_exceptions.md R293: an accepted command word raises only the classes and sub-codes its row of the
table allows. -/
def Obligations.WhichErrorsCanBeRaised : Prop :=
  ∀ (s t : State) (c : CmdWord) (rest : List HostAction),
    s.host = .write 0 c.toNat :: rest → s.busy = false → s.err = 0 → step s = .next t →
    t.err ≠ 0 →
    match decode c with
    | .illegalOpcode => t.err = 5 ∧ t.esub = 1
    | .badOperand => t.err = 5 ∧ t.esub = 2
    | .instr i => (t.err.toNat, t.esub.toNat) ∈ mayRaise i

/-- 20_memory.md R62: `ByteOut` leaves the port unchanged when the access fails and else appends its
byte; a byte once appended to `PKO` or `DST` is never changed or withdrawn by a command, also not by one
that ends in an error. -/
def Obligations.BytesNeverWithdrawn : Prop :=
  (∀ (p : OutPort) (v : Byte),
    (p.oracle.head? = some true → p.byteOut v = (.ioFail, { p with oracle := p.oracle.tail })) ∧
    (p.oracle.head? ≠ some true →
      p.byteOut v = (.done, { data := p.data ++ [v], oracle := p.oracle.tail }))) ∧
  ∀ (s t : State) (i : Instr), exec i s = .next t →
    s.pko.data <+: t.pko.data ∧ s.dst.data <+: t.dst.data

/-! ## Ports, packer, unpacker (20_memory.md) -/

/-- 20_memory.md R61: the three answers of `ByteIn`, in their order, and what each does to the port. That a
position beyond the end answers as the end does is the model's choice (notes/assumptions/18.md). -/
def Obligations.ByteInAnswers : Prop :=
  ∀ p : InPort,
    (p.oracle.head? = some true →
      p.byteIn = (.ioFail, { p with oracle := p.oracle.tail })) ∧
    (p.oracle.head? ≠ some true → p.data.length ≤ p.pos →
      p.byteIn = (.endOfStream, { p with oracle := p.oracle.tail })) ∧
    (∀ h : p.pos < p.data.length, p.oracle.head? ≠ some true →
      p.byteIn = (.byte p.data[p.pos], { p with pos := p.pos + 1, oracle := p.oracle.tail }))

/-- 20_memory.md R65, 60_exceptions.md R284: an access that fails raises `IOError` with the port's
sub-code: `UPI` 2 in `ReadBit`, `PKO` 3 in `WriteBit` (the packer emptied), `DST` 4 at a literal leaf,
`SRC` 1 in `FSCAN` and `ENC`. Where the access of `SRC` behind the bytes `p` is the first that fails, `ENC`
has written the codes of `p` and consumed `p`, no more (44_stream_encoder.md R221); `FscanStopsEarly` says the
same of `FSCAN`. -/
def Obligations.FailedAccessRaises : Prop :=
  ∀ s : State,
    (s.upCnt = 0 → s.upi.oracle.head? = some true →
      readBit s = .raised (raiseError .io 2 0
        { s with upi := { s.upi with oracle := s.upi.oracle.tail } })) ∧
    (∀ b, s.pkCnt = 7 → s.pko.oracle.head? = some true →
      writeBit b s = .raised (raiseError .io 3 0
        { s with pkAcc := 0, pkCnt := 0, pko := { s.pko with oracle := s.pko.oracle.tail } })) ∧
    (∀ r, s.nodeAt? s.cur = some r → r.leaf = true → r.sym ≠ 256 → s.dst.oracle.head? = some true →
      arrive s = .raised (raiseError .io 4 0
        { s with dst := { s.dst with oracle := s.dst.oracle.tail } })) ∧
    (s.cv = true → s.src.oracle.head? = some true →
      exec .enc s = .next (raiseError .io 1 0
        { s with src := { s.src with oracle := s.src.oracle.tail } })) ∧
    (∀ (p r : List Byte) (o : List Bool), s.cv = true → s.src.rest = p ++ r →
      s.src.oracle = List.replicate p.length false ++ true :: o → NoFail s.pko.oracle →
      (∀ b ∈ p, (s.codeAt (byteIdx b)).code ≠ []) →
      ∃ u, exec .enc s = .next (raiseError .io 1 0 u) ∧
        written u = written s ++ p.flatMap (fun b => (s.codeAt (byteIdx b)).code) ∧
        u = { s with
          src := { data := s.src.data, pos := s.src.pos + p.length, oracle := o }
          pkAcc := u.pkAcc, pkCnt := u.pkCnt, pko := u.pko }) ∧
    (s.src.oracle.head? = some true →
      exec .fscan s = .next (raiseError .io 1 0
        { s with
          ft := Vector.replicate 257 0
          src := { s.src with oracle := s.src.oracle.tail } }))

/-- 20_memory.md R69, the packer law. -/
def Obligations.PackerLaw : Prop :=
  ∀ (q : List Bool) (s : State), s.pkCnt = 0 → NoFail s.pko.oracle →
    ∃ t u, writeSeq q s = .ok () t ∧ flush t = .ok () u ∧
      ∃ bytes : List Byte, u.pko.data = s.pko.data ++ bytes ∧
        bytes.length = (q.length + 7) / 8 ∧
        streamBits bytes = q ++ List.replicate ((8 - q.length % 8) % 8) false

/-- 20_memory.md R71: `ReadBits(n)` gives the next `n` bits with the first as the most significant, and
answers `EndOfStream` when there are fewer, all of them consumed. -/
def Obligations.ReadBitsValue : Prop :=
  ∀ (n : Nat) (s : State), 1 ≤ n → n ≤ 32 → s.upCnt.toNat ≤ 8 → NoFail s.upi.oracle →
    (∀ (w : BitVec n) (r : List Bool), unread s = bitsOf w ++ r →
      ∃ t, readBits n s = .ok (some w) t ∧ unread t = r ∧
        t = { s with upBuf := t.upBuf, upCnt := t.upCnt, upi := t.upi }) ∧
    ((unread s).length < n →
      ∃ t, readBits n s = .ok none t ∧ unread t = [] ∧
        t = { s with upBuf := t.upBuf, upCnt := t.upCnt, upi := t.upi })

/-- 20_memory.md R74: the unpacker fetches lazily. From an empty unpacker, reading `k` bits that are
there consumes `ceil(k / 8)` bytes of `UPI`, and the end is answered exactly when no bit is buffered and
`UPI` is at its end, or, by the model's choice (notes/assumptions/18.md), beyond it. -/
def Obligations.UnpackerIsLazy : Prop :=
  ∀ (s : State), NoFail s.upi.oracle →
    (∀ (k : Nat) (v : BitVec 32), s.upCnt = 0 → k ≤ 8 * s.upi.rest.length →
      ∃ x t, readMore k v s = .ok (some x) t ∧ t.upi.pos = s.upi.pos + (k + 7) / 8 ∧
        unread t = (streamBits s.upi.rest).drop k) ∧
    ((∃ t, readBit s = .ok none t) ↔ s.upCnt = 0 ∧ s.upi.data.length ≤ s.upi.pos)

/-! ## System and frequency commands (47_system.md, 40_freq.md) -/

/-- 47_system.md R265: `NOP`, the word `0x0000`, changes nothing. -/
def Obligations.NopDoesNothing : Prop :=
  encode .nop = 0x0000 ∧ ∀ s : State, exec .nop s = .next s

/-- 40_freq.md R140: `FCLR`, the word `0x1000`, sets every counter to 0 and changes nothing else. -/
def Obligations.FclrClearsTable : Prop :=
  encode .fclr = 0x1000 ∧
  ∀ s : State, exec .fclr s = .next { s with ft := Vector.replicate 257 0 }

/-- 40_freq.md R141: `FACC imm8`, the word `0x1800 + imm8`, adds one to the byte's counter, or raises
`OverflowError(1, imm8)` when the counter is at its largest, and nothing else changes; with `arg[8]` set
the word raises `UsageError(2)`. -/
def Obligations.FaccCountsOneByte : Prop :=
  ∀ b : Byte,
    encode (.facc b) = 0x1800 + b.setWidth 16 ∧
    ∀ s : State,
      runCommand (0x1900 + b.setWidth 16) s =
        .next (raiseError .usage 2 (zext32 (0x1900 + b.setWidth 16 : CmdWord)) s) ∧
      (s.count (byteIdx b) ≠ 2 ^ s.cfg.cntW - 1 →
        exec (.facc b) s =
          .next { s with ft := s.ft.set (byteIdx b) (s.count (byteIdx b) + 1) }) ∧
      (s.count (byteIdx b) = 2 ^ s.cfg.cntW - 1 →
        exec (.facc b) s = .next (raiseError .overflow 1 (b.setWidth 32) s))

/-- 40_freq.md R142: `FEOF`, the word `0x2000`, sets the counter of symbol 256 to 1 and changes nothing
else. -/
def Obligations.FeofSetsSentinel : Prop :=
  encode .feof = 0x2000 ∧ ∀ s : State, exec .feof s = .next { s with ft := s.ft.set 256 1 }

/-- 40_freq.md R144: `FSET sym9`, the word `0x2800 + sym9`, copies `DIN` into the symbol's counter and
changes nothing else; above 256 the word raises `UsageError(2)`. -/
def Obligations.FsetLoadsCounter : Prop :=
  ∀ x : Symbol,
    encode (.fset x) = 0x2800 + x.setWidth 16 ∧
    (∀ (h : x.toNat < 257) (s : State),
      exec (.fset x) s = .next { s with ft := s.ft.set x.toNat s.din }) ∧
    (257 ≤ x.toNat → ∀ s : State,
      runCommand (encode (.fset x)) s =
        .next (raiseError .usage 2 (zext32 (encode (.fset x))) s) ∧
      exec (.fset x) s = .next (raiseError .usage 2 (zext32 (encode (.fset x))) s))

/-- 40_freq.md R145, R146: `FSCAN`, the word `0x3000`, over the bytes left on `SRC` counts every one of
them, whatever the table held, sets the sentinel's counter to 1, leaves `SRC` at its end and changes
nothing else. No counter is asked to hold more than `2^CNT_W − 1`, which fewer than `2^CNT_W` bytes
never do. -/
def Obligations.FscanCountsSource : Prop :=
  encode .fscan = 0x3000 ∧
  ∀ (s : State) (bytes : List Byte), s.src.rest = bytes → NoFail s.src.oracle →
    (∀ b, bytes.count b < 2 ^ s.cfg.cntW) →
    ∃ t, exec .fscan s = .next t ∧
      (∀ b : Byte, t.count (byteIdx b) = bytes.count b) ∧ t.count eofIdx = 1 ∧
      ((List.finRange 257).map t.count).sum = bytes.length + 1 ∧ t.tableNonEmpty = true ∧
      (presentSymbols t).length = bytes.dedup.length + 1 ∧
      t = { s with
        ft := t.ft
        src := { data := s.src.data, pos := s.src.pos + bytes.length
                 oracle := s.src.oracle.drop (bytes.length + 1) } }

/-- 40_freq.md R145: where `FSCAN` stops early. At the byte `v` whose counter is full it raises
`OverflowError(1, v)`, that byte consumed and not counted; at an access that fails it raises
`IOError(1)`. The bytes before are counted and the sentinel's counter is still 0. -/
def Obligations.FscanStopsEarly : Prop :=
  ∀ (s : State) (p : List Byte), (∀ b, p.count b < 2 ^ s.cfg.cntW) →
    (∀ v r, s.src.rest = p ++ v :: r → NoFail s.src.oracle → p.count v = 2 ^ s.cfg.cntW - 1 →
      ∃ u, exec .fscan s = .next (raiseError .overflow 1 (v.setWidth 32) u) ∧
        (∀ b : Byte, u.count (byteIdx b) = p.count b) ∧ u.count eofIdx = 0 ∧
        u = { s with
          ft := u.ft
          src := { data := s.src.data, pos := s.src.pos + (p.length + 1)
                   oracle := s.src.oracle.drop (p.length + 1) } }) ∧
    (∀ r o, s.src.rest = p ++ r → s.src.oracle = List.replicate p.length false ++ true :: o →
      ∃ u, exec .fscan s = .next (raiseError .io 1 0 u) ∧
        (∀ b : Byte, u.count (byteIdx b) = p.count b) ∧ u.count eofIdx = 0 ∧
        u = { s with
          ft := u.ft
          src := { data := s.src.data, pos := s.src.pos + p.length, oracle := o } })

/-! ## The tree builder (41_tree_builder.md) -/

/-- 41_tree_builder.md R165: on a heap, `PQ_INSERT` adds one entry and `PQ_EXTRACT_MIN` returns and
removes the one entry smaller than all others; both leave a heap and touch nothing but the queue. -/
def Obligations.QueueIsASet : Prop :=
  ∀ s : State, HeapOk s →
    (∀ n, s.hsize.toNat < 257 → n ∉ queue s →
      HeapOk (pqInsert n s) ∧ (queue (pqInsert n s)).Perm (n :: queue s) ∧
      pqInsert n s = { s with heap := (pqInsert n s).heap, hsize := (pqInsert n s).hsize }) ∧
    (∀ m t, 1 ≤ s.hsize.toNat → pqExtractMin s = (m, t) →
      m ∈ queue s ∧ (∀ x ∈ queue s, x ≠ m →
        s.weight m < s.weight x ∨ s.weight m = s.weight x ∧ m.toNat < x.toNat) ∧
      HeapOk t ∧ (queue s).Perm (m :: queue t) ∧
      t = { s with heap := t.heap, hsize := t.hsize })

/-- 41_tree_builder.md R170, R171: `BUILD`, the word `0x3800`, on a non-empty table of `k` present
symbols numbers the leaves in ascending symbol order from 0, then the Internal nodes, whose children have
smaller indices; `nn = 2k − 1`, `root = nn − 1`; `TV` is set, `CV` clear, the queue empty, and nothing
else changes. -/
def Obligations.BuildNumbersNodes : Prop :=
  encode .build = 0x3800 ∧
  ∀ s : State, s.tableNonEmpty = true → ∃ t, exec .build s = .next t ∧
    t.nn.toNat = 2 * (presentSymbols s).length - 1 ∧ t.root.toNat = t.nn.toNat - 1 ∧
    (∀ (k : Nat) (hk : k < (presentSymbols s).length), ∃ r : NodeRec, t.node[k]? = some r ∧
      r.leaf = true ∧ r.sym = idxSymbol (presentSymbols s)[k] ∧
      r.w = s.count (presentSymbols s)[k]) ∧
    (∀ k, (presentSymbols s).length ≤ k → k < t.nn.toNat → ∃ r : NodeRec, t.node[k]? = some r ∧
      r.leaf = false ∧ r.left.toNat < k ∧ r.right.toNat < k) ∧
    (∀ k, t.nn.toNat ≤ k → t.node[k]? = s.node[k]?) ∧
    t = { s with
      node := t.node, nn := t.nn, root := t.root, heap := t.heap, hsize := 0, tv := true, cv := false
      draws := s.draws + 1 }

/-- 41_tree_builder.md R165, R166, R167, R170: the tree `BUILD` stores is the tree that merging the two
least nodes again and again makes, first extracted left, whatever the heap does: it is `huffman` of the
leaves. -/
def Obligations.BuildMergesTheLeast : Prop :=
  ∀ s : State, s.tableNonEmpty = true → ∃ t T, exec .build s = .next t ∧
    huffman 257 (BitVec.ofNat 10 (presentSymbols s).length) (forest s) = some T ∧ t.HasTree T

/-- 41_tree_builder.md R174 (a) to (d): the leaves of the tree are exactly the present symbols, one
each; every record below `nn` is a leaf or has two children (a `CodeTree` is full); an Internal node weighs
what its two children weigh, so at least as much as each; merged weights do not fall in creation
order. -/
def Obligations.BuildTreeLaws : Prop :=
  ∀ s : State, s.tableNonEmpty = true → ∃ t T, exec .build s = .next t ∧ t.HasTree T ∧
    T.symbols.Perm ((presentSymbols s).map idxSymbol) ∧
    (∀ k : Fin 513, (presentSymbols s).length ≤ k.val → k.val < t.nn.toNat →
      t.node[k].w = t.weight t.node[k].left + t.weight t.node[k].right) ∧
    (∀ j k : Fin 513, (presentSymbols s).length ≤ j.val → j ≤ k → k.val < t.nn.toNat →
      t.node[j].w ≤ t.node[k].w)

/-- 41_tree_builder.md R174 (e): optimality. Of all trees whose leaves are the same symbols, the one
`BUILD` stores has the least sum of count times depth. -/
def Obligations.BuildIsOptimal : Prop :=
  ∀ (s : State) (f : Symbol → Nat), s.tableNonEmpty = true →
    (∀ i : SymIdx, f (idxSymbol i) = s.count i) →
    ∃ t T, exec .build s = .next t ∧ t.HasTree T ∧
      ∀ U : CodeTree, U.symbols.Perm ((presentSymbols s).map idxSymbol) →
        T.pathLength f 0 ≤ U.pathLength f 0

/-- 41_tree_builder.md R172: the tree is a function of the table alone: two engines with the same table
get the same tree, the same number of records, the same root, the same Leaf records and the same Internal
records (in every field that 10_state.md R24 gives a value in a record of that kind). -/
def Obligations.BuildIsDeterministic : Prop :=
  ∀ s s' : State, s.ft = s'.ft → s.tableNonEmpty = true →
    ∃ t t' T, exec .build s = .next t ∧ exec .build s' = .next t' ∧ t.HasTree T ∧ t'.HasTree T ∧
      t.nn = t'.nn ∧ t.root = t'.root ∧
      (∀ k, k < (presentSymbols s).length → ∃ r r' : NodeRec,
        t.node[k]? = some r ∧ t'.node[k]? = some r' ∧ r.leaf = true ∧ r'.leaf = true ∧
        r.sym = r'.sym ∧ r.w = r'.w) ∧
      ∀ k, (presentSymbols s).length ≤ k → k < t.nn.toNat → ∃ r r' : NodeRec,
        t.node[k]? = some r ∧ t'.node[k]? = some r' ∧ r.leaf = false ∧ r'.leaf = false ∧
        r.left = r'.left ∧ r.right = r'.right ∧ r.w = r'.w

/-! ## The code table (42_code_table.md) -/

/-- 42_code_table.md R192, R193, R194: `GEN`, the word `0x4000`, without a valid tree raises
`UsageError(3)`; with one it makes the code table of that tree (every path, left 0 and right 1, later
leaves over earlier ones, the code `0` for a single Leaf, none for other symbols), sets `CV` and changes
nothing else. -/
def Obligations.GenDerivesCodes : Prop :=
  encode .gen = 0x4000 ∧
  ∀ s : State,
    (s.tv = false → exec .gen s = .next (raiseError .usage 3 0x4000 s)) ∧
    ∀ T : CodeTree, s.tv = true → s.HasTree T → T.Legal →
      ∃ t, exec .gen s = .next t ∧ (∀ i : SymIdx, (t.codeAt i).code = T.codeOf (idxSymbol i)) ∧
        t = { s with ct := t.ct, cv := true, draws := s.draws + 1 }

/-- 42_code_table.md R195 (a), (b) and 10_state.md R46: after `GEN` a symbol has a code exactly when it
is a leaf of the tree, no code is longer than 256 bits, and none is a prefix of another. -/
def Obligations.CodesArePrefixFree : Prop :=
  ∀ (s : State) (T : CodeTree), s.tv = true → s.HasTree T → T.Legal →
    ∃ t, exec .gen s = .next t ∧
      ∀ i : SymIdx, (1 ≤ (t.codeAt i).len ↔ idxSymbol i ∈ T.symbols) ∧ (t.codeAt i).len ≤ 256 ∧
        ∀ j : SymIdx, i ≠ j → 1 ≤ (t.codeAt i).len → 1 ≤ (t.codeAt j).len →
          ¬ (t.codeAt i).code <+: (t.codeAt j).code

/-! ## The tree codec (43_tree_codec.md) -/

/-- 43_tree_codec.md R202: `SER` of a valid tree writes exactly its serialization, `11·L − 1` bits for
`L` leaves, and changes nothing but the packer and `PKO`. -/
def Obligations.SerWritesTree : Prop :=
  ∀ (s : State) (T : CodeTree), s.tv = true → s.HasTree T → T.Legal → NoFail s.pko.oracle →
    ∃ t, exec .ser s = .next t ∧ written t = written s ++ T.serial ∧
      T.serial.length = 11 * T.leaves - 1 ∧
      t = { s with pkAcc := t.pkAcc, pkCnt := t.pkCnt, pko := t.pko }

/-- 43_tree_codec.md R204, R205, R208: `DES` on the bits of a legal tree stores that tree, its records
numbered in preorder from 0, reads not one bit more, sets `TV`, clears `CV` and changes nothing else. -/
def Obligations.DesStoresTree : Prop :=
  ∀ (s : State) (T : CodeTree) (r : List Bool), T.Legal → s.upCnt.toNat ≤ 8 → NoFail s.upi.oracle →
    unread s = T.serial ++ r →
    ∃ t, exec .des s = .next t ∧ t.HasTree T ∧ Holds t.node T 0 (List.range T.size) ∧ t.root = 0 ∧
      t.nn.toNat = T.size ∧ unread t = r ∧ (∀ k, T.size ≤ k → t.node[k]? = s.node[k]?) ∧
      t = { s with
        node := t.node, nn := t.nn, root := 0, tv := true, cv := false, draws := s.draws + 1
        upBuf := t.upBuf, upCnt := t.upCnt, upi := t.upi }

/-- 43_tree_codec.md R208, R209: whenever `DES` completes it has consumed the bits of one legal tree,
between 10 and 2826 of them, and that is the tree it stores. -/
def Obligations.DesReadsOneTree : Prop :=
  ∀ s t : State, s.upCnt.toNat ≤ 8 → s.err = 0 → exec .des s = .next t → t.err = 0 →
    t.tv = true ∧ ∃ T : CodeTree, T.Legal ∧ t.HasTree T ∧ unread s = T.serial ++ unread t ∧
      10 ≤ T.serial.length ∧ T.serial.length ≤ 2826

/-- 43_tree_codec.md R208: the tree round trip. What `SER` writes of a tree, `DES` stores as that tree,
from any bit offset, and `GEN` gives the same code table for the tree and for its copy; what `DES`
consumed, `SER` writes back bit for bit. -/
def Obligations.TreeRoundTrip : Prop :=
  (∀ (s : State) (T : CodeTree), s.tv = true → s.HasTree T → T.Legal → NoFail s.pko.oracle →
    ∃ t q w, exec .ser s = .next t ∧ written t = written s ++ q ∧ exec .gen s = .next w ∧
      w.HasCodes T ∧
      ∀ (s' : State) (r : List Bool), s'.upCnt.toNat ≤ 8 → NoFail s'.upi.oracle →
        unread s' = q ++ r →
        ∃ t' u, exec .des s' = .next t' ∧ t'.HasTree T ∧ unread t' = r ∧
          exec .gen t' = .next u ∧ u.HasCodes T) ∧
  (∀ s t : State, s.upCnt.toNat ≤ 8 → s.err = 0 → exec .des s = .next t → t.err = 0 →
    NoFail t.pko.oracle →
    ∃ q u, unread s = q ++ unread t ∧ exec .ser t = .next u ∧ written u = written t ++ q)

/-- 43_tree_codec.md R203, R206, 60_exceptions.md R283: what `DES` rejects. Bits that end inside a legal
tree, and more generally bits that end behind fewer than 513 well-formed records that leave the tree open,
before the next record or inside its field, raise `CorruptStreamError(1)` with every bit consumed. Behind
such records, none or more, a Leaf with a field above 256 raises sub-code 2 with that field, its ten bits
consumed. 513 well-formed records that leave the tree open raise sub-code 3, exactly their bits consumed.
`TV` is clear after each. -/
def Obligations.DesRejects : Prop :=
  ∀ s : State, s.upCnt.toNat ≤ 8 → NoFail s.upi.oracle →
    (∀ (T : CodeTree) (q : List Bool), T.Legal → q ≠ [] → T.serial = unread s ++ q →
      ∃ u, exec .des s = .next (raiseError .corruptStream 1 0 u) ∧ u.tv = false ∧ unread u = []) ∧
    (∀ (rs : List (Option Symbol)) (p : List Bool), Unfinished rs → rs.length < 513 →
      p = [] ∨ (∃ q, p = true :: q ∧ q.length < 9) → unread s = rs.flatMap recordBits ++ p →
      ∃ u, exec .des s = .next (raiseError .corruptStream 1 0 u) ∧ u.tv = false ∧ unread u = []) ∧
    (∀ (rs : List (Option Symbol)) (v : BitVec 9) (r : List Bool), Unfinished rs → rs.length < 513 →
      256 < v.toNat → unread s = rs.flatMap recordBits ++ true :: (bitsOf v ++ r) →
      ∃ u, exec .des s = .next (raiseError .corruptStream 2 (v.setWidth 32) u) ∧ u.tv = false ∧
        unread u = r) ∧
    (∀ (rs : List (Option Symbol)) (r : List Bool), Unfinished rs → rs.length = 513 →
      unread s = rs.flatMap recordBits ++ r →
      ∃ u, exec .des s = .next (raiseError .corruptStream 3 0 u) ∧ u.tv = false ∧ unread u = r)

/-! ## The stream encoder (44_stream_encoder.md) -/

/-- 44_stream_encoder.md R221, R223: `ENC` over the bytes left on `SRC`, all of them and the sentinel
having codes, writes exactly their payload, leaves `SRC` at its end and changes nothing else; and
whenever it completes it has written the payload of those bytes. -/
def Obligations.EncWritesPayload : Prop :=
  (∀ (s : State) (bytes : List Byte), s.cv = true → s.src.rest = bytes →
    NoFail s.src.oracle → NoFail s.pko.oracle →
    (∀ b ∈ bytes, (s.codeAt (byteIdx b)).code ≠ []) → (s.codeAt eofIdx).code ≠ [] →
    ∃ t, exec .enc s = .next t ∧
      written t = written s ++ bytes.flatMap (fun b => (s.codeAt (byteIdx b)).code) ++
        (s.codeAt eofIdx).code ∧
      t = { s with
        src := { data := s.src.data, pos := s.src.pos + bytes.length
                 oracle := s.src.oracle.drop (bytes.length + 1) }
        pkAcc := t.pkAcc, pkCnt := t.pkCnt, pko := t.pko }) ∧
  (∀ s t : State, s.err = 0 → exec .enc s = .next t → t.err = 0 →
    written t = written s ++ s.src.rest.flatMap (fun b => (s.codeAt (byteIdx b)).code) ++
      (s.codeAt eofIdx).code)

/-- 44_stream_encoder.md R220, R224, 60_exceptions.md R285: the first symbol without a code raises
`InternalInvariantError(1)` with that symbol, before any bit of it is written: a byte of `SRC`, that byte
consumed, or the sentinel 256 after all bytes. -/
def Obligations.EncMissingCodeRaises : Prop :=
  ∀ (s : State) (p : List Byte), s.cv = true → NoFail s.src.oracle → NoFail s.pko.oracle →
    (∀ b ∈ p, (s.codeAt (byteIdx b)).code ≠ []) →
    (∀ v r, s.src.rest = p ++ v :: r → (s.codeAt (byteIdx v)).code = [] →
      ∃ u, exec .enc s = .next (raiseError .internalInvariant 1 (v.setWidth 32) u) ∧
        written u = written s ++ p.flatMap (fun b => (s.codeAt (byteIdx b)).code) ∧
        u.src.pos = s.src.pos + (p.length + 1)) ∧
    (s.src.rest = p → (s.codeAt eofIdx).code = [] →
      ∃ u, exec .enc s = .next (raiseError .internalInvariant 1 256 u) ∧
        written u = written s ++ p.flatMap (fun b => (s.codeAt (byteIdx b)).code) ∧
        u.src.pos = s.src.pos + p.length)

/-! ## The stream decoder (45_stream_decoder.md) -/

/-- 45_stream_decoder.md R236: when the next bits are the codes of some bytes and the sentinel in the
table of the valid tree, followed by anything, `DEC` writes exactly those bytes to `DST`, consumes
exactly those bits and discards the rest of the current byte; nothing else but `cur` changes. -/
def Obligations.DecWritesBytes : Prop :=
  ∀ (s : State) (T : CodeTree) (bytes : List Byte) (r : List Bool),
    s.tv = true → s.HasTree T → s.upCnt.toNat ≤ 8 → NoFail s.upi.oracle → NoFail s.dst.oracle →
    (∀ b ∈ bytes, T.codeOf (idxSymbol (byteIdx b)) ≠ []) → T.codeOf 256 ≠ [] →
    unread s = bytes.flatMap (fun b => T.codeOf (idxSymbol (byteIdx b))) ++ T.codeOf 256 ++ r →
    ∃ t, exec .dec s = .next t ∧ t.dst.data = s.dst.data ++ bytes ∧ t.upCnt = 0 ∧
      unread t = r.drop (r.length % 8) ∧
      t = { s with cur := t.cur, upBuf := 0, upCnt := 0, upi := t.upi, dst := t.dst }

/-- 45_stream_decoder.md R234, 60_exceptions.md R283: bits that end after the codes of some bytes, on a
code boundary or inside a code, raise `CorruptStreamError(4)` with the decoder's pointer, the bytes
written so far staying on `DST`. -/
def Obligations.DecExhaustionRaises : Prop :=
  ∀ (s : State) (T : CodeTree) (bytes : List Byte) (p : List Bool),
    s.tv = true → s.HasTree T → s.upCnt.toNat ≤ 8 → NoFail s.upi.oracle → NoFail s.dst.oracle →
    (∀ b ∈ bytes, T.codeOf (idxSymbol (byteIdx b)) ≠ []) → p = [] ∨ T.Inside p →
    unread s = bytes.flatMap (fun b => T.codeOf (idxSymbol (byteIdx b))) ++ p →
    ∃ u, exec .dec s =
        .next (raiseError .corruptStream 4 ((follow s.node s.root p).setWidth 32) u) ∧
      u.dst.data = s.dst.data ++ bytes ∧ unread u = [] ∧ u.cur = follow s.node s.root p

/-- 45_stream_decoder.md R232: at a tree that is a single Leaf, bit 0 is the code of its symbol and bit 1
raises `CorruptStreamError(5, 0)`. At a literal, `k` bits 0 write its byte `k` times, and then a bit 1
raises sub-code 5, the end of the bits sub-code 4 with the root (R234); at any Leaf the same holds with no
bit 0 before. At the sentinel, bit 0 ends the operation. -/
def Obligations.DecAtASingleLeaf : Prop :=
  ∀ (s : State) (x : Symbol),
    s.tv = true → s.HasTree (.leaf x) → s.upCnt.toNat ≤ 8 → NoFail s.upi.oracle →
    NoFail s.dst.oracle →
    (∀ (k : Nat) (q : List Bool), k = 0 ∨ x ≠ 256 → unread s = List.replicate k false ++ true :: q →
      ∃ u, exec .dec s = .next (raiseError .corruptStream 5 0 u) ∧ unread u = q ∧
        u.dst = { data := s.dst.data ++ List.replicate k (x.setWidth 8)
                  oracle := s.dst.oracle.drop k }) ∧
    (∀ k : Nat, k = 0 ∨ x ≠ 256 → unread s = List.replicate k false →
      ∃ u, exec .dec s = .next (raiseError .corruptStream 4 (s.root.setWidth 32) u) ∧ unread u = [] ∧
        u.dst = { data := s.dst.data ++ List.replicate k (x.setWidth 8)
                  oracle := s.dst.oracle.drop k }) ∧
    (∀ q : List Bool, x = 256 → unread s = false :: q → ∃ t, exec .dec s = .next t ∧ t.dst = s.dst ∧
      t.err = s.err ∧ t.upCnt = 0)

/-! ## The container (46_container.md) -/

/-- 46_container.md R245, R246, 20_memory.md R76: `WMAGIC`, the word `0x6800`, writes the 32 bits of
`MAGIC`, most significant first, and changes nothing but the packer and `PKO`; from an empty packer it
appends exactly the four bytes and leaves the packer empty. -/
def Obligations.WmagicWritesMagic : Prop :=
  encode .wmagic = 0x6800 ∧
  ∀ s : State, NoFail s.pko.oracle → ∃ t, exec .wmagic s = .next t ∧
    written t = written s ++ bitsOf s.cfg.magic ∧
    t = { s with pkAcc := t.pkAcc, pkCnt := t.pkCnt, pko := t.pko } ∧
    (s.pkCnt = 0 → t.pkCnt = 0 ∧ t.pko.data = s.pko.data ++
      [s.cfg.magic.extractLsb' 24 8, s.cfg.magic.extractLsb' 16 8, s.cfg.magic.extractLsb' 8 8,
        s.cfg.magic.extractLsb' 0 8])

/-- 46_container.md R247, 60_exceptions.md R282: `RMAGIC`, the word `0x7000`, on 32 bits equal to
`MAGIC` consumes them and completes; on others it raises `FormatError(1)` with the value read, on fewer
than 32 bits `FormatError(2)`; before the error entry nothing changes but the unpacker and `UPI`. -/
def Obligations.RmagicChecksMagic : Prop :=
  encode .rmagic = 0x7000 ∧
  ∀ s : State, s.upCnt.toNat ≤ 8 → NoFail s.upi.oracle →
    (∀ r, unread s = bitsOf s.cfg.magic ++ r → ∃ t, exec .rmagic s = .next t ∧ unread t = r ∧
      t = { s with upBuf := t.upBuf, upCnt := t.upCnt, upi := t.upi }) ∧
    (∀ (m : BitVec 32) (r : List Bool), m ≠ s.cfg.magic → unread s = bitsOf m ++ r →
      ∃ u, exec .rmagic s = .next (raiseError .format 1 m u) ∧ unread u = r ∧
        u = { s with upBuf := u.upBuf, upCnt := u.upCnt, upi := u.upi }) ∧
    ((unread s).length < 32 →
      ∃ u, exec .rmagic s = .next (raiseError .format 2 0 u) ∧ unread u = [] ∧
        u = { s with upBuf := u.upBuf, upCnt := u.upCnt, upi := u.upi })

/-- 46_container.md R249, 20_memory.md R68, R81: `CLOSE`, the word `0x7800`, pads the pending bits with
zeros to one byte and emits it, or does nothing when there are none; nothing but the packer and `PKO`
changes; where the access fails it raises `IOError(3)`, the packer emptied. -/
def Obligations.ClosePadsAndEmits : Prop :=
  encode .close = 0x7800 ∧
  ∀ s : State,
    (s.pkCnt = 0 → exec .close s = .next s) ∧
    (s.pkCnt ≠ 0 → s.pko.oracle.head? ≠ some true → ∃ v : Byte,
      bitsOf v = pending s ++ List.replicate (8 - s.pkCnt.toNat) false ∧
      exec .close s = .next { s with
        pkAcc := 0, pkCnt := 0
        pko := { data := s.pko.data ++ [v], oracle := s.pko.oracle.tail } }) ∧
    (s.pkCnt ≠ 0 → s.pko.oracle.head? = some true →
      exec .close s = .next (raiseError .io 3 0
        { s with pkAcc := 0, pkCnt := 0, pko := { s.pko with oracle := s.pko.oracle.tail } }))

/-- 46_container.md R248: decoding a file whose first four bytes are not the magic number fails with
`FormatError` and writes no output byte; no bit after those four bytes is read. -/
def Obligations.DecodeFailsFast : Prop :=
  ∀ (s : State) (file : List Byte), s.busy = false → NoFail s.upi.oracle → 4 ≤ file.length →
    streamBits (file.take 4) ≠ bitsOf s.cfg.magic →
    ∃ t, hostRun (decodeSequence file) s = .next t ∧ t.err = 1 ∧ t.esub = 1 ∧ t.dst = s.dst ∧
      t.upi.data = file ∧ t.upi.pos = 4 ∧ t.tv = false

/-- 46_container.md R251, R254 (a), (b), 30_encoding.md R108: `ENCODE` of a file appends to `PKO` the
magic number, the serialized tree, the payload and at most seven zero bits; the container depends on the
file and the parameters alone. -/
def Obligations.EncodeMakesContainer : Prop :=
  ∀ (cfg : Config) (file : List Byte), 1 ≤ cfg.cntW → file.length < 2 ^ cfg.cntW →
    ∃ (T : CodeTree) (container : List Byte),
      streamBits container = bitsOf cfg.magic ++ T.serial ++ T.payload file ++
        padding (bitsOf cfg.magic ++ T.serial ++ T.payload file).length ∧
      T.symbols.Nodup ∧ 256 ∈ T.symbols ∧ (∀ b ∈ file, idxSymbol (byteIdx b) ∈ T.symbols) ∧
      ∀ s : State, s.cfg = cfg → s.busy = false → NoFail s.src.oracle → NoFail s.pko.oracle →
        ∃ t, hostRun (encodeSequence file) s = .next t ∧ t.err = 0 ∧
          t.pko.data = s.pko.data ++ container ∧ t.HasTree T ∧ t.HasCodes T

/-- 46_container.md R253, the round trip: what `ENCODE` made of a file shorter than `2^CNT_W` bytes,
`DECODE` on any engine with the same parameters turns back into exactly that file, both without an
error. -/
def Obligations.FileRoundTrip : Prop :=
  ∀ (s : State) (file : List Byte), s.busy = false → 1 ≤ s.cfg.cntW →
    file.length < 2 ^ s.cfg.cntW → NoFail s.src.oracle → NoFail s.pko.oracle →
    ∃ t container, hostRun (encodeSequence file) s = .next t ∧ t.err = 0 ∧
      t.pko.data = s.pko.data ++ container ∧
      ∀ s' : State, s'.cfg = s.cfg → s'.busy = false → NoFail s'.upi.oracle → NoFail s'.dst.oracle →
        ∃ t', hostRun (decodeSequence container) s' = .next t' ∧ t'.err = 0 ∧
          t'.dst.data = s'.dst.data ++ file
end

