-- ==== Sys2Proof/Laws/State.lean ====
section
/-! SUPPORT. One lemma per field per update of the state: what each update leaves and what it writes. -/

namespace Sys2Proof.Machine

/-! ### `dropTree` -/

@[simp] theorem dropTree_ft (s : State) : s.dropTree.ft = s.ft := rfl
@[simp] theorem dropTree_node (s : State) : s.dropTree.node = s.node := rfl
@[simp] theorem dropTree_nn (s : State) : s.dropTree.nn = s.nn := rfl
@[simp] theorem dropTree_root (s : State) : s.dropTree.root = s.root := rfl
@[simp] theorem dropTree_heap (s : State) : s.dropTree.heap = s.heap := rfl
@[simp] theorem dropTree_hsize (s : State) : s.dropTree.hsize = s.hsize := rfl
@[simp] theorem dropTree_ct (s : State) : s.dropTree.ct = s.ct := rfl
@[simp] theorem dropTree_tv (s : State) : s.dropTree.tv = false := rfl
@[simp] theorem dropTree_cv (s : State) : s.dropTree.cv = false := rfl
@[simp] theorem dropTree_cur (s : State) : s.dropTree.cur = s.cur := rfl
@[simp] theorem dropTree_pkAcc (s : State) : s.dropTree.pkAcc = s.pkAcc := rfl
@[simp] theorem dropTree_pkCnt (s : State) : s.dropTree.pkCnt = s.pkCnt := rfl
@[simp] theorem dropTree_upBuf (s : State) : s.dropTree.upBuf = s.upBuf := rfl
@[simp] theorem dropTree_upCnt (s : State) : s.dropTree.upCnt = s.upCnt := rfl
@[simp] theorem dropTree_err (s : State) : s.dropTree.err = s.err := rfl
@[simp] theorem dropTree_esub (s : State) : s.dropTree.esub = s.esub := rfl
@[simp] theorem dropTree_einfo (s : State) : s.dropTree.einfo = s.einfo := rfl
@[simp] theorem dropTree_busy (s : State) : s.dropTree.busy = s.busy := rfl
@[simp] theorem dropTree_din (s : State) : s.dropTree.din = s.din := rfl
@[simp] theorem dropTree_cfg (s : State) : s.dropTree.cfg = s.cfg := rfl
@[simp] theorem dropTree_src (s : State) : s.dropTree.src = s.src := rfl
@[simp] theorem dropTree_upi (s : State) : s.dropTree.upi = s.upi := rfl
@[simp] theorem dropTree_pko (s : State) : s.dropTree.pko = s.pko := rfl
@[simp] theorem dropTree_dst (s : State) : s.dropTree.dst = s.dst := rfl
@[simp] theorem dropTree_host (s : State) : s.dropTree.host = s.host := rfl
@[simp] theorem dropTree_hostSaw (s : State) : s.dropTree.hostSaw = s.hostSaw := rfl
@[simp] theorem dropTree_draws (s : State) : s.dropTree.draws = s.draws := rfl

/-! ### `treeMade` -/

@[simp] theorem treeMade_ft (s : State) : s.treeMade.ft = s.ft := rfl
@[simp] theorem treeMade_node (s : State) : s.treeMade.node = s.node := rfl
@[simp] theorem treeMade_nn (s : State) : s.treeMade.nn = s.nn := rfl
@[simp] theorem treeMade_root (s : State) : s.treeMade.root = s.root := rfl
@[simp] theorem treeMade_heap (s : State) : s.treeMade.heap = s.heap := rfl
@[simp] theorem treeMade_hsize (s : State) : s.treeMade.hsize = s.hsize := rfl
@[simp] theorem treeMade_ct (s : State) : s.treeMade.ct = s.ct := rfl
@[simp] theorem treeMade_tv (s : State) : s.treeMade.tv = true := rfl
@[simp] theorem treeMade_cv (s : State) : s.treeMade.cv = s.cv := rfl
@[simp] theorem treeMade_cur (s : State) : s.treeMade.cur = s.cur := rfl
@[simp] theorem treeMade_pkAcc (s : State) : s.treeMade.pkAcc = s.pkAcc := rfl
@[simp] theorem treeMade_pkCnt (s : State) : s.treeMade.pkCnt = s.pkCnt := rfl
@[simp] theorem treeMade_upBuf (s : State) : s.treeMade.upBuf = s.upBuf := rfl
@[simp] theorem treeMade_upCnt (s : State) : s.treeMade.upCnt = s.upCnt := rfl
@[simp] theorem treeMade_err (s : State) : s.treeMade.err = s.err := rfl
@[simp] theorem treeMade_esub (s : State) : s.treeMade.esub = s.esub := rfl
@[simp] theorem treeMade_einfo (s : State) : s.treeMade.einfo = s.einfo := rfl
@[simp] theorem treeMade_busy (s : State) : s.treeMade.busy = s.busy := rfl
@[simp] theorem treeMade_din (s : State) : s.treeMade.din = s.din := rfl
@[simp] theorem treeMade_cfg (s : State) : s.treeMade.cfg = s.cfg := rfl
@[simp] theorem treeMade_src (s : State) : s.treeMade.src = s.src := rfl
@[simp] theorem treeMade_upi (s : State) : s.treeMade.upi = s.upi := rfl
@[simp] theorem treeMade_pko (s : State) : s.treeMade.pko = s.pko := rfl
@[simp] theorem treeMade_dst (s : State) : s.treeMade.dst = s.dst := rfl
@[simp] theorem treeMade_host (s : State) : s.treeMade.host = s.host := rfl
@[simp] theorem treeMade_hostSaw (s : State) : s.treeMade.hostSaw = s.hostSaw := rfl
@[simp] theorem treeMade_draws (s : State) : s.treeMade.draws = s.draws := rfl

/-! ### `dropCodes` -/

@[simp] theorem dropCodes_ft (s : State) : s.dropCodes.ft = s.ft := rfl
@[simp] theorem dropCodes_node (s : State) : s.dropCodes.node = s.node := rfl
@[simp] theorem dropCodes_nn (s : State) : s.dropCodes.nn = s.nn := rfl
@[simp] theorem dropCodes_root (s : State) : s.dropCodes.root = s.root := rfl
@[simp] theorem dropCodes_heap (s : State) : s.dropCodes.heap = s.heap := rfl
@[simp] theorem dropCodes_hsize (s : State) : s.dropCodes.hsize = s.hsize := rfl
@[simp] theorem dropCodes_ct (s : State) : s.dropCodes.ct = s.ct := rfl
@[simp] theorem dropCodes_tv (s : State) : s.dropCodes.tv = s.tv := rfl
@[simp] theorem dropCodes_cv (s : State) : s.dropCodes.cv = false := rfl
@[simp] theorem dropCodes_cur (s : State) : s.dropCodes.cur = s.cur := rfl
@[simp] theorem dropCodes_pkAcc (s : State) : s.dropCodes.pkAcc = s.pkAcc := rfl
@[simp] theorem dropCodes_pkCnt (s : State) : s.dropCodes.pkCnt = s.pkCnt := rfl
@[simp] theorem dropCodes_upBuf (s : State) : s.dropCodes.upBuf = s.upBuf := rfl
@[simp] theorem dropCodes_upCnt (s : State) : s.dropCodes.upCnt = s.upCnt := rfl
@[simp] theorem dropCodes_err (s : State) : s.dropCodes.err = s.err := rfl
@[simp] theorem dropCodes_esub (s : State) : s.dropCodes.esub = s.esub := rfl
@[simp] theorem dropCodes_einfo (s : State) : s.dropCodes.einfo = s.einfo := rfl
@[simp] theorem dropCodes_busy (s : State) : s.dropCodes.busy = s.busy := rfl
@[simp] theorem dropCodes_din (s : State) : s.dropCodes.din = s.din := rfl
@[simp] theorem dropCodes_cfg (s : State) : s.dropCodes.cfg = s.cfg := rfl
@[simp] theorem dropCodes_src (s : State) : s.dropCodes.src = s.src := rfl
@[simp] theorem dropCodes_upi (s : State) : s.dropCodes.upi = s.upi := rfl
@[simp] theorem dropCodes_pko (s : State) : s.dropCodes.pko = s.pko := rfl
@[simp] theorem dropCodes_dst (s : State) : s.dropCodes.dst = s.dst := rfl
@[simp] theorem dropCodes_host (s : State) : s.dropCodes.host = s.host := rfl
@[simp] theorem dropCodes_hostSaw (s : State) : s.dropCodes.hostSaw = s.hostSaw := rfl
@[simp] theorem dropCodes_draws (s : State) : s.dropCodes.draws = s.draws := rfl

/-! ### `codesMade` -/

@[simp] theorem codesMade_ft (s : State) : s.codesMade.ft = s.ft := rfl
@[simp] theorem codesMade_node (s : State) : s.codesMade.node = s.node := rfl
@[simp] theorem codesMade_nn (s : State) : s.codesMade.nn = s.nn := rfl
@[simp] theorem codesMade_root (s : State) : s.codesMade.root = s.root := rfl
@[simp] theorem codesMade_heap (s : State) : s.codesMade.heap = s.heap := rfl
@[simp] theorem codesMade_hsize (s : State) : s.codesMade.hsize = s.hsize := rfl
@[simp] theorem codesMade_ct (s : State) : s.codesMade.ct = s.ct := rfl
@[simp] theorem codesMade_tv (s : State) : s.codesMade.tv = s.tv := rfl
@[simp] theorem codesMade_cv (s : State) : s.codesMade.cv = true := rfl
@[simp] theorem codesMade_cur (s : State) : s.codesMade.cur = s.cur := rfl
@[simp] theorem codesMade_pkAcc (s : State) : s.codesMade.pkAcc = s.pkAcc := rfl
@[simp] theorem codesMade_pkCnt (s : State) : s.codesMade.pkCnt = s.pkCnt := rfl
@[simp] theorem codesMade_upBuf (s : State) : s.codesMade.upBuf = s.upBuf := rfl
@[simp] theorem codesMade_upCnt (s : State) : s.codesMade.upCnt = s.upCnt := rfl
@[simp] theorem codesMade_err (s : State) : s.codesMade.err = s.err := rfl
@[simp] theorem codesMade_esub (s : State) : s.codesMade.esub = s.esub := rfl
@[simp] theorem codesMade_einfo (s : State) : s.codesMade.einfo = s.einfo := rfl
@[simp] theorem codesMade_busy (s : State) : s.codesMade.busy = s.busy := rfl
@[simp] theorem codesMade_din (s : State) : s.codesMade.din = s.din := rfl
@[simp] theorem codesMade_cfg (s : State) : s.codesMade.cfg = s.cfg := rfl
@[simp] theorem codesMade_src (s : State) : s.codesMade.src = s.src := rfl
@[simp] theorem codesMade_upi (s : State) : s.codesMade.upi = s.upi := rfl
@[simp] theorem codesMade_pko (s : State) : s.codesMade.pko = s.pko := rfl
@[simp] theorem codesMade_dst (s : State) : s.codesMade.dst = s.dst := rfl
@[simp] theorem codesMade_host (s : State) : s.codesMade.host = s.host := rfl
@[simp] theorem codesMade_hostSaw (s : State) : s.codesMade.hostSaw = s.hostSaw := rfl
@[simp] theorem codesMade_draws (s : State) : s.codesMade.draws = s.draws := rfl

/-! ### `draw` -/

@[simp] theorem draw_ft (s : State) : s.draw.ft = s.ft := rfl
@[simp] theorem draw_node (s : State) : s.draw.node = s.node := rfl
@[simp] theorem draw_nn (s : State) : s.draw.nn = s.nn := rfl
@[simp] theorem draw_root (s : State) : s.draw.root = s.root := rfl
@[simp] theorem draw_heap (s : State) : s.draw.heap = s.heap := rfl
@[simp] theorem draw_hsize (s : State) : s.draw.hsize = s.hsize := rfl
@[simp] theorem draw_ct (s : State) : s.draw.ct = s.ct := rfl
@[simp] theorem draw_tv (s : State) : s.draw.tv = s.tv := rfl
@[simp] theorem draw_cv (s : State) : s.draw.cv = s.cv := rfl
@[simp] theorem draw_cur (s : State) : s.draw.cur = s.cur := rfl
@[simp] theorem draw_pkAcc (s : State) : s.draw.pkAcc = s.pkAcc := rfl
@[simp] theorem draw_pkCnt (s : State) : s.draw.pkCnt = s.pkCnt := rfl
@[simp] theorem draw_upBuf (s : State) : s.draw.upBuf = s.upBuf := rfl
@[simp] theorem draw_upCnt (s : State) : s.draw.upCnt = s.upCnt := rfl
@[simp] theorem draw_err (s : State) : s.draw.err = s.err := rfl
@[simp] theorem draw_esub (s : State) : s.draw.esub = s.esub := rfl
@[simp] theorem draw_einfo (s : State) : s.draw.einfo = s.einfo := rfl
@[simp] theorem draw_busy (s : State) : s.draw.busy = s.busy := rfl
@[simp] theorem draw_din (s : State) : s.draw.din = s.din := rfl
@[simp] theorem draw_cfg (s : State) : s.draw.cfg = s.cfg := rfl
@[simp] theorem draw_src (s : State) : s.draw.src = s.src := rfl
@[simp] theorem draw_upi (s : State) : s.draw.upi = s.upi := rfl
@[simp] theorem draw_pko (s : State) : s.draw.pko = s.pko := rfl
@[simp] theorem draw_dst (s : State) : s.draw.dst = s.dst := rfl
@[simp] theorem draw_host (s : State) : s.draw.host = s.host := rfl
@[simp] theorem draw_hostSaw (s : State) : s.draw.hostSaw = s.hostSaw := rfl
@[simp] theorem draw_draws (s : State) : s.draw.draws = s.draws + 1 := rfl

/-! ### `emptyPacker` -/

@[simp] theorem emptyPacker_ft (s : State) : (emptyPacker s).ft = s.ft := rfl
@[simp] theorem emptyPacker_node (s : State) : (emptyPacker s).node = s.node := rfl
@[simp] theorem emptyPacker_nn (s : State) : (emptyPacker s).nn = s.nn := rfl
@[simp] theorem emptyPacker_root (s : State) : (emptyPacker s).root = s.root := rfl
@[simp] theorem emptyPacker_heap (s : State) : (emptyPacker s).heap = s.heap := rfl
@[simp] theorem emptyPacker_hsize (s : State) : (emptyPacker s).hsize = s.hsize := rfl
@[simp] theorem emptyPacker_ct (s : State) : (emptyPacker s).ct = s.ct := rfl
@[simp] theorem emptyPacker_tv (s : State) : (emptyPacker s).tv = s.tv := rfl
@[simp] theorem emptyPacker_cv (s : State) : (emptyPacker s).cv = s.cv := rfl
@[simp] theorem emptyPacker_cur (s : State) : (emptyPacker s).cur = s.cur := rfl
@[simp] theorem emptyPacker_pkAcc (s : State) : (emptyPacker s).pkAcc = 0 := rfl
@[simp] theorem emptyPacker_pkCnt (s : State) : (emptyPacker s).pkCnt = 0 := rfl
@[simp] theorem emptyPacker_upBuf (s : State) : (emptyPacker s).upBuf = s.upBuf := rfl
@[simp] theorem emptyPacker_upCnt (s : State) : (emptyPacker s).upCnt = s.upCnt := rfl
@[simp] theorem emptyPacker_err (s : State) : (emptyPacker s).err = s.err := rfl
@[simp] theorem emptyPacker_esub (s : State) : (emptyPacker s).esub = s.esub := rfl
@[simp] theorem emptyPacker_einfo (s : State) : (emptyPacker s).einfo = s.einfo := rfl
@[simp] theorem emptyPacker_busy (s : State) : (emptyPacker s).busy = s.busy := rfl
@[simp] theorem emptyPacker_din (s : State) : (emptyPacker s).din = s.din := rfl
@[simp] theorem emptyPacker_cfg (s : State) : (emptyPacker s).cfg = s.cfg := rfl
@[simp] theorem emptyPacker_src (s : State) : (emptyPacker s).src = s.src := rfl
@[simp] theorem emptyPacker_upi (s : State) : (emptyPacker s).upi = s.upi := rfl
@[simp] theorem emptyPacker_pko (s : State) : (emptyPacker s).pko = s.pko := rfl
@[simp] theorem emptyPacker_dst (s : State) : (emptyPacker s).dst = s.dst := rfl
@[simp] theorem emptyPacker_host (s : State) : (emptyPacker s).host = s.host := rfl
@[simp] theorem emptyPacker_hostSaw (s : State) : (emptyPacker s).hostSaw = s.hostSaw := rfl
@[simp] theorem emptyPacker_draws (s : State) : (emptyPacker s).draws = s.draws := rfl

/-! ### `discardBits` -/

@[simp] theorem discardBits_ft (s : State) : (discardBits s).ft = s.ft := rfl
@[simp] theorem discardBits_node (s : State) : (discardBits s).node = s.node := rfl
@[simp] theorem discardBits_nn (s : State) : (discardBits s).nn = s.nn := rfl
@[simp] theorem discardBits_root (s : State) : (discardBits s).root = s.root := rfl
@[simp] theorem discardBits_heap (s : State) : (discardBits s).heap = s.heap := rfl
@[simp] theorem discardBits_hsize (s : State) : (discardBits s).hsize = s.hsize := rfl
@[simp] theorem discardBits_ct (s : State) : (discardBits s).ct = s.ct := rfl
@[simp] theorem discardBits_tv (s : State) : (discardBits s).tv = s.tv := rfl
@[simp] theorem discardBits_cv (s : State) : (discardBits s).cv = s.cv := rfl
@[simp] theorem discardBits_cur (s : State) : (discardBits s).cur = s.cur := rfl
@[simp] theorem discardBits_pkAcc (s : State) : (discardBits s).pkAcc = s.pkAcc := rfl
@[simp] theorem discardBits_pkCnt (s : State) : (discardBits s).pkCnt = s.pkCnt := rfl
@[simp] theorem discardBits_upBuf (s : State) : (discardBits s).upBuf = 0 := rfl
@[simp] theorem discardBits_upCnt (s : State) : (discardBits s).upCnt = 0 := rfl
@[simp] theorem discardBits_err (s : State) : (discardBits s).err = s.err := rfl
@[simp] theorem discardBits_esub (s : State) : (discardBits s).esub = s.esub := rfl
@[simp] theorem discardBits_einfo (s : State) : (discardBits s).einfo = s.einfo := rfl
@[simp] theorem discardBits_busy (s : State) : (discardBits s).busy = s.busy := rfl
@[simp] theorem discardBits_din (s : State) : (discardBits s).din = s.din := rfl
@[simp] theorem discardBits_cfg (s : State) : (discardBits s).cfg = s.cfg := rfl
@[simp] theorem discardBits_src (s : State) : (discardBits s).src = s.src := rfl
@[simp] theorem discardBits_upi (s : State) : (discardBits s).upi = s.upi := rfl
@[simp] theorem discardBits_pko (s : State) : (discardBits s).pko = s.pko := rfl
@[simp] theorem discardBits_dst (s : State) : (discardBits s).dst = s.dst := rfl
@[simp] theorem discardBits_host (s : State) : (discardBits s).host = s.host := rfl
@[simp] theorem discardBits_hostSaw (s : State) : (discardBits s).hostSaw = s.hostSaw := rfl
@[simp] theorem discardBits_draws (s : State) : (discardBits s).draws = s.draws := rfl

/-! ### `accept` -/

@[simp] theorem accept_ft (s : State) : (accept s).ft = s.ft := rfl
@[simp] theorem accept_node (s : State) : (accept s).node = s.node := rfl
@[simp] theorem accept_nn (s : State) : (accept s).nn = s.nn := rfl
@[simp] theorem accept_root (s : State) : (accept s).root = s.root := rfl
@[simp] theorem accept_heap (s : State) : (accept s).heap = s.heap := rfl
@[simp] theorem accept_hsize (s : State) : (accept s).hsize = s.hsize := rfl
@[simp] theorem accept_ct (s : State) : (accept s).ct = s.ct := rfl
@[simp] theorem accept_tv (s : State) : (accept s).tv = s.tv := rfl
@[simp] theorem accept_cv (s : State) : (accept s).cv = s.cv := rfl
@[simp] theorem accept_cur (s : State) : (accept s).cur = s.cur := rfl
@[simp] theorem accept_pkAcc (s : State) : (accept s).pkAcc = s.pkAcc := rfl
@[simp] theorem accept_pkCnt (s : State) : (accept s).pkCnt = s.pkCnt := rfl
@[simp] theorem accept_upBuf (s : State) : (accept s).upBuf = s.upBuf := rfl
@[simp] theorem accept_upCnt (s : State) : (accept s).upCnt = s.upCnt := rfl
@[simp] theorem accept_err (s : State) : (accept s).err = s.err := rfl
@[simp] theorem accept_esub (s : State) : (accept s).esub = s.esub := rfl
@[simp] theorem accept_einfo (s : State) : (accept s).einfo = s.einfo := rfl
@[simp] theorem accept_busy (s : State) : (accept s).busy = true := rfl
@[simp] theorem accept_din (s : State) : (accept s).din = s.din := rfl
@[simp] theorem accept_cfg (s : State) : (accept s).cfg = s.cfg := rfl
@[simp] theorem accept_src (s : State) : (accept s).src = s.src := rfl
@[simp] theorem accept_upi (s : State) : (accept s).upi = s.upi := rfl
@[simp] theorem accept_pko (s : State) : (accept s).pko = s.pko := rfl
@[simp] theorem accept_dst (s : State) : (accept s).dst = s.dst := rfl
@[simp] theorem accept_host (s : State) : (accept s).host = s.host := rfl
@[simp] theorem accept_hostSaw (s : State) : (accept s).hostSaw = s.hostSaw := rfl
@[simp] theorem accept_draws (s : State) : (accept s).draws = s.draws := rfl

/-! ### `setCount` -/

@[simp] theorem setCount_ft (s : State) (i : SymIdx) (c : Nat) : (s.setCount i c).ft = s.ft.set i c := rfl
@[simp] theorem setCount_node (s : State) (i : SymIdx) (c : Nat) : (s.setCount i c).node = s.node := rfl
@[simp] theorem setCount_nn (s : State) (i : SymIdx) (c : Nat) : (s.setCount i c).nn = s.nn := rfl
@[simp] theorem setCount_root (s : State) (i : SymIdx) (c : Nat) : (s.setCount i c).root = s.root := rfl
@[simp] theorem setCount_heap (s : State) (i : SymIdx) (c : Nat) : (s.setCount i c).heap = s.heap := rfl
@[simp] theorem setCount_hsize (s : State) (i : SymIdx) (c : Nat) : (s.setCount i c).hsize = s.hsize := rfl
@[simp] theorem setCount_ct (s : State) (i : SymIdx) (c : Nat) : (s.setCount i c).ct = s.ct := rfl
@[simp] theorem setCount_tv (s : State) (i : SymIdx) (c : Nat) : (s.setCount i c).tv = s.tv := rfl
@[simp] theorem setCount_cv (s : State) (i : SymIdx) (c : Nat) : (s.setCount i c).cv = s.cv := rfl
@[simp] theorem setCount_cur (s : State) (i : SymIdx) (c : Nat) : (s.setCount i c).cur = s.cur := rfl
@[simp] theorem setCount_pkAcc (s : State) (i : SymIdx) (c : Nat) : (s.setCount i c).pkAcc = s.pkAcc := rfl
@[simp] theorem setCount_pkCnt (s : State) (i : SymIdx) (c : Nat) : (s.setCount i c).pkCnt = s.pkCnt := rfl
@[simp] theorem setCount_upBuf (s : State) (i : SymIdx) (c : Nat) : (s.setCount i c).upBuf = s.upBuf := rfl
@[simp] theorem setCount_upCnt (s : State) (i : SymIdx) (c : Nat) : (s.setCount i c).upCnt = s.upCnt := rfl
@[simp] theorem setCount_err (s : State) (i : SymIdx) (c : Nat) : (s.setCount i c).err = s.err := rfl
@[simp] theorem setCount_esub (s : State) (i : SymIdx) (c : Nat) : (s.setCount i c).esub = s.esub := rfl
@[simp] theorem setCount_einfo (s : State) (i : SymIdx) (c : Nat) : (s.setCount i c).einfo = s.einfo := rfl
@[simp] theorem setCount_busy (s : State) (i : SymIdx) (c : Nat) : (s.setCount i c).busy = s.busy := rfl
@[simp] theorem setCount_din (s : State) (i : SymIdx) (c : Nat) : (s.setCount i c).din = s.din := rfl
@[simp] theorem setCount_cfg (s : State) (i : SymIdx) (c : Nat) : (s.setCount i c).cfg = s.cfg := rfl
@[simp] theorem setCount_src (s : State) (i : SymIdx) (c : Nat) : (s.setCount i c).src = s.src := rfl
@[simp] theorem setCount_upi (s : State) (i : SymIdx) (c : Nat) : (s.setCount i c).upi = s.upi := rfl
@[simp] theorem setCount_pko (s : State) (i : SymIdx) (c : Nat) : (s.setCount i c).pko = s.pko := rfl
@[simp] theorem setCount_dst (s : State) (i : SymIdx) (c : Nat) : (s.setCount i c).dst = s.dst := rfl
@[simp] theorem setCount_host (s : State) (i : SymIdx) (c : Nat) : (s.setCount i c).host = s.host := rfl
@[simp] theorem setCount_hostSaw (s : State) (i : SymIdx) (c : Nat) : (s.setCount i c).hostSaw = s.hostSaw := rfl
@[simp] theorem setCount_draws (s : State) (i : SymIdx) (c : Nat) : (s.setCount i c).draws = s.draws := rfl

/-! ### `setNode` -/

@[simp] theorem setNode_ft (s : State) (n : Index) (r : NodeRec) : (s.setNode n r).ft = s.ft := rfl
@[simp] theorem setNode_node (s : State) (n : Index) (r : NodeRec) : (s.setNode n r).node = s.node.setIfInBounds n.toNat r := rfl
@[simp] theorem setNode_nn (s : State) (n : Index) (r : NodeRec) : (s.setNode n r).nn = s.nn := rfl
@[simp] theorem setNode_root (s : State) (n : Index) (r : NodeRec) : (s.setNode n r).root = s.root := rfl
@[simp] theorem setNode_heap (s : State) (n : Index) (r : NodeRec) : (s.setNode n r).heap = s.heap := rfl
@[simp] theorem setNode_hsize (s : State) (n : Index) (r : NodeRec) : (s.setNode n r).hsize = s.hsize := rfl
@[simp] theorem setNode_ct (s : State) (n : Index) (r : NodeRec) : (s.setNode n r).ct = s.ct := rfl
@[simp] theorem setNode_tv (s : State) (n : Index) (r : NodeRec) : (s.setNode n r).tv = s.tv := rfl
@[simp] theorem setNode_cv (s : State) (n : Index) (r : NodeRec) : (s.setNode n r).cv = s.cv := rfl
@[simp] theorem setNode_cur (s : State) (n : Index) (r : NodeRec) : (s.setNode n r).cur = s.cur := rfl
@[simp] theorem setNode_pkAcc (s : State) (n : Index) (r : NodeRec) : (s.setNode n r).pkAcc = s.pkAcc := rfl
@[simp] theorem setNode_pkCnt (s : State) (n : Index) (r : NodeRec) : (s.setNode n r).pkCnt = s.pkCnt := rfl
@[simp] theorem setNode_upBuf (s : State) (n : Index) (r : NodeRec) : (s.setNode n r).upBuf = s.upBuf := rfl
@[simp] theorem setNode_upCnt (s : State) (n : Index) (r : NodeRec) : (s.setNode n r).upCnt = s.upCnt := rfl
@[simp] theorem setNode_err (s : State) (n : Index) (r : NodeRec) : (s.setNode n r).err = s.err := rfl
@[simp] theorem setNode_esub (s : State) (n : Index) (r : NodeRec) : (s.setNode n r).esub = s.esub := rfl
@[simp] theorem setNode_einfo (s : State) (n : Index) (r : NodeRec) : (s.setNode n r).einfo = s.einfo := rfl
@[simp] theorem setNode_busy (s : State) (n : Index) (r : NodeRec) : (s.setNode n r).busy = s.busy := rfl
@[simp] theorem setNode_din (s : State) (n : Index) (r : NodeRec) : (s.setNode n r).din = s.din := rfl
@[simp] theorem setNode_cfg (s : State) (n : Index) (r : NodeRec) : (s.setNode n r).cfg = s.cfg := rfl
@[simp] theorem setNode_src (s : State) (n : Index) (r : NodeRec) : (s.setNode n r).src = s.src := rfl
@[simp] theorem setNode_upi (s : State) (n : Index) (r : NodeRec) : (s.setNode n r).upi = s.upi := rfl
@[simp] theorem setNode_pko (s : State) (n : Index) (r : NodeRec) : (s.setNode n r).pko = s.pko := rfl
@[simp] theorem setNode_dst (s : State) (n : Index) (r : NodeRec) : (s.setNode n r).dst = s.dst := rfl
@[simp] theorem setNode_host (s : State) (n : Index) (r : NodeRec) : (s.setNode n r).host = s.host := rfl
@[simp] theorem setNode_hostSaw (s : State) (n : Index) (r : NodeRec) : (s.setNode n r).hostSaw = s.hostSaw := rfl
@[simp] theorem setNode_draws (s : State) (n : Index) (r : NodeRec) : (s.setNode n r).draws = s.draws := rfl

/-! ### `setCode` -/

@[simp] theorem setCode_ft (s : State) (i : SymIdx) (p : List Bool) : (s.setCode i p).ft = s.ft := rfl
@[simp] theorem setCode_node (s : State) (i : SymIdx) (p : List Bool) : (s.setCode i p).node = s.node := rfl
@[simp] theorem setCode_nn (s : State) (i : SymIdx) (p : List Bool) : (s.setCode i p).nn = s.nn := rfl
@[simp] theorem setCode_root (s : State) (i : SymIdx) (p : List Bool) : (s.setCode i p).root = s.root := rfl
@[simp] theorem setCode_heap (s : State) (i : SymIdx) (p : List Bool) : (s.setCode i p).heap = s.heap := rfl
@[simp] theorem setCode_hsize (s : State) (i : SymIdx) (p : List Bool) : (s.setCode i p).hsize = s.hsize := rfl
@[simp] theorem setCode_ct (s : State) (i : SymIdx) (p : List Bool) : (s.setCode i p).ct = s.ct.set i { code := p, above := Config.freeCodeAbove s.draws i.val } := rfl
@[simp] theorem setCode_tv (s : State) (i : SymIdx) (p : List Bool) : (s.setCode i p).tv = s.tv := rfl
@[simp] theorem setCode_cv (s : State) (i : SymIdx) (p : List Bool) : (s.setCode i p).cv = s.cv := rfl
@[simp] theorem setCode_cur (s : State) (i : SymIdx) (p : List Bool) : (s.setCode i p).cur = s.cur := rfl
@[simp] theorem setCode_pkAcc (s : State) (i : SymIdx) (p : List Bool) : (s.setCode i p).pkAcc = s.pkAcc := rfl
@[simp] theorem setCode_pkCnt (s : State) (i : SymIdx) (p : List Bool) : (s.setCode i p).pkCnt = s.pkCnt := rfl
@[simp] theorem setCode_upBuf (s : State) (i : SymIdx) (p : List Bool) : (s.setCode i p).upBuf = s.upBuf := rfl
@[simp] theorem setCode_upCnt (s : State) (i : SymIdx) (p : List Bool) : (s.setCode i p).upCnt = s.upCnt := rfl
@[simp] theorem setCode_err (s : State) (i : SymIdx) (p : List Bool) : (s.setCode i p).err = s.err := rfl
@[simp] theorem setCode_esub (s : State) (i : SymIdx) (p : List Bool) : (s.setCode i p).esub = s.esub := rfl
@[simp] theorem setCode_einfo (s : State) (i : SymIdx) (p : List Bool) : (s.setCode i p).einfo = s.einfo := rfl
@[simp] theorem setCode_busy (s : State) (i : SymIdx) (p : List Bool) : (s.setCode i p).busy = s.busy := rfl
@[simp] theorem setCode_din (s : State) (i : SymIdx) (p : List Bool) : (s.setCode i p).din = s.din := rfl
@[simp] theorem setCode_cfg (s : State) (i : SymIdx) (p : List Bool) : (s.setCode i p).cfg = s.cfg := rfl
@[simp] theorem setCode_src (s : State) (i : SymIdx) (p : List Bool) : (s.setCode i p).src = s.src := rfl
@[simp] theorem setCode_upi (s : State) (i : SymIdx) (p : List Bool) : (s.setCode i p).upi = s.upi := rfl
@[simp] theorem setCode_pko (s : State) (i : SymIdx) (p : List Bool) : (s.setCode i p).pko = s.pko := rfl
@[simp] theorem setCode_dst (s : State) (i : SymIdx) (p : List Bool) : (s.setCode i p).dst = s.dst := rfl
@[simp] theorem setCode_host (s : State) (i : SymIdx) (p : List Bool) : (s.setCode i p).host = s.host := rfl
@[simp] theorem setCode_hostSaw (s : State) (i : SymIdx) (p : List Bool) : (s.setCode i p).hostSaw = s.hostSaw := rfl
@[simp] theorem setCode_draws (s : State) (i : SymIdx) (p : List Bool) : (s.setCode i p).draws = s.draws := rfl

/-! ### `setHeap` -/

@[simp] theorem setHeap_ft (s : State) (i : Nat) (n : Index) : (setHeap i n s).ft = s.ft := rfl
@[simp] theorem setHeap_node (s : State) (i : Nat) (n : Index) : (setHeap i n s).node = s.node := rfl
@[simp] theorem setHeap_nn (s : State) (i : Nat) (n : Index) : (setHeap i n s).nn = s.nn := rfl
@[simp] theorem setHeap_root (s : State) (i : Nat) (n : Index) : (setHeap i n s).root = s.root := rfl
@[simp] theorem setHeap_heap (s : State) (i : Nat) (n : Index) : (setHeap i n s).heap = s.heap.setIfInBounds i n := rfl
@[simp] theorem setHeap_hsize (s : State) (i : Nat) (n : Index) : (setHeap i n s).hsize = s.hsize := rfl
@[simp] theorem setHeap_ct (s : State) (i : Nat) (n : Index) : (setHeap i n s).ct = s.ct := rfl
@[simp] theorem setHeap_tv (s : State) (i : Nat) (n : Index) : (setHeap i n s).tv = s.tv := rfl
@[simp] theorem setHeap_cv (s : State) (i : Nat) (n : Index) : (setHeap i n s).cv = s.cv := rfl
@[simp] theorem setHeap_cur (s : State) (i : Nat) (n : Index) : (setHeap i n s).cur = s.cur := rfl
@[simp] theorem setHeap_pkAcc (s : State) (i : Nat) (n : Index) : (setHeap i n s).pkAcc = s.pkAcc := rfl
@[simp] theorem setHeap_pkCnt (s : State) (i : Nat) (n : Index) : (setHeap i n s).pkCnt = s.pkCnt := rfl
@[simp] theorem setHeap_upBuf (s : State) (i : Nat) (n : Index) : (setHeap i n s).upBuf = s.upBuf := rfl
@[simp] theorem setHeap_upCnt (s : State) (i : Nat) (n : Index) : (setHeap i n s).upCnt = s.upCnt := rfl
@[simp] theorem setHeap_err (s : State) (i : Nat) (n : Index) : (setHeap i n s).err = s.err := rfl
@[simp] theorem setHeap_esub (s : State) (i : Nat) (n : Index) : (setHeap i n s).esub = s.esub := rfl
@[simp] theorem setHeap_einfo (s : State) (i : Nat) (n : Index) : (setHeap i n s).einfo = s.einfo := rfl
@[simp] theorem setHeap_busy (s : State) (i : Nat) (n : Index) : (setHeap i n s).busy = s.busy := rfl
@[simp] theorem setHeap_din (s : State) (i : Nat) (n : Index) : (setHeap i n s).din = s.din := rfl
@[simp] theorem setHeap_cfg (s : State) (i : Nat) (n : Index) : (setHeap i n s).cfg = s.cfg := rfl
@[simp] theorem setHeap_src (s : State) (i : Nat) (n : Index) : (setHeap i n s).src = s.src := rfl
@[simp] theorem setHeap_upi (s : State) (i : Nat) (n : Index) : (setHeap i n s).upi = s.upi := rfl
@[simp] theorem setHeap_pko (s : State) (i : Nat) (n : Index) : (setHeap i n s).pko = s.pko := rfl
@[simp] theorem setHeap_dst (s : State) (i : Nat) (n : Index) : (setHeap i n s).dst = s.dst := rfl
@[simp] theorem setHeap_host (s : State) (i : Nat) (n : Index) : (setHeap i n s).host = s.host := rfl
@[simp] theorem setHeap_hostSaw (s : State) (i : Nat) (n : Index) : (setHeap i n s).hostSaw = s.hostSaw := rfl
@[simp] theorem setHeap_draws (s : State) (i : Nat) (n : Index) : (setHeap i n s).draws = s.draws := rfl

/-! ### `alloc` -/

@[simp] theorem alloc_ft (s : State) : s.alloc.ft = s.ft := rfl
@[simp] theorem alloc_node (s : State) : s.alloc.node = s.node := rfl
@[simp] theorem alloc_nn (s : State) : s.alloc.nn = s.nn + 1 := rfl
@[simp] theorem alloc_root (s : State) : s.alloc.root = s.root := rfl
@[simp] theorem alloc_heap (s : State) : s.alloc.heap = s.heap := rfl
@[simp] theorem alloc_hsize (s : State) : s.alloc.hsize = s.hsize := rfl
@[simp] theorem alloc_ct (s : State) : s.alloc.ct = s.ct := rfl
@[simp] theorem alloc_tv (s : State) : s.alloc.tv = s.tv := rfl
@[simp] theorem alloc_cv (s : State) : s.alloc.cv = s.cv := rfl
@[simp] theorem alloc_cur (s : State) : s.alloc.cur = s.cur := rfl
@[simp] theorem alloc_pkAcc (s : State) : s.alloc.pkAcc = s.pkAcc := rfl
@[simp] theorem alloc_pkCnt (s : State) : s.alloc.pkCnt = s.pkCnt := rfl
@[simp] theorem alloc_upBuf (s : State) : s.alloc.upBuf = s.upBuf := rfl
@[simp] theorem alloc_upCnt (s : State) : s.alloc.upCnt = s.upCnt := rfl
@[simp] theorem alloc_err (s : State) : s.alloc.err = s.err := rfl
@[simp] theorem alloc_esub (s : State) : s.alloc.esub = s.esub := rfl
@[simp] theorem alloc_einfo (s : State) : s.alloc.einfo = s.einfo := rfl
@[simp] theorem alloc_busy (s : State) : s.alloc.busy = s.busy := rfl
@[simp] theorem alloc_din (s : State) : s.alloc.din = s.din := rfl
@[simp] theorem alloc_cfg (s : State) : s.alloc.cfg = s.cfg := rfl
@[simp] theorem alloc_src (s : State) : s.alloc.src = s.src := rfl
@[simp] theorem alloc_upi (s : State) : s.alloc.upi = s.upi := rfl
@[simp] theorem alloc_pko (s : State) : s.alloc.pko = s.pko := rfl
@[simp] theorem alloc_dst (s : State) : s.alloc.dst = s.dst := rfl
@[simp] theorem alloc_host (s : State) : s.alloc.host = s.host := rfl
@[simp] theorem alloc_hostSaw (s : State) : s.alloc.hostSaw = s.hostSaw := rfl
@[simp] theorem alloc_draws (s : State) : s.alloc.draws = s.draws := rfl

/-! ### `noNodes` -/

@[simp] theorem noNodes_ft (s : State) : s.noNodes.ft = s.ft := rfl
@[simp] theorem noNodes_node (s : State) : s.noNodes.node = s.node := rfl
@[simp] theorem noNodes_nn (s : State) : s.noNodes.nn = 0 := rfl
@[simp] theorem noNodes_root (s : State) : s.noNodes.root = s.root := rfl
@[simp] theorem noNodes_heap (s : State) : s.noNodes.heap = s.heap := rfl
@[simp] theorem noNodes_hsize (s : State) : s.noNodes.hsize = s.hsize := rfl
@[simp] theorem noNodes_ct (s : State) : s.noNodes.ct = s.ct := rfl
@[simp] theorem noNodes_tv (s : State) : s.noNodes.tv = s.tv := rfl
@[simp] theorem noNodes_cv (s : State) : s.noNodes.cv = s.cv := rfl
@[simp] theorem noNodes_cur (s : State) : s.noNodes.cur = s.cur := rfl
@[simp] theorem noNodes_pkAcc (s : State) : s.noNodes.pkAcc = s.pkAcc := rfl
@[simp] theorem noNodes_pkCnt (s : State) : s.noNodes.pkCnt = s.pkCnt := rfl
@[simp] theorem noNodes_upBuf (s : State) : s.noNodes.upBuf = s.upBuf := rfl
@[simp] theorem noNodes_upCnt (s : State) : s.noNodes.upCnt = s.upCnt := rfl
@[simp] theorem noNodes_err (s : State) : s.noNodes.err = s.err := rfl
@[simp] theorem noNodes_esub (s : State) : s.noNodes.esub = s.esub := rfl
@[simp] theorem noNodes_einfo (s : State) : s.noNodes.einfo = s.einfo := rfl
@[simp] theorem noNodes_busy (s : State) : s.noNodes.busy = s.busy := rfl
@[simp] theorem noNodes_din (s : State) : s.noNodes.din = s.din := rfl
@[simp] theorem noNodes_cfg (s : State) : s.noNodes.cfg = s.cfg := rfl
@[simp] theorem noNodes_src (s : State) : s.noNodes.src = s.src := rfl
@[simp] theorem noNodes_upi (s : State) : s.noNodes.upi = s.upi := rfl
@[simp] theorem noNodes_pko (s : State) : s.noNodes.pko = s.pko := rfl
@[simp] theorem noNodes_dst (s : State) : s.noNodes.dst = s.dst := rfl
@[simp] theorem noNodes_host (s : State) : s.noNodes.host = s.host := rfl
@[simp] theorem noNodes_hostSaw (s : State) : s.noNodes.hostSaw = s.hostSaw := rfl
@[simp] theorem noNodes_draws (s : State) : s.noNodes.draws = s.draws := rfl

/-! ### `setRoot` -/

@[simp] theorem setRoot_ft (s : State) (n : Index) : (s.setRoot n).ft = s.ft := rfl
@[simp] theorem setRoot_node (s : State) (n : Index) : (s.setRoot n).node = s.node := rfl
@[simp] theorem setRoot_nn (s : State) (n : Index) : (s.setRoot n).nn = s.nn := rfl
@[simp] theorem setRoot_root (s : State) (n : Index) : (s.setRoot n).root = n := rfl
@[simp] theorem setRoot_heap (s : State) (n : Index) : (s.setRoot n).heap = s.heap := rfl
@[simp] theorem setRoot_hsize (s : State) (n : Index) : (s.setRoot n).hsize = s.hsize := rfl
@[simp] theorem setRoot_ct (s : State) (n : Index) : (s.setRoot n).ct = s.ct := rfl
@[simp] theorem setRoot_tv (s : State) (n : Index) : (s.setRoot n).tv = s.tv := rfl
@[simp] theorem setRoot_cv (s : State) (n : Index) : (s.setRoot n).cv = s.cv := rfl
@[simp] theorem setRoot_cur (s : State) (n : Index) : (s.setRoot n).cur = s.cur := rfl
@[simp] theorem setRoot_pkAcc (s : State) (n : Index) : (s.setRoot n).pkAcc = s.pkAcc := rfl
@[simp] theorem setRoot_pkCnt (s : State) (n : Index) : (s.setRoot n).pkCnt = s.pkCnt := rfl
@[simp] theorem setRoot_upBuf (s : State) (n : Index) : (s.setRoot n).upBuf = s.upBuf := rfl
@[simp] theorem setRoot_upCnt (s : State) (n : Index) : (s.setRoot n).upCnt = s.upCnt := rfl
@[simp] theorem setRoot_err (s : State) (n : Index) : (s.setRoot n).err = s.err := rfl
@[simp] theorem setRoot_esub (s : State) (n : Index) : (s.setRoot n).esub = s.esub := rfl
@[simp] theorem setRoot_einfo (s : State) (n : Index) : (s.setRoot n).einfo = s.einfo := rfl
@[simp] theorem setRoot_busy (s : State) (n : Index) : (s.setRoot n).busy = s.busy := rfl
@[simp] theorem setRoot_din (s : State) (n : Index) : (s.setRoot n).din = s.din := rfl
@[simp] theorem setRoot_cfg (s : State) (n : Index) : (s.setRoot n).cfg = s.cfg := rfl
@[simp] theorem setRoot_src (s : State) (n : Index) : (s.setRoot n).src = s.src := rfl
@[simp] theorem setRoot_upi (s : State) (n : Index) : (s.setRoot n).upi = s.upi := rfl
@[simp] theorem setRoot_pko (s : State) (n : Index) : (s.setRoot n).pko = s.pko := rfl
@[simp] theorem setRoot_dst (s : State) (n : Index) : (s.setRoot n).dst = s.dst := rfl
@[simp] theorem setRoot_host (s : State) (n : Index) : (s.setRoot n).host = s.host := rfl
@[simp] theorem setRoot_hostSaw (s : State) (n : Index) : (s.setRoot n).hostSaw = s.hostSaw := rfl
@[simp] theorem setRoot_draws (s : State) (n : Index) : (s.setRoot n).draws = s.draws := rfl

/-! ### `setCur` -/

@[simp] theorem setCur_ft (s : State) (n : Index) : (s.setCur n).ft = s.ft := rfl
@[simp] theorem setCur_node (s : State) (n : Index) : (s.setCur n).node = s.node := rfl
@[simp] theorem setCur_nn (s : State) (n : Index) : (s.setCur n).nn = s.nn := rfl
@[simp] theorem setCur_root (s : State) (n : Index) : (s.setCur n).root = s.root := rfl
@[simp] theorem setCur_heap (s : State) (n : Index) : (s.setCur n).heap = s.heap := rfl
@[simp] theorem setCur_hsize (s : State) (n : Index) : (s.setCur n).hsize = s.hsize := rfl
@[simp] theorem setCur_ct (s : State) (n : Index) : (s.setCur n).ct = s.ct := rfl
@[simp] theorem setCur_tv (s : State) (n : Index) : (s.setCur n).tv = s.tv := rfl
@[simp] theorem setCur_cv (s : State) (n : Index) : (s.setCur n).cv = s.cv := rfl
@[simp] theorem setCur_cur (s : State) (n : Index) : (s.setCur n).cur = n := rfl
@[simp] theorem setCur_pkAcc (s : State) (n : Index) : (s.setCur n).pkAcc = s.pkAcc := rfl
@[simp] theorem setCur_pkCnt (s : State) (n : Index) : (s.setCur n).pkCnt = s.pkCnt := rfl
@[simp] theorem setCur_upBuf (s : State) (n : Index) : (s.setCur n).upBuf = s.upBuf := rfl
@[simp] theorem setCur_upCnt (s : State) (n : Index) : (s.setCur n).upCnt = s.upCnt := rfl
@[simp] theorem setCur_err (s : State) (n : Index) : (s.setCur n).err = s.err := rfl
@[simp] theorem setCur_esub (s : State) (n : Index) : (s.setCur n).esub = s.esub := rfl
@[simp] theorem setCur_einfo (s : State) (n : Index) : (s.setCur n).einfo = s.einfo := rfl
@[simp] theorem setCur_busy (s : State) (n : Index) : (s.setCur n).busy = s.busy := rfl
@[simp] theorem setCur_din (s : State) (n : Index) : (s.setCur n).din = s.din := rfl
@[simp] theorem setCur_cfg (s : State) (n : Index) : (s.setCur n).cfg = s.cfg := rfl
@[simp] theorem setCur_src (s : State) (n : Index) : (s.setCur n).src = s.src := rfl
@[simp] theorem setCur_upi (s : State) (n : Index) : (s.setCur n).upi = s.upi := rfl
@[simp] theorem setCur_pko (s : State) (n : Index) : (s.setCur n).pko = s.pko := rfl
@[simp] theorem setCur_dst (s : State) (n : Index) : (s.setCur n).dst = s.dst := rfl
@[simp] theorem setCur_host (s : State) (n : Index) : (s.setCur n).host = s.host := rfl
@[simp] theorem setCur_hostSaw (s : State) (n : Index) : (s.setCur n).hostSaw = s.hostSaw := rfl
@[simp] theorem setCur_draws (s : State) (n : Index) : (s.setCur n).draws = s.draws := rfl

/-! ### `setHsize` -/

@[simp] theorem setHsize_ft (s : State) (k : BitVec 9) : (s.setHsize k).ft = s.ft := rfl
@[simp] theorem setHsize_node (s : State) (k : BitVec 9) : (s.setHsize k).node = s.node := rfl
@[simp] theorem setHsize_nn (s : State) (k : BitVec 9) : (s.setHsize k).nn = s.nn := rfl
@[simp] theorem setHsize_root (s : State) (k : BitVec 9) : (s.setHsize k).root = s.root := rfl
@[simp] theorem setHsize_heap (s : State) (k : BitVec 9) : (s.setHsize k).heap = s.heap := rfl
@[simp] theorem setHsize_hsize (s : State) (k : BitVec 9) : (s.setHsize k).hsize = k := rfl
@[simp] theorem setHsize_ct (s : State) (k : BitVec 9) : (s.setHsize k).ct = s.ct := rfl
@[simp] theorem setHsize_tv (s : State) (k : BitVec 9) : (s.setHsize k).tv = s.tv := rfl
@[simp] theorem setHsize_cv (s : State) (k : BitVec 9) : (s.setHsize k).cv = s.cv := rfl
@[simp] theorem setHsize_cur (s : State) (k : BitVec 9) : (s.setHsize k).cur = s.cur := rfl
@[simp] theorem setHsize_pkAcc (s : State) (k : BitVec 9) : (s.setHsize k).pkAcc = s.pkAcc := rfl
@[simp] theorem setHsize_pkCnt (s : State) (k : BitVec 9) : (s.setHsize k).pkCnt = s.pkCnt := rfl
@[simp] theorem setHsize_upBuf (s : State) (k : BitVec 9) : (s.setHsize k).upBuf = s.upBuf := rfl
@[simp] theorem setHsize_upCnt (s : State) (k : BitVec 9) : (s.setHsize k).upCnt = s.upCnt := rfl
@[simp] theorem setHsize_err (s : State) (k : BitVec 9) : (s.setHsize k).err = s.err := rfl
@[simp] theorem setHsize_esub (s : State) (k : BitVec 9) : (s.setHsize k).esub = s.esub := rfl
@[simp] theorem setHsize_einfo (s : State) (k : BitVec 9) : (s.setHsize k).einfo = s.einfo := rfl
@[simp] theorem setHsize_busy (s : State) (k : BitVec 9) : (s.setHsize k).busy = s.busy := rfl
@[simp] theorem setHsize_din (s : State) (k : BitVec 9) : (s.setHsize k).din = s.din := rfl
@[simp] theorem setHsize_cfg (s : State) (k : BitVec 9) : (s.setHsize k).cfg = s.cfg := rfl
@[simp] theorem setHsize_src (s : State) (k : BitVec 9) : (s.setHsize k).src = s.src := rfl
@[simp] theorem setHsize_upi (s : State) (k : BitVec 9) : (s.setHsize k).upi = s.upi := rfl
@[simp] theorem setHsize_pko (s : State) (k : BitVec 9) : (s.setHsize k).pko = s.pko := rfl
@[simp] theorem setHsize_dst (s : State) (k : BitVec 9) : (s.setHsize k).dst = s.dst := rfl
@[simp] theorem setHsize_host (s : State) (k : BitVec 9) : (s.setHsize k).host = s.host := rfl
@[simp] theorem setHsize_hostSaw (s : State) (k : BitVec 9) : (s.setHsize k).hostSaw = s.hostSaw := rfl
@[simp] theorem setHsize_draws (s : State) (k : BitVec 9) : (s.setHsize k).draws = s.draws := rfl

/-! ### `dropHeap` -/

@[simp] theorem dropHeap_ft (s : State) : s.dropHeap.ft = s.ft := rfl
@[simp] theorem dropHeap_node (s : State) : s.dropHeap.node = s.node := rfl
@[simp] theorem dropHeap_nn (s : State) : s.dropHeap.nn = s.nn := rfl
@[simp] theorem dropHeap_root (s : State) : s.dropHeap.root = s.root := rfl
@[simp] theorem dropHeap_heap (s : State) : s.dropHeap.heap = freeHeap s := rfl
@[simp] theorem dropHeap_hsize (s : State) : s.dropHeap.hsize = s.hsize := rfl
@[simp] theorem dropHeap_ct (s : State) : s.dropHeap.ct = s.ct := rfl
@[simp] theorem dropHeap_tv (s : State) : s.dropHeap.tv = s.tv := rfl
@[simp] theorem dropHeap_cv (s : State) : s.dropHeap.cv = s.cv := rfl
@[simp] theorem dropHeap_cur (s : State) : s.dropHeap.cur = s.cur := rfl
@[simp] theorem dropHeap_pkAcc (s : State) : s.dropHeap.pkAcc = s.pkAcc := rfl
@[simp] theorem dropHeap_pkCnt (s : State) : s.dropHeap.pkCnt = s.pkCnt := rfl
@[simp] theorem dropHeap_upBuf (s : State) : s.dropHeap.upBuf = s.upBuf := rfl
@[simp] theorem dropHeap_upCnt (s : State) : s.dropHeap.upCnt = s.upCnt := rfl
@[simp] theorem dropHeap_err (s : State) : s.dropHeap.err = s.err := rfl
@[simp] theorem dropHeap_esub (s : State) : s.dropHeap.esub = s.esub := rfl
@[simp] theorem dropHeap_einfo (s : State) : s.dropHeap.einfo = s.einfo := rfl
@[simp] theorem dropHeap_busy (s : State) : s.dropHeap.busy = s.busy := rfl
@[simp] theorem dropHeap_din (s : State) : s.dropHeap.din = s.din := rfl
@[simp] theorem dropHeap_cfg (s : State) : s.dropHeap.cfg = s.cfg := rfl
@[simp] theorem dropHeap_src (s : State) : s.dropHeap.src = s.src := rfl
@[simp] theorem dropHeap_upi (s : State) : s.dropHeap.upi = s.upi := rfl
@[simp] theorem dropHeap_pko (s : State) : s.dropHeap.pko = s.pko := rfl
@[simp] theorem dropHeap_dst (s : State) : s.dropHeap.dst = s.dst := rfl
@[simp] theorem dropHeap_host (s : State) : s.dropHeap.host = s.host := rfl
@[simp] theorem dropHeap_hostSaw (s : State) : s.dropHeap.hostSaw = s.hostSaw := rfl
@[simp] theorem dropHeap_draws (s : State) : s.dropHeap.draws = s.draws := rfl

/-! ### `clearTable` -/

@[simp] theorem clearTable_ft (s : State) : (clearTable s).ft = Vector.replicate 257 0 := rfl
@[simp] theorem clearTable_node (s : State) : (clearTable s).node = s.node := rfl
@[simp] theorem clearTable_nn (s : State) : (clearTable s).nn = s.nn := rfl
@[simp] theorem clearTable_root (s : State) : (clearTable s).root = s.root := rfl
@[simp] theorem clearTable_heap (s : State) : (clearTable s).heap = s.heap := rfl
@[simp] theorem clearTable_hsize (s : State) : (clearTable s).hsize = s.hsize := rfl
@[simp] theorem clearTable_ct (s : State) : (clearTable s).ct = s.ct := rfl
@[simp] theorem clearTable_tv (s : State) : (clearTable s).tv = s.tv := rfl
@[simp] theorem clearTable_cv (s : State) : (clearTable s).cv = s.cv := rfl
@[simp] theorem clearTable_cur (s : State) : (clearTable s).cur = s.cur := rfl
@[simp] theorem clearTable_pkAcc (s : State) : (clearTable s).pkAcc = s.pkAcc := rfl
@[simp] theorem clearTable_pkCnt (s : State) : (clearTable s).pkCnt = s.pkCnt := rfl
@[simp] theorem clearTable_upBuf (s : State) : (clearTable s).upBuf = s.upBuf := rfl
@[simp] theorem clearTable_upCnt (s : State) : (clearTable s).upCnt = s.upCnt := rfl
@[simp] theorem clearTable_err (s : State) : (clearTable s).err = s.err := rfl
@[simp] theorem clearTable_esub (s : State) : (clearTable s).esub = s.esub := rfl
@[simp] theorem clearTable_einfo (s : State) : (clearTable s).einfo = s.einfo := rfl
@[simp] theorem clearTable_busy (s : State) : (clearTable s).busy = s.busy := rfl
@[simp] theorem clearTable_din (s : State) : (clearTable s).din = s.din := rfl
@[simp] theorem clearTable_cfg (s : State) : (clearTable s).cfg = s.cfg := rfl
@[simp] theorem clearTable_src (s : State) : (clearTable s).src = s.src := rfl
@[simp] theorem clearTable_upi (s : State) : (clearTable s).upi = s.upi := rfl
@[simp] theorem clearTable_pko (s : State) : (clearTable s).pko = s.pko := rfl
@[simp] theorem clearTable_dst (s : State) : (clearTable s).dst = s.dst := rfl
@[simp] theorem clearTable_host (s : State) : (clearTable s).host = s.host := rfl
@[simp] theorem clearTable_hostSaw (s : State) : (clearTable s).hostSaw = s.hostSaw := rfl
@[simp] theorem clearTable_draws (s : State) : (clearTable s).draws = s.draws := rfl

/-! ### `clearCodes` -/

@[simp] theorem clearCodes_ft (s : State) : (clearCodes s).ft = s.ft := by unfold clearCodes; rfl
@[simp] theorem clearCodes_node (s : State) : (clearCodes s).node = s.node := by unfold clearCodes; rfl
@[simp] theorem clearCodes_nn (s : State) : (clearCodes s).nn = s.nn := by unfold clearCodes; rfl
@[simp] theorem clearCodes_root (s : State) : (clearCodes s).root = s.root := by unfold clearCodes; rfl
@[simp] theorem clearCodes_heap (s : State) : (clearCodes s).heap = s.heap := by unfold clearCodes; rfl
@[simp] theorem clearCodes_hsize (s : State) : (clearCodes s).hsize = s.hsize := by unfold clearCodes; rfl
@[simp] theorem clearCodes_ct (s : State) : (clearCodes s).ct = emptyCodes s := by unfold clearCodes; rfl
@[simp] theorem clearCodes_tv (s : State) : (clearCodes s).tv = s.tv := by unfold clearCodes; rfl
@[simp] theorem clearCodes_cv (s : State) : (clearCodes s).cv = s.cv := by unfold clearCodes; rfl
@[simp] theorem clearCodes_cur (s : State) : (clearCodes s).cur = s.cur := by unfold clearCodes; rfl
@[simp] theorem clearCodes_pkAcc (s : State) : (clearCodes s).pkAcc = s.pkAcc := by unfold clearCodes; rfl
@[simp] theorem clearCodes_pkCnt (s : State) : (clearCodes s).pkCnt = s.pkCnt := by unfold clearCodes; rfl
@[simp] theorem clearCodes_upBuf (s : State) : (clearCodes s).upBuf = s.upBuf := by unfold clearCodes; rfl
@[simp] theorem clearCodes_upCnt (s : State) : (clearCodes s).upCnt = s.upCnt := by unfold clearCodes; rfl
@[simp] theorem clearCodes_err (s : State) : (clearCodes s).err = s.err := by unfold clearCodes; rfl
@[simp] theorem clearCodes_esub (s : State) : (clearCodes s).esub = s.esub := by unfold clearCodes; rfl
@[simp] theorem clearCodes_einfo (s : State) : (clearCodes s).einfo = s.einfo := by unfold clearCodes; rfl
@[simp] theorem clearCodes_busy (s : State) : (clearCodes s).busy = s.busy := by unfold clearCodes; rfl
@[simp] theorem clearCodes_din (s : State) : (clearCodes s).din = s.din := by unfold clearCodes; rfl
@[simp] theorem clearCodes_cfg (s : State) : (clearCodes s).cfg = s.cfg := by unfold clearCodes; rfl
@[simp] theorem clearCodes_src (s : State) : (clearCodes s).src = s.src := by unfold clearCodes; rfl
@[simp] theorem clearCodes_upi (s : State) : (clearCodes s).upi = s.upi := by unfold clearCodes; rfl
@[simp] theorem clearCodes_pko (s : State) : (clearCodes s).pko = s.pko := by unfold clearCodes; rfl
@[simp] theorem clearCodes_dst (s : State) : (clearCodes s).dst = s.dst := by unfold clearCodes; rfl
@[simp] theorem clearCodes_host (s : State) : (clearCodes s).host = s.host := by unfold clearCodes; rfl
@[simp] theorem clearCodes_hostSaw (s : State) : (clearCodes s).hostSaw = s.hostSaw := by unfold clearCodes; rfl
@[simp] theorem clearCodes_draws (s : State) : (clearCodes s).draws = s.draws := by unfold clearCodes; rfl

/-! ### `byteInSrc` -/

@[simp] theorem byteInSrc_ft (s : State) : (byteInSrc s).2.ft = s.ft := rfl
@[simp] theorem byteInSrc_node (s : State) : (byteInSrc s).2.node = s.node := rfl
@[simp] theorem byteInSrc_nn (s : State) : (byteInSrc s).2.nn = s.nn := rfl
@[simp] theorem byteInSrc_root (s : State) : (byteInSrc s).2.root = s.root := rfl
@[simp] theorem byteInSrc_heap (s : State) : (byteInSrc s).2.heap = s.heap := rfl
@[simp] theorem byteInSrc_hsize (s : State) : (byteInSrc s).2.hsize = s.hsize := rfl
@[simp] theorem byteInSrc_ct (s : State) : (byteInSrc s).2.ct = s.ct := rfl
@[simp] theorem byteInSrc_tv (s : State) : (byteInSrc s).2.tv = s.tv := rfl
@[simp] theorem byteInSrc_cv (s : State) : (byteInSrc s).2.cv = s.cv := rfl
@[simp] theorem byteInSrc_cur (s : State) : (byteInSrc s).2.cur = s.cur := rfl
@[simp] theorem byteInSrc_pkAcc (s : State) : (byteInSrc s).2.pkAcc = s.pkAcc := rfl
@[simp] theorem byteInSrc_pkCnt (s : State) : (byteInSrc s).2.pkCnt = s.pkCnt := rfl
@[simp] theorem byteInSrc_upBuf (s : State) : (byteInSrc s).2.upBuf = s.upBuf := rfl
@[simp] theorem byteInSrc_upCnt (s : State) : (byteInSrc s).2.upCnt = s.upCnt := rfl
@[simp] theorem byteInSrc_err (s : State) : (byteInSrc s).2.err = s.err := rfl
@[simp] theorem byteInSrc_esub (s : State) : (byteInSrc s).2.esub = s.esub := rfl
@[simp] theorem byteInSrc_einfo (s : State) : (byteInSrc s).2.einfo = s.einfo := rfl
@[simp] theorem byteInSrc_busy (s : State) : (byteInSrc s).2.busy = s.busy := rfl
@[simp] theorem byteInSrc_din (s : State) : (byteInSrc s).2.din = s.din := rfl
@[simp] theorem byteInSrc_cfg (s : State) : (byteInSrc s).2.cfg = s.cfg := rfl
@[simp] theorem byteInSrc_src (s : State) : (byteInSrc s).2.src = s.src.byteIn.2 := rfl
@[simp] theorem byteInSrc_upi (s : State) : (byteInSrc s).2.upi = s.upi := rfl
@[simp] theorem byteInSrc_pko (s : State) : (byteInSrc s).2.pko = s.pko := rfl
@[simp] theorem byteInSrc_dst (s : State) : (byteInSrc s).2.dst = s.dst := rfl
@[simp] theorem byteInSrc_host (s : State) : (byteInSrc s).2.host = s.host := rfl
@[simp] theorem byteInSrc_hostSaw (s : State) : (byteInSrc s).2.hostSaw = s.hostSaw := rfl
@[simp] theorem byteInSrc_draws (s : State) : (byteInSrc s).2.draws = s.draws := rfl

/-! ### `byteInUpi` -/

@[simp] theorem byteInUpi_ft (s : State) : (byteInUpi s).2.ft = s.ft := rfl
@[simp] theorem byteInUpi_node (s : State) : (byteInUpi s).2.node = s.node := rfl
@[simp] theorem byteInUpi_nn (s : State) : (byteInUpi s).2.nn = s.nn := rfl
@[simp] theorem byteInUpi_root (s : State) : (byteInUpi s).2.root = s.root := rfl
@[simp] theorem byteInUpi_heap (s : State) : (byteInUpi s).2.heap = s.heap := rfl
@[simp] theorem byteInUpi_hsize (s : State) : (byteInUpi s).2.hsize = s.hsize := rfl
@[simp] theorem byteInUpi_ct (s : State) : (byteInUpi s).2.ct = s.ct := rfl
@[simp] theorem byteInUpi_tv (s : State) : (byteInUpi s).2.tv = s.tv := rfl
@[simp] theorem byteInUpi_cv (s : State) : (byteInUpi s).2.cv = s.cv := rfl
@[simp] theorem byteInUpi_cur (s : State) : (byteInUpi s).2.cur = s.cur := rfl
@[simp] theorem byteInUpi_pkAcc (s : State) : (byteInUpi s).2.pkAcc = s.pkAcc := rfl
@[simp] theorem byteInUpi_pkCnt (s : State) : (byteInUpi s).2.pkCnt = s.pkCnt := rfl
@[simp] theorem byteInUpi_upBuf (s : State) : (byteInUpi s).2.upBuf = s.upBuf := rfl
@[simp] theorem byteInUpi_upCnt (s : State) : (byteInUpi s).2.upCnt = s.upCnt := rfl
@[simp] theorem byteInUpi_err (s : State) : (byteInUpi s).2.err = s.err := rfl
@[simp] theorem byteInUpi_esub (s : State) : (byteInUpi s).2.esub = s.esub := rfl
@[simp] theorem byteInUpi_einfo (s : State) : (byteInUpi s).2.einfo = s.einfo := rfl
@[simp] theorem byteInUpi_busy (s : State) : (byteInUpi s).2.busy = s.busy := rfl
@[simp] theorem byteInUpi_din (s : State) : (byteInUpi s).2.din = s.din := rfl
@[simp] theorem byteInUpi_cfg (s : State) : (byteInUpi s).2.cfg = s.cfg := rfl
@[simp] theorem byteInUpi_src (s : State) : (byteInUpi s).2.src = s.src := rfl
@[simp] theorem byteInUpi_upi (s : State) : (byteInUpi s).2.upi = s.upi.byteIn.2 := rfl
@[simp] theorem byteInUpi_pko (s : State) : (byteInUpi s).2.pko = s.pko := rfl
@[simp] theorem byteInUpi_dst (s : State) : (byteInUpi s).2.dst = s.dst := rfl
@[simp] theorem byteInUpi_host (s : State) : (byteInUpi s).2.host = s.host := rfl
@[simp] theorem byteInUpi_hostSaw (s : State) : (byteInUpi s).2.hostSaw = s.hostSaw := rfl
@[simp] theorem byteInUpi_draws (s : State) : (byteInUpi s).2.draws = s.draws := rfl

/-! ### `byteOutPko` -/

@[simp] theorem byteOutPko_ft (s : State) (v : Byte) : (byteOutPko v s).2.ft = s.ft := rfl
@[simp] theorem byteOutPko_node (s : State) (v : Byte) : (byteOutPko v s).2.node = s.node := rfl
@[simp] theorem byteOutPko_nn (s : State) (v : Byte) : (byteOutPko v s).2.nn = s.nn := rfl
@[simp] theorem byteOutPko_root (s : State) (v : Byte) : (byteOutPko v s).2.root = s.root := rfl
@[simp] theorem byteOutPko_heap (s : State) (v : Byte) : (byteOutPko v s).2.heap = s.heap := rfl
@[simp] theorem byteOutPko_hsize (s : State) (v : Byte) : (byteOutPko v s).2.hsize = s.hsize := rfl
@[simp] theorem byteOutPko_ct (s : State) (v : Byte) : (byteOutPko v s).2.ct = s.ct := rfl
@[simp] theorem byteOutPko_tv (s : State) (v : Byte) : (byteOutPko v s).2.tv = s.tv := rfl
@[simp] theorem byteOutPko_cv (s : State) (v : Byte) : (byteOutPko v s).2.cv = s.cv := rfl
@[simp] theorem byteOutPko_cur (s : State) (v : Byte) : (byteOutPko v s).2.cur = s.cur := rfl
@[simp] theorem byteOutPko_pkAcc (s : State) (v : Byte) : (byteOutPko v s).2.pkAcc = s.pkAcc := rfl
@[simp] theorem byteOutPko_pkCnt (s : State) (v : Byte) : (byteOutPko v s).2.pkCnt = s.pkCnt := rfl
@[simp] theorem byteOutPko_upBuf (s : State) (v : Byte) : (byteOutPko v s).2.upBuf = s.upBuf := rfl
@[simp] theorem byteOutPko_upCnt (s : State) (v : Byte) : (byteOutPko v s).2.upCnt = s.upCnt := rfl
@[simp] theorem byteOutPko_err (s : State) (v : Byte) : (byteOutPko v s).2.err = s.err := rfl
@[simp] theorem byteOutPko_esub (s : State) (v : Byte) : (byteOutPko v s).2.esub = s.esub := rfl
@[simp] theorem byteOutPko_einfo (s : State) (v : Byte) : (byteOutPko v s).2.einfo = s.einfo := rfl
@[simp] theorem byteOutPko_busy (s : State) (v : Byte) : (byteOutPko v s).2.busy = s.busy := rfl
@[simp] theorem byteOutPko_din (s : State) (v : Byte) : (byteOutPko v s).2.din = s.din := rfl
@[simp] theorem byteOutPko_cfg (s : State) (v : Byte) : (byteOutPko v s).2.cfg = s.cfg := rfl
@[simp] theorem byteOutPko_src (s : State) (v : Byte) : (byteOutPko v s).2.src = s.src := rfl
@[simp] theorem byteOutPko_upi (s : State) (v : Byte) : (byteOutPko v s).2.upi = s.upi := rfl
@[simp] theorem byteOutPko_pko (s : State) (v : Byte) : (byteOutPko v s).2.pko = (s.pko.byteOut v).2 := rfl
@[simp] theorem byteOutPko_dst (s : State) (v : Byte) : (byteOutPko v s).2.dst = s.dst := rfl
@[simp] theorem byteOutPko_host (s : State) (v : Byte) : (byteOutPko v s).2.host = s.host := rfl
@[simp] theorem byteOutPko_hostSaw (s : State) (v : Byte) : (byteOutPko v s).2.hostSaw = s.hostSaw := rfl
@[simp] theorem byteOutPko_draws (s : State) (v : Byte) : (byteOutPko v s).2.draws = s.draws := rfl

/-! ### `byteOutDst` -/

@[simp] theorem byteOutDst_ft (s : State) (v : Byte) : (byteOutDst v s).2.ft = s.ft := rfl
@[simp] theorem byteOutDst_node (s : State) (v : Byte) : (byteOutDst v s).2.node = s.node := rfl
@[simp] theorem byteOutDst_nn (s : State) (v : Byte) : (byteOutDst v s).2.nn = s.nn := rfl
@[simp] theorem byteOutDst_root (s : State) (v : Byte) : (byteOutDst v s).2.root = s.root := rfl
@[simp] theorem byteOutDst_heap (s : State) (v : Byte) : (byteOutDst v s).2.heap = s.heap := rfl
@[simp] theorem byteOutDst_hsize (s : State) (v : Byte) : (byteOutDst v s).2.hsize = s.hsize := rfl
@[simp] theorem byteOutDst_ct (s : State) (v : Byte) : (byteOutDst v s).2.ct = s.ct := rfl
@[simp] theorem byteOutDst_tv (s : State) (v : Byte) : (byteOutDst v s).2.tv = s.tv := rfl
@[simp] theorem byteOutDst_cv (s : State) (v : Byte) : (byteOutDst v s).2.cv = s.cv := rfl
@[simp] theorem byteOutDst_cur (s : State) (v : Byte) : (byteOutDst v s).2.cur = s.cur := rfl
@[simp] theorem byteOutDst_pkAcc (s : State) (v : Byte) : (byteOutDst v s).2.pkAcc = s.pkAcc := rfl
@[simp] theorem byteOutDst_pkCnt (s : State) (v : Byte) : (byteOutDst v s).2.pkCnt = s.pkCnt := rfl
@[simp] theorem byteOutDst_upBuf (s : State) (v : Byte) : (byteOutDst v s).2.upBuf = s.upBuf := rfl
@[simp] theorem byteOutDst_upCnt (s : State) (v : Byte) : (byteOutDst v s).2.upCnt = s.upCnt := rfl
@[simp] theorem byteOutDst_err (s : State) (v : Byte) : (byteOutDst v s).2.err = s.err := rfl
@[simp] theorem byteOutDst_esub (s : State) (v : Byte) : (byteOutDst v s).2.esub = s.esub := rfl
@[simp] theorem byteOutDst_einfo (s : State) (v : Byte) : (byteOutDst v s).2.einfo = s.einfo := rfl
@[simp] theorem byteOutDst_busy (s : State) (v : Byte) : (byteOutDst v s).2.busy = s.busy := rfl
@[simp] theorem byteOutDst_din (s : State) (v : Byte) : (byteOutDst v s).2.din = s.din := rfl
@[simp] theorem byteOutDst_cfg (s : State) (v : Byte) : (byteOutDst v s).2.cfg = s.cfg := rfl
@[simp] theorem byteOutDst_src (s : State) (v : Byte) : (byteOutDst v s).2.src = s.src := rfl
@[simp] theorem byteOutDst_upi (s : State) (v : Byte) : (byteOutDst v s).2.upi = s.upi := rfl
@[simp] theorem byteOutDst_pko (s : State) (v : Byte) : (byteOutDst v s).2.pko = s.pko := rfl
@[simp] theorem byteOutDst_dst (s : State) (v : Byte) : (byteOutDst v s).2.dst = (s.dst.byteOut v).2 := rfl
@[simp] theorem byteOutDst_host (s : State) (v : Byte) : (byteOutDst v s).2.host = s.host := rfl
@[simp] theorem byteOutDst_hostSaw (s : State) (v : Byte) : (byteOutDst v s).2.hostSaw = s.hostSaw := rfl
@[simp] theorem byteOutDst_draws (s : State) (v : Byte) : (byteOutDst v s).2.draws = s.draws := rfl

/-! ### `hostNext` -/

@[simp] theorem hostNext_ft (s : State) (a : HostAction) : (s.hostNext a).ft = s.ft := rfl
@[simp] theorem hostNext_node (s : State) (a : HostAction) : (s.hostNext a).node = s.node := rfl
@[simp] theorem hostNext_nn (s : State) (a : HostAction) : (s.hostNext a).nn = s.nn := rfl
@[simp] theorem hostNext_root (s : State) (a : HostAction) : (s.hostNext a).root = s.root := rfl
@[simp] theorem hostNext_heap (s : State) (a : HostAction) : (s.hostNext a).heap = s.heap := rfl
@[simp] theorem hostNext_hsize (s : State) (a : HostAction) : (s.hostNext a).hsize = s.hsize := rfl
@[simp] theorem hostNext_ct (s : State) (a : HostAction) : (s.hostNext a).ct = s.ct := rfl
@[simp] theorem hostNext_tv (s : State) (a : HostAction) : (s.hostNext a).tv = s.tv := rfl
@[simp] theorem hostNext_cv (s : State) (a : HostAction) : (s.hostNext a).cv = s.cv := rfl
@[simp] theorem hostNext_cur (s : State) (a : HostAction) : (s.hostNext a).cur = s.cur := rfl
@[simp] theorem hostNext_pkAcc (s : State) (a : HostAction) : (s.hostNext a).pkAcc = s.pkAcc := rfl
@[simp] theorem hostNext_pkCnt (s : State) (a : HostAction) : (s.hostNext a).pkCnt = s.pkCnt := rfl
@[simp] theorem hostNext_upBuf (s : State) (a : HostAction) : (s.hostNext a).upBuf = s.upBuf := rfl
@[simp] theorem hostNext_upCnt (s : State) (a : HostAction) : (s.hostNext a).upCnt = s.upCnt := rfl
@[simp] theorem hostNext_err (s : State) (a : HostAction) : (s.hostNext a).err = s.err := rfl
@[simp] theorem hostNext_esub (s : State) (a : HostAction) : (s.hostNext a).esub = s.esub := rfl
@[simp] theorem hostNext_einfo (s : State) (a : HostAction) : (s.hostNext a).einfo = s.einfo := rfl
@[simp] theorem hostNext_busy (s : State) (a : HostAction) : (s.hostNext a).busy = s.busy := rfl
@[simp] theorem hostNext_din (s : State) (a : HostAction) : (s.hostNext a).din = s.din := rfl
@[simp] theorem hostNext_cfg (s : State) (a : HostAction) : (s.hostNext a).cfg = s.cfg := rfl
@[simp] theorem hostNext_src (s : State) (a : HostAction) : (s.hostNext a).src = s.src := rfl
@[simp] theorem hostNext_upi (s : State) (a : HostAction) : (s.hostNext a).upi = s.upi := rfl
@[simp] theorem hostNext_pko (s : State) (a : HostAction) : (s.hostNext a).pko = s.pko := rfl
@[simp] theorem hostNext_dst (s : State) (a : HostAction) : (s.hostNext a).dst = s.dst := rfl
@[simp] theorem hostNext_host (s : State) (a : HostAction) : (s.hostNext a).host = a :: s.host := rfl
@[simp] theorem hostNext_hostSaw (s : State) (a : HostAction) : (s.hostNext a).hostSaw = s.hostSaw := rfl
@[simp] theorem hostNext_draws (s : State) (a : HostAction) : (s.hostNext a).draws = s.draws := rfl

/-! ### `resetEngine` -/

@[simp] theorem resetEngine_ft (s : State) : (resetEngine s).ft = Vector.replicate 257 0 := rfl
@[simp] theorem resetEngine_node (s : State) : (resetEngine s).node = freeNodes s.draw := rfl
@[simp] theorem resetEngine_nn (s : State) : (resetEngine s).nn = 0 := rfl
@[simp] theorem resetEngine_root (s : State) : (resetEngine s).root = 0 := rfl
@[simp] theorem resetEngine_heap (s : State) : (resetEngine s).heap = freeHeap s.draw := rfl
@[simp] theorem resetEngine_hsize (s : State) : (resetEngine s).hsize = 0 := rfl
@[simp] theorem resetEngine_ct (s : State) : (resetEngine s).ct = freeCodes s.draw := rfl
@[simp] theorem resetEngine_tv (s : State) : (resetEngine s).tv = false := rfl
@[simp] theorem resetEngine_cv (s : State) : (resetEngine s).cv = false := rfl
@[simp] theorem resetEngine_cur (s : State) : (resetEngine s).cur = 0 := rfl
@[simp] theorem resetEngine_pkAcc (s : State) : (resetEngine s).pkAcc = 0 := rfl
@[simp] theorem resetEngine_pkCnt (s : State) : (resetEngine s).pkCnt = 0 := rfl
@[simp] theorem resetEngine_upBuf (s : State) : (resetEngine s).upBuf = 0 := rfl
@[simp] theorem resetEngine_upCnt (s : State) : (resetEngine s).upCnt = 0 := rfl
@[simp] theorem resetEngine_err (s : State) : (resetEngine s).err = 0 := rfl
@[simp] theorem resetEngine_esub (s : State) : (resetEngine s).esub = 0 := rfl
@[simp] theorem resetEngine_einfo (s : State) : (resetEngine s).einfo = 0 := rfl
@[simp] theorem resetEngine_busy (s : State) : (resetEngine s).busy = false := rfl
@[simp] theorem resetEngine_din (s : State) : (resetEngine s).din = 0 := rfl
@[simp] theorem resetEngine_cfg (s : State) : (resetEngine s).cfg = s.cfg := rfl
@[simp] theorem resetEngine_src (s : State) : (resetEngine s).src = s.src := rfl
@[simp] theorem resetEngine_upi (s : State) : (resetEngine s).upi = s.upi := rfl
@[simp] theorem resetEngine_pko (s : State) : (resetEngine s).pko = s.pko := rfl
@[simp] theorem resetEngine_dst (s : State) : (resetEngine s).dst = s.dst := rfl
@[simp] theorem resetEngine_host (s : State) : (resetEngine s).host = s.host := rfl
@[simp] theorem resetEngine_hostSaw (s : State) : (resetEngine s).hostSaw = s.hostSaw := rfl
@[simp] theorem resetEngine_draws (s : State) : (resetEngine s).draws = s.draws + 1 := rfl

end Sys2Proof.Machine
end

