-- ==== Sys2Proof/Laws/Bits.lean ====
section
/-! SUPPORT. Bit sequences of bit vectors (00_scope.md R9). -/

namespace Sys2Proof.Machine

@[simp] theorem bitsOf_length {n : Nat} (v : BitVec n) : (bitsOf v).length = n := by simp [bitsOf]

theorem bitsOf_getElem {n : Nat} (v : BitVec n) (i : Nat) (h : i < (bitsOf v).length) :
    (bitsOf v)[i] = v.getLsbD (n - 1 - i) := by
  simp only [bitsOf_length] at h
  simp [bitsOf, BitVec.getMsbD_eq_getLsbD, h]

/-- Shifting a bit in at the low end drops the first bit and appends the new one. -/
theorem bitsOf_shiftConcat {n : Nat} (v : BitVec n) (b : Bool) :
    bitsOf (v.shiftConcat b) = (bitsOf v ++ [b]).drop 1 := by
  apply List.ext_getElem
  · simp
  · intro i h1 h2
    simp only [bitsOf_length] at h1
    rw [bitsOf_getElem, List.getElem_drop, List.getElem_append, BitVec.getLsbD_shiftConcat]
    by_cases h : 1 + i < n
    · have e : n - 1 - i ≠ 0 := by omega
      have e' : n - 1 - (1 + i) = n - 1 - i - 1 := by omega
      have e2 : n - 1 - i < n := by omega
      rw [dif_pos (by simpa using h), bitsOf_getElem, e']
      simp [e, e2]
    · have e : n - 1 - i = 0 := by omega
      rw [dif_neg (by simpa using h)]
      simp [e]; omega

theorem bitsOf_shiftLeft_one {n : Nat} (v : BitVec n) :
    bitsOf (v <<< 1) = (bitsOf v ++ [false]).drop 1 := by
  rw [← bitsOf_shiftConcat]; congr 1
  apply BitVec.eq_of_getLsbD_eq
  intro i hi
  rw [BitVec.getLsbD_shiftLeft, BitVec.getLsbD_shiftConcat]
  by_cases h : i = 0 <;> simp [h] 

theorem bitsOf_shiftLeft {n : Nat} (v : BitVec n) (k : Nat) :
    bitsOf (v <<< k) = (bitsOf v ++ List.replicate k false).drop k := by
  induction k generalizing v with
  | zero => simp
  | succ k ih =>
    rw [show v <<< (k+1) = (v <<< k) <<< 1 by rw [BitVec.shiftLeft_add], bitsOf_shiftLeft_one, ih]
    rw [List.replicate_succ', ← List.append_assoc, List.drop_append (l₁ := List.drop k _), List.drop_drop]
    rw [List.drop_append (l₁ := bitsOf v ++ _)]
    rw [Nat.add_comm k 1]
    congr 2; simp; omega

/-- A bit sequence read first bit most significant, `bits_n` undone. -/
theorem bitsOf_injective {n : Nat} {v w : BitVec n} (h : bitsOf v = bitsOf w) : v = w := by
  apply BitVec.eq_of_getMsbD_eq
  intro i hi
  have := congrArg (fun l => l[i]?) h
  simpa [bitsOf, List.getElem?_map, List.getElem?_range, hi] using this

end Sys2Proof.Machine
end

