-- ==== Sys2Proof/Laws/Packer.lean ====
section
/-! SUPPORT. The output ports and the bit packer (20_memory.md R62, R66 to R69). -/

namespace Sys2Proof.Machine

/-! ## Ports -/

theorem byteOut_ok {p : OutPort} (v : Byte) (h : p.oracle.headD false = false) :
    p.byteOut v = (.done, { data := p.data ++ [v], oracle := p.oracle.tail }) := by
  simp only [OutPort.byteOut, h, Bool.false_eq_true, if_false]

theorem byteOut_fail {p : OutPort} (v : Byte) (h : p.oracle.headD false = true) :
    p.byteOut v = (.ioFail, { data := p.data, oracle := p.oracle.tail }) := by
  simp only [OutPort.byteOut, h, if_true]

/-- Everything `ByteOut` can do. -/
theorem byteOut_cases (p : OutPort) (v : Byte) :
    (p.oracle.headD false = false ∧
      p.byteOut v = (.done, { data := p.data ++ [v], oracle := p.oracle.tail })) ∨
    (p.oracle.headD false = true ∧
      p.byteOut v = (.ioFail, { data := p.data, oracle := p.oracle.tail })) := by
  cases h : p.oracle.headD false
  · exact .inl ⟨rfl, byteOut_ok v h⟩
  · exact .inr ⟨rfl, byteOut_fail v h⟩

theorem noFail_take_head {o : List Bool} {n : Nat} (h : NoFail (o.take (n + 1))) :
    o.headD false = false := by
  cases o with
  | nil => rfl
  | cons a o => exact h a (by simp)

theorem noFail_take_tail {o : List Bool} {n : Nat} (h : NoFail (o.take (n + 1))) :
    NoFail (o.tail.take n) := by
  cases o with
  | nil => simp
  | cons a o => intro b hb; exact h b (by rw [List.take_succ_cons]; exact List.mem_cons_of_mem _ hb)

theorem noFail_head {o : List Bool} (h : NoFail o) : o.headD false = false := by
  cases o with
  | nil => rfl
  | cons b r => exact h b (by simp)

theorem noFail_tail {o : List Bool} (h : NoFail o) : NoFail o.tail :=
  fun b hb => h b (List.mem_of_mem_tail hb)

theorem noFail_drop {o : List Bool} (n : Nat) (h : NoFail o) : NoFail (o.drop n) :=
  fun b hb => h b (List.mem_of_mem_drop hb)

/-! ## The packer -/

@[simp] theorem streamBits_append (a b : List Byte) :
    streamBits (a ++ b) = streamBits a ++ streamBits b := by simp [streamBits]

@[simp] theorem streamBits_cons (v : Byte) (l : List Byte) :
    streamBits (v :: l) = bitsOf v ++ streamBits l := by simp [streamBits]

@[simp] theorem streamBits_nil : streamBits [] = [] := rfl

theorem streamBits_length (l : List Byte) : (streamBits l).length = 8 * l.length := by
  induction l with
  | nil => rfl
  | cons v l ih => simp [ih]; omega

theorem pending_length (s : State) : (pending s).length = s.pkCnt.toNat := by
  have := s.pkCnt.isLt
  simp [pending]; omega

/-- Only the packer and `PKO` may differ. -/
def PackerOnly (s t : State) : Prop :=
  t = { s with pkAcc := t.pkAcc, pkCnt := t.pkCnt, pko := t.pko }

theorem PackerOnly.rfl' (s : State) : PackerOnly s s := rfl

theorem PackerOnly.trans' {s t u : State} (h : PackerOnly s t) (k : PackerOnly t u) :
    PackerOnly s u := by
  unfold PackerOnly at *; rw [h] at k; exact k

/-- Everything `WriteBit` can do. -/
theorem writeBit_cases (b : Bool) (s : State) :
    (s.pkCnt ≠ 7 ∧ writeBit b s = .ok () { s with pkAcc := s.pkAcc.shiftConcat b, pkCnt := s.pkCnt + 1 }) ∨
    (s.pkCnt = 7 ∧ s.pko.oracle.headD false = false ∧
      writeBit b s = .ok () { s with
        pkAcc := 0, pkCnt := 0,
        pko := { data := s.pko.data ++ [s.pkAcc.shiftConcat b], oracle := s.pko.oracle.tail } }) ∨
    (s.pkCnt = 7 ∧ s.pko.oracle.headD false = true ∧
      writeBit b s = .raised { s with
        pkAcc := 0, pkCnt := 0, err := 3, esub := 3, einfo := 0, busy := false,
        pko := { data := s.pko.data, oracle := s.pko.oracle.tail } }) := by
  by_cases h : s.pkCnt = 7
  · rcases byteOut_cases s.pko (s.pkAcc.shiftConcat b) with ⟨ho, hb⟩ | ⟨ho, hb⟩
    · refine .inr (.inl ⟨h, ho, ?_⟩)
      simp [writeBit, h, byteOutPko, hb, emptyPacker]
    · refine .inr (.inr ⟨h, ho, ?_⟩)
      simp [writeBit, h, byteOutPko, hb, emptyPacker, raiseError, flushIgnoring, ErrClass.code]
  · exact .inl ⟨h, if_neg h⟩

/-- A bit written is the newest bit of the stream; nothing but the packer and `PKO` changes. -/
theorem writeBit_ok {b : Bool} {s t : State} (h : writeBit b s = .ok () t) :
    written t = written s ++ [b] ∧ PackerOnly s t ∧ (∃ n, t.pko.oracle = s.pko.oracle.drop n) := by
  have hc := s.pkCnt.isLt
  rcases writeBit_cases b s with ⟨h7, e⟩ | ⟨h7, ho, e⟩ | ⟨h7, ho, e⟩ <;> rw [h] at e <;> cases e
  · refine ⟨?_, rfl, 0, rfl⟩
    have : (s.pkCnt + 1).toNat = s.pkCnt.toNat + 1 := by
      have : s.pkCnt.toNat ≠ 7 := fun e => h7 (BitVec.eq_of_toNat_eq e)
      simp [BitVec.toNat_add]; omega
    simp only [written, pending, bitsOf_shiftConcat, this, List.append_assoc, List.drop_drop]
    congr 1
    rw [show 1 + (8 - (s.pkCnt.toNat + 1)) = 8 - s.pkCnt.toNat by omega, List.drop_append_of_le_length (by simp)]
  · refine ⟨?_, rfl, 1, by simp⟩
    simp only [written, pending, streamBits_append, streamBits_cons, bitsOf_shiftConcat, h7, streamBits_nil]
    rw [List.drop_append_of_le_length (by simp)]
    simp

theorem writeBit_progress {b : Bool} {s : State} (h : NoFail s.pko.oracle) :
    ∃ t, writeBit b s = .ok () t := by
  rcases writeBit_cases b s with ⟨_, e⟩ | ⟨_, _, e⟩ | ⟨_, ho, _⟩
  · exact ⟨_, e⟩
  · exact ⟨_, e⟩
  · rw [noFail_head h] at ho; cases ho

theorem Res.andThen_ok {α β : Type} {r : Res α} {k : α → State → Res β} {b : β} {t : State}
    (h : r.andThen k = .ok b t) : ∃ a u, r = .ok a u ∧ k a u = .ok b t := by
  cases r with
  | ok a u => exact ⟨a, u, rfl, h⟩
  | raised u => cases h
  | stop f => cases h

theorem Res.andThen_raised {α β : Type} {r : Res α} {k : α → State → Res β} {t : State}
    (h : r.andThen k = .raised t) :
    r = .raised t ∨ ∃ a u, r = .ok a u ∧ k a u = .raised t := by
  cases r with
  | ok a u => exact .inr ⟨a, u, rfl, h⟩
  | raised u => cases h; exact .inl rfl
  | stop f => cases h

theorem Res.andThen_stop {α β : Type} {r : Res α} {k : α → State → Res β} {f : Fault}
    (h : r.andThen k = .stop f) :
    r = .stop f ∨ ∃ a u, r = .ok a u ∧ k a u = .stop f := by
  cases r with
  | ok a u => exact .inr ⟨a, u, rfl, h⟩
  | raised u => cases h
  | stop g => cases h; exact .inl rfl

@[simp] theorem Res.ok_andThen {α β : Type} (a : α) (s : State) (k : α → State → Res β) :
    (Res.ok a s).andThen k = k a s := rfl

@[simp] theorem Res.raised_andThen {α β : Type} (s : State) (k : α → State → Res β) :
    (Res.raised s : Res α).andThen k = .raised s := rfl

@[simp] theorem Res.stop_andThen {α β : Type} (f : Fault) (k : α → State → Res β) :
    (Res.stop f : Res α).andThen k = .stop f := rfl

/-- The bits of a sequence are written in order; nothing but the packer and `PKO` changes. -/
theorem writeSeq_ok {q : List Bool} {s t : State} (h : writeSeq q s = .ok () t) :
    written t = written s ++ q ∧ PackerOnly s t ∧ (∃ n, t.pko.oracle = s.pko.oracle.drop n) := by
  induction q generalizing s with
  | nil => cases h; exact ⟨by simp, rfl, 0, rfl⟩
  | cons b q ih =>
    obtain ⟨_, u, hu, hk⟩ := Res.andThen_ok h
    obtain ⟨w1, p1, n1, o1⟩ := writeBit_ok hu
    obtain ⟨w2, p2, n2, o2⟩ := ih hk
    exact ⟨by rw [w2, w1]; simp, p1.trans' p2, n1 + n2, by rw [o2, o1, List.drop_drop]⟩

theorem writeSeq_progress {q : List Bool} {s : State} (h : NoFail s.pko.oracle) :
    ∃ t, writeSeq q s = .ok () t := by
  induction q generalizing s with
  | nil => exact ⟨s, rfl⟩
  | cons b q ih =>
    obtain ⟨u, hu⟩ := writeBit_progress (b := b) h
    obtain ⟨_, _, n, o⟩ := writeBit_ok hu
    obtain ⟨t, ht⟩ := ih (s := u) (by rw [o]; exact noFail_drop n h)
    exact ⟨t, by simp [writeSeq, hu, ht]⟩

theorem writeSeq_append (p q : List Bool) (s : State) :
    writeSeq (p ++ q) s = (writeSeq p s).andThen fun _ t => writeSeq q t := by
  induction p generalizing s with
  | nil => rfl
  | cons b p ih =>
    simp only [List.cons_append, writeSeq]
    cases writeBit b s <;> simp [ih]

/-- Everything `Flush` can do. -/
theorem flush_cases (s : State) :
    (s.pkCnt = 0 ∧ flush s = .ok () s) ∨
    (s.pkCnt ≠ 0 ∧ s.pko.oracle.headD false = false ∧
      flush s = .ok () { s with
        pkAcc := 0, pkCnt := 0,
        pko := { data := s.pko.data ++ [paddedByte s], oracle := s.pko.oracle.tail } }) ∨
    (s.pkCnt ≠ 0 ∧ s.pko.oracle.headD false = true ∧
      flush s = .raised { s with
        pkAcc := 0, pkCnt := 0, err := 3, esub := 3, einfo := 0, busy := false,
        pko := { data := s.pko.data, oracle := s.pko.oracle.tail } }) := by
  by_cases h : s.pkCnt = 0
  · exact .inl ⟨h, if_pos h⟩
  · rcases byteOut_cases s.pko (paddedByte s) with ⟨ho, hb⟩ | ⟨ho, hb⟩
    · refine .inr (.inl ⟨h, ho, ?_⟩)
      rw [flush, if_neg h]; simp [byteOutPko, hb, emptyPacker]
    · refine .inr (.inr ⟨h, ho, ?_⟩)
      rw [flush, if_neg h]
      simp [byteOutPko, hb, emptyPacker, raiseError, flushIgnoring, ErrClass.code]

/-- The padded byte is the pending bits, then zeros. -/
theorem bitsOf_paddedByte (s : State) :
    bitsOf (paddedByte s) = pending s ++ List.replicate (8 - s.pkCnt.toNat) false := by
  have := s.pkCnt.isLt
  rw [paddedByte, bitsOf_shiftLeft, pending, List.drop_append_of_le_length (by simp)]

theorem pending_of_empty {s : State} (h : s.pkCnt = 0) : pending s = [] := by simp [pending, h]

/-- After a flush the stream is the bits written and the padding, on a byte boundary. -/
theorem flush_ok {s t : State} (h : flush s = .ok () t) :
    streamBits t.pko.data = written s ++ padding (written s).length ∧ t.pkCnt = 0 ∧
      pending t = [] ∧ PackerOnly s t ∧ (∃ n, t.pko.oracle = s.pko.oracle.drop n) := by
  have hl : (written s).length = 8 * s.pko.data.length + s.pkCnt.toNat := by
    simp [written, streamBits_length, pending_length]
  have hc := s.pkCnt.isLt
  rcases flush_cases s with ⟨h0, e⟩ | ⟨h0, ho, e⟩ | ⟨h0, ho, e⟩ <;> rw [h] at e <;> cases e
  · refine ⟨?_, h0, pending_of_empty h0, rfl, 0, rfl⟩
    rw [padding, hl, h0, written, pending_of_empty h0]
    simp
  · refine ⟨?_, rfl, by simp [pending], rfl, 1, by simp⟩
    have h0' : s.pkCnt.toNat ≠ 0 := fun e => h0 (BitVec.eq_of_toNat_eq e)
    rw [padding, hl, show (8 - (8 * s.pko.data.length + s.pkCnt.toNat) % 8) % 8 = 8 - s.pkCnt.toNat by omega]
    simp [written, bitsOf_paddedByte]

theorem flush_progress {s : State} (h : NoFail s.pko.oracle) : ∃ t, flush s = .ok () t := by
  rcases flush_cases s with ⟨_, e⟩ | ⟨_, _, e⟩ | ⟨_, ho, _⟩
  · exact ⟨_, e⟩
  · exact ⟨_, e⟩
  · rw [noFail_head h] at ho; cases ho
end Sys2Proof.Machine
end

