-- ==== Sys2Proof/Laws/Unpacker.lean ====
section
/-! SUPPORT. The input ports and the bit unpacker (20_memory.md R61, R70 to R74). -/

namespace Sys2Proof.Machine

/-- Everything `ByteIn` can do. -/
theorem byteIn_cases (p : InPort) :
    (p.oracle.headD false = true ∧ p.byteIn = (.ioFail, { p with oracle := p.oracle.tail })) ∨
    (p.oracle.headD false = false ∧ p.rest = [] ∧
      p.byteIn = (.endOfStream, { p with oracle := p.oracle.tail })) ∨
    (p.oracle.headD false = false ∧ ∃ v r, p.rest = v :: r ∧
      p.byteIn = (.byte v, { p with oracle := p.oracle.tail, pos := p.pos + 1 }) ∧
      p.data.drop (p.pos + 1) = r) := by
  cases h : p.oracle.headD false
  · right
    cases hd : p.data[p.pos]? with
    | none =>
      left
      refine ⟨rfl, ?_, ?_⟩
      · rw [List.getElem?_eq_none_iff] at hd; simp [InPort.rest, hd]
      · simp only [InPort.byteIn, h, Bool.false_eq_true, if_false, hd]
    | some v =>
      right
      obtain ⟨hl, hv⟩ := List.getElem?_eq_some_iff.mp hd
      refine ⟨rfl, v, _, ?_, ?_, rfl⟩
      · rw [InPort.rest, List.drop_eq_getElem_cons hl, hv]
      · simp only [InPort.byteIn, h, Bool.false_eq_true, if_false, hd]
  · left; exact ⟨rfl, by simp only [InPort.byteIn, h, if_true]⟩

/-- Only the unpacker and `UPI` may differ. -/
def UnpackerOnly (s t : State) : Prop :=
  t = { s with upBuf := t.upBuf, upCnt := t.upCnt, upi := t.upi }

theorem UnpackerOnly.trans' {s t u : State} (h : UnpackerOnly s t) (k : UnpackerOnly t u) :
    UnpackerOnly s u := by
  unfold UnpackerOnly at *; rw [h] at k; exact k

theorem buffered_length {s : State} (h : s.upCnt.toNat ≤ 8) : (buffered s).length = s.upCnt.toNat := by
  simp [buffered, h]

theorem takeBit_eq {s : State} (h0 : s.upCnt ≠ 0) (h8 : s.upCnt.toNat ≤ 8) :
    ∃ b t, takeBit s = .ok (some b) t ∧ unread s = b :: unread t ∧ t.upCnt.toNat + 1 = s.upCnt.toNat ∧
      t = { s with upBuf := t.upBuf, upCnt := t.upCnt } := by
  have h0' : s.upCnt.toNat ≠ 0 := fun e => h0 (BitVec.eq_of_toNat_eq e)
  have hc := s.upCnt.isLt
  have hm : (s.upCnt - 1).toNat = s.upCnt.toNat - 1 := by
    simp [BitVec.toNat_sub]; omega
  refine ⟨_, _, rfl, ?_, by rw [hm]; omega, rfl⟩
  simp only [unread, buffered, hm, bitsOf_shiftLeft_one]
  rw [← List.cons_append]
  congr 1
  have hl : (bitsOf s.upBuf).length = 8 := bitsOf_length _
  have hhead : s.upBuf.msb = (bitsOf s.upBuf).headD false := by
    rw [BitVec.msb_eq_getLsbD_last, List.headD_eq_head?_getD, List.head?_eq_getElem?, List.getElem?_eq_getElem (by simp),
      bitsOf_getElem]
    rfl
  rw [hhead]
  obtain ⟨k, hk⟩ : ∃ k, s.upCnt.toNat = k + 1 := ⟨s.upCnt.toNat - 1, by omega⟩
  rw [hk]
  generalize bitsOf s.upBuf = B at hl ⊢
  match B with
  | [] => simp at hl
  | x :: l =>
    simp only [List.length_cons] at hl
    simp only [List.take_succ_cons, List.headD_cons, List.cons_append, List.drop_succ_cons, List.drop_zero, Nat.add_sub_cancel]
    rw [List.take_append_of_le_length (by omega)]

/-- Everything `ReadBit` can do while `up_cnt` is at most 8. -/
theorem readBit_cases {s : State} (h8 : s.upCnt.toNat ≤ 8) :
    (∃ b t, readBit s = .ok (some b) t ∧ unread s = b :: unread t ∧ UnpackerOnly s t ∧
      t.upCnt.toNat ≤ 7 ∧ (∃ n, t.upi.oracle = s.upi.oracle.drop n) ∧ t.upi.data = s.upi.data ∧
      (s.upCnt ≠ 0 ∨ s.upi.oracle.headD false = false)) ∨
    (s.upCnt = 0 ∧ unread s = [] ∧ s.upi.oracle.headD false = false ∧
      readBit s = .ok none { s with upi := { s.upi with oracle := s.upi.oracle.tail } }) ∨
    (s.upCnt = 0 ∧ s.upi.oracle.headD false = true ∧
      readBit s = .raised
        (raiseError .io 2 0 { s with upi := { s.upi with oracle := s.upi.oracle.tail } })) := by
  by_cases h : s.upCnt = 0
  · rw [readBit, if_pos h]
    have hb : buffered s = [] := by simp [buffered, h]
    rcases byteIn_cases s.upi with ⟨ho, e⟩ | ⟨ho, hr, e⟩ | ⟨ho, v, r, hr, e, hd⟩
    · exact .inr (.inr ⟨h, ho, by simp [byteInUpi, e]⟩)
    · exact .inr (.inl ⟨h, by simp [unread, hb, hr], ho, by simp [byteInUpi, e]⟩)
    · left
      obtain ⟨b, t, ht, hu, hc, hs⟩ := takeBit_eq
        (s := { s with upi := { s.upi with oracle := s.upi.oracle.tail, pos := s.upi.pos + 1 }, upBuf := v, upCnt := 8 })
        (by simp) (by simp)
      refine ⟨b, t, by simpa [byteInUpi, e] using ht, ?_, ?_, ?_, ⟨1, ?_⟩, ?_, .inr ho⟩
      · rw [← hu]
        have : bitsOf v = (bitsOf v).take 8 := by rw [List.take_of_length_le]; simp
        rw [unread, unread, hb, hr]
        simp [buffered, InPort.rest, hd, ← this]
      · rw [hs]; rfl
      · simp at hc; omega
      · rw [hs]; simp
      · rw [hs]
  · rw [readBit, if_neg h]
    left
    obtain ⟨b, t, ht, hu, hc, hs⟩ := takeBit_eq h h8
    refine ⟨b, t, ht, hu, by rw [hs]; rfl, by omega, ⟨0, by rw [hs]; rfl⟩, by rw [hs], .inl h⟩

theorem readBit_some {s : State} (h8 : s.upCnt.toNat ≤ 8) {b : Bool} {q : List Bool}
    (ho : NoFail s.upi.oracle) (hu : unread s = b :: q) :
    ∃ t, readBit s = .ok (some b) t ∧ unread t = q ∧ UnpackerOnly s t ∧ t.upCnt.toNat ≤ 7 ∧
      NoFail t.upi.oracle ∧ t.upi.data = s.upi.data := by
  rcases readBit_cases h8 with ⟨c, t, e, e', hs, hc, ⟨n, hn⟩, hd, _⟩ | ⟨_, e, _⟩ | ⟨_, e, _⟩
  · rw [hu] at e'; cases e'
    exact ⟨t, e, rfl, hs, hc, by rw [hn]; exact noFail_drop n ho, hd⟩
  · rw [hu] at e; cases e
  · rw [noFail_head ho] at e; cases e

theorem readBit_none {s : State} (h8 : s.upCnt.toNat ≤ 8) (ho : NoFail s.upi.oracle)
    (hu : unread s = []) :
    readBit s = .ok none { s with upi := { s.upi with oracle := s.upi.oracle.tail } } := by
  rcases readBit_cases h8 with ⟨c, t, e, e', _⟩ | ⟨_, _, _, e⟩ | ⟨_, e, _⟩
  · rw [hu] at e'; cases e'
  · exact e
  · rw [noFail_head ho] at e; cases e

theorem readMore_some {n : Nat} (q : List Bool) {v : BitVec n} {s : State} {r : List Bool}
    (h8 : s.upCnt.toNat ≤ 8) (ho : NoFail s.upi.oracle) (hu : unread s = q ++ r) :
    ∃ x t, readMore q.length v s = .ok (some x) t ∧ bitsOf x = (bitsOf v ++ q).drop q.length ∧
      unread t = r ∧ UnpackerOnly s t ∧ t.upCnt.toNat ≤ 8 ∧ NoFail t.upi.oracle ∧
      t.upi.data = s.upi.data := by
  induction q generalizing v s with
  | nil => exact ⟨v, s, rfl, by simp, hu, rfl, h8, ho, rfl⟩
  | cons b q ih =>
    obtain ⟨u, e, hu', hs, hc, ho', hd⟩ := readBit_some h8 ho hu
    obtain ⟨x, t, e2, hx, ht, hs2, hc2, ho2, hd2⟩ := ih (v := v.shiftConcat b) (s := u) (by omega) ho' hu'
    refine ⟨x, t, by simp [readMore, e, e2], ?_, ht, hs.trans' hs2, hc2, ho2, hd2.trans hd⟩
    rw [hx, bitsOf_shiftConcat, List.length_cons]
    by_cases h0 : n = 0
    · subst h0; have := BitVec.eq_nil v; subst this; simp [bitsOf]
    · rw [← List.drop_append_of_le_length (by simp), List.drop_drop, Nat.add_comm]; simp

/-- `ReadBits(n)` gives the next `n` bits, the first the most significant. -/
theorem readBits_some {n : Nat} (w : BitVec n) {s : State} {r : List Bool}
    (h8 : s.upCnt.toNat ≤ 8) (ho : NoFail s.upi.oracle) (hu : unread s = bitsOf w ++ r) :
    ∃ t, readBits n s = .ok (some w) t ∧ unread t = r ∧ UnpackerOnly s t ∧ t.upCnt.toNat ≤ 8 ∧
      NoFail t.upi.oracle ∧ t.upi.data = s.upi.data := by
  obtain ⟨x, t, e, hx, rest⟩ := readMore_some (bitsOf w) (v := (0 : BitVec n)) h8 ho hu
  rw [bitsOf_length] at e hx
  have : x = w := bitsOf_injective (by rw [hx, List.drop_append_of_le_length (by simp)]; simp)
  exact ⟨t, by rw [readBits, e, this], rest⟩

/-- `ReadBits` on fewer bits than asked for ends with `EndOfStream`, all of them consumed. -/
theorem readMore_none {n : Nat} (k : Nat) {v : BitVec n} {s : State}
    (h8 : s.upCnt.toNat ≤ 8) (ho : NoFail s.upi.oracle) (hk : (unread s).length < k) :
    ∃ t, readMore k v s = .ok none t ∧ unread t = [] ∧ UnpackerOnly s t ∧ t.upCnt.toNat ≤ 8 ∧
      NoFail t.upi.oracle ∧ t.upi.data = s.upi.data := by
  induction k generalizing v s with
  | zero => omega
  | succ k ih =>
    match hu : unread s with
    | [] =>
      exact ⟨{ s with upi := { s.upi with oracle := s.upi.oracle.tail } },
        by rw [readMore, readBit_none h8 ho hu]; rfl, hu, rfl, h8, noFail_tail ho, rfl⟩
    | b :: q =>
      obtain ⟨u, e, hu', hs, hc, ho', hd⟩ := readBit_some h8 ho hu
      obtain ⟨t, e2, ht, hs2, hc2, ho2, hd2⟩ := ih (v := v.shiftConcat b) (s := u) (by omega) ho'
        (by rw [hu']; rw [hu] at hk; simp at hk; omega)
      exact ⟨t, by simp [readMore, e, e2], ht, hs.trans' hs2, hc2, ho2, hd2.trans hd⟩

/-- What a `ReadBit` that handed out a bit has done. -/
theorem readBit_ok_some {s t : State} {b : Bool} (h8 : s.upCnt.toNat ≤ 8)
    (h : readBit s = .ok (some b) t) :
    unread s = b :: unread t ∧ UnpackerOnly s t ∧ t.upCnt.toNat ≤ 7 ∧ t.upi.data = s.upi.data ∧
      ∃ n, t.upi.oracle = s.upi.oracle.drop n := by
  rcases readBit_cases h8 with ⟨c, u, e, hu, hs, hc, ho, hd, _⟩ | ⟨_, _, _, e⟩ | ⟨_, _, e⟩
  · rw [h] at e; cases e; exact ⟨hu, hs, hc, hd, ho⟩
  · rw [h] at e; cases e
  · rw [h] at e; cases e

/-- What a `ReadBit` that answered `EndOfStream` has done. -/
theorem readBit_ok_none {s t : State} (h8 : s.upCnt.toNat ≤ 8) (h : readBit s = .ok none t) :
    unread s = [] ∧ s.upCnt = 0 ∧ t = { s with upi := { s.upi with oracle := s.upi.oracle.tail } } := by
  rcases readBit_cases h8 with ⟨c, u, e, _⟩ | ⟨h0, hu, _, e⟩ | ⟨_, _, e⟩
  · rw [h] at e; cases e
  · rw [h] at e; cases e; exact ⟨hu, h0, rfl⟩
  · rw [h] at e; cases e

/-- A `ReadBit` that raised met a failing access of `UPI`. -/
theorem readBit_raised {s t : State} (h : readBit s = .raised t) :
    s.upi.oracle.headD false = true ∧
      t = raiseError .io 2 0 { s with upi := { s.upi with oracle := s.upi.oracle.tail } } := by
  by_cases h0 : s.upCnt = 0
  · rw [readBit, if_pos h0] at h
    rcases byteIn_cases s.upi with ⟨ho, e⟩ | ⟨_, _, e⟩ | ⟨_, v, r, _, e, _⟩
    · simp only [byteInUpi, e] at h; cases h; exact ⟨ho, rfl⟩
    · simp only [byteInUpi, e] at h; cases h
    · simp only [byteInUpi, e] at h; cases h
  · rw [readBit, if_neg h0] at h; cases h

theorem readBit_not_stop {s : State} {f : Fault} : readBit s ≠ .stop f := by
  intro h
  by_cases h0 : s.upCnt = 0
  · rw [readBit, if_pos h0] at h
    rcases byteIn_cases s.upi with ⟨ho, e⟩ | ⟨_, _, e⟩ | ⟨_, v, r, _, e, _⟩ <;>
      (simp only [byteInUpi, e] at h; cases h)
  · rw [readBit, if_neg h0] at h; cases h

/-- What a `ReadBits` that gave a value has done. -/
theorem readMore_ok_some {n k : Nat} {v x : BitVec n} {s t : State} (h8 : s.upCnt.toNat ≤ 8)
    (h : readMore k v s = .ok (some x) t) :
    ∃ q : List Bool, q.length = k ∧ unread s = q ++ unread t ∧ bitsOf x = (bitsOf v ++ q).drop k ∧
      UnpackerOnly s t ∧ t.upCnt.toNat ≤ 8 ∧ t.upi.data = s.upi.data ∧
      ∃ n, t.upi.oracle = s.upi.oracle.drop n := by
  induction k generalizing v s with
  | zero => cases h; exact ⟨[], rfl, rfl, by simp, rfl, h8, rfl, 0, rfl⟩
  | succ k ih =>
    obtain ⟨b, u, hb, hk⟩ := Res.andThen_ok h
    cases b with
    | none => cases hk
    | some b =>
      obtain ⟨hu, hs, hc, hd, m, hm⟩ := readBit_ok_some h8 hb
      obtain ⟨q, hq, hu2, hx, hs2, hc2, hd2, m2, hm2⟩ := ih (by omega) hk
      refine ⟨b :: q, by simp [hq], by rw [hu, hu2]; rfl, ?_, hs.trans' hs2, hc2, hd2.trans hd, m + m2, ?_⟩
      · rw [hx, bitsOf_shiftConcat, ← List.drop_append_of_le_length (by simp), List.drop_drop, Nat.add_comm]
        simp
      · rw [hm2, hm, List.drop_drop]

/-- What a `ReadBits` that met the end has done. -/
theorem readMore_ok_none {n k : Nat} {v : BitVec n} {s t : State} (h8 : s.upCnt.toNat ≤ 8)
    (h : readMore k v s = .ok none t) :
    (unread s).length < k ∧ unread t = [] ∧ t.upCnt = 0 ∧ UnpackerOnly s t ∧ t.upi.data = s.upi.data ∧
      ∃ n, t.upi.oracle = s.upi.oracle.drop n := by
  induction k generalizing v s with
  | zero => cases h
  | succ k ih =>
    obtain ⟨b, u, hb, hk⟩ := Res.andThen_ok h
    cases b with
    | none =>
      cases hk
      obtain ⟨hu, h0, rfl⟩ := readBit_ok_none h8 hb
      exact ⟨by simp [hu], hu, h0, rfl, rfl, 1, by simp⟩
    | some b =>
      obtain ⟨hu, hs, hc, hd, m, hm⟩ := readBit_ok_some h8 hb
      obtain ⟨hl, hu2, h02, hs2, hd2, m2, hm2⟩ := ih (by omega) hk
      refine ⟨by rw [hu]; simpa using hl, hu2, h02, hs.trans' hs2, hd2.trans hd, m + m2, ?_⟩
      rw [hm2, hm, List.drop_drop]

/-- A `ReadBits` that raised met a failing access of `UPI`, with nothing but the unpacker and `UPI`
changed before. -/
theorem readMore_raised {n k : Nat} {v : BitVec n} {s t : State} (h8 : s.upCnt.toNat ≤ 8)
    (h : readMore k v s = .raised t) :
    ∃ u, UnpackerOnly s u ∧ u.upCnt.toNat ≤ 8 ∧ t = raiseError .io 2 0 u := by
  induction k generalizing v s with
  | zero => cases h
  | succ k ih =>
    rcases Res.andThen_raised h with h | ⟨b, u, hb, hk⟩
    · obtain ⟨_, rfl⟩ := readBit_raised h
      exact ⟨{ s with upi := { s.upi with oracle := s.upi.oracle.tail } }, rfl, h8, rfl⟩
    · cases b with
      | none => cases hk
      | some b =>
        obtain ⟨hu, hs, hc, hd, _⟩ := readBit_ok_some h8 hb
        obtain ⟨w, hs2, hc2, e⟩ := ih (by omega) hk
        exact ⟨w, hs.trans' hs2, hc2, e⟩

theorem readMore_not_stop {n k : Nat} {v : BitVec n} {s : State} {f : Fault} :
    readMore k v s ≠ .stop f := by
  induction k generalizing v s with
  | zero => intro h; cases h
  | succ k ih =>
    intro h
    rcases Res.andThen_stop h with h | ⟨b, u, hb, hk⟩
    · exact readBit_not_stop h
    · cases b with
      | none => cases hk
      | some b => exact ih hk

end Sys2Proof.Machine
end

