-- ==== Sys2Proof/Laws/Tree.lean ====
section
/-! SUPPORT. Stored trees and the serializer (43_tree_codec.md R200 to R202). -/

namespace Sys2Proof.Machine

theorem CodeTree.size_eq (t : CodeTree) : t.size + 1 = 2 * t.leaves := by
  induction t with
  | leaf s => rfl
  | node l r ihl ihr => simp only [CodeTree.size, CodeTree.leaves]; omega

theorem CodeTree.leaves_pos (t : CodeTree) : 1 ≤ t.leaves := by
  induction t with
  | leaf s => simp [CodeTree.leaves]
  | node l r ihl ihr => simp only [CodeTree.leaves]; omega

theorem CodeTree.depth_lt_leaves (t : CodeTree) : t.depth < t.leaves := by
  induction t with
  | leaf s => simp [CodeTree.leaves, CodeTree.depth]
  | node l r ihl ihr => simp only [CodeTree.leaves, CodeTree.depth]; omega

theorem CodeTree.symbols_length (t : CodeTree) : t.symbols.length = t.leaves := by
  induction t with
  | leaf s => rfl
  | node l r ihl ihr => simp [CodeTree.symbols, CodeTree.leaves, ihl, ihr]

/-- A tree of `L` leaves is `11·L − 1` bits long (30_encoding.md R104). -/
theorem CodeTree.serial_length (t : CodeTree) : t.serial.length + 1 = 11 * t.leaves := by
  induction t with
  | leaf s => simp [CodeTree.serial, CodeTree.leaves]
  | node l r ihl ihr => simp [CodeTree.serial, CodeTree.leaves]; omega

theorem Holds.length {v : Vector NodeRec 513} {t : CodeTree} {n : Index} {ns : List Nat}
    (h : Holds v t n ns) : ns.length = t.size := by
  induction t generalizing n ns with
  | leaf s => rw [h.1]; rfl
  | node l r ihl ihr =>
    obtain ⟨_, la, lb, _, _, ha, hb, rfl⟩ := h
    simp [CodeTree.size, ihl ha, ihr hb]; omega

theorem Holds.head_mem {v : Vector NodeRec 513} {t : CodeTree} {n : Index} {ns : List Nat}
    (h : Holds v t n ns) : n.toNat ∈ ns := by
  cases t with
  | leaf s => rw [h.1]; simp
  | node l r => obtain ⟨_, la, lb, _, _, _, _, rfl⟩ := h; simp

theorem Holds.lt {v : Vector NodeRec 513} {t : CodeTree} {n : Index} {ns : List Nat}
    (h : Holds v t n ns) : ∀ i ∈ ns, i < 513 := by
  induction t generalizing n ns with
  | leaf s =>
    obtain ⟨rfl, r, hr, _⟩ := h
    intro i hi
    obtain ⟨hl, _⟩ := Vector.getElem?_eq_some_iff.mp hr
    simp at hi; omega
  | node l r ihl ihr =>
    obtain ⟨_, la, lb, hr, _, ha, hb, rfl⟩ := h
    obtain ⟨hl, _⟩ := Vector.getElem?_eq_some_iff.mp hr
    intro i hi
    simp only [List.mem_cons, List.mem_append] at hi
    rcases hi with rfl | hi | hi
    · exact hl
    · exact ihl ha i hi
    · exact ihr hb i hi

/-- A tree stays stored while its own records stay. -/
theorem Holds.congr {v w : Vector NodeRec 513} {t : CodeTree} {n : Index} {ns : List Nat}
    (h : Holds v t n ns) (e : ∀ i ∈ ns, w[i]? = v[i]?) : Holds w t n ns := by
  induction t generalizing n ns with
  | leaf s =>
    obtain ⟨rfl, r, hr, k⟩ := h
    exact ⟨rfl, r, by rw [e _ (by simp), hr], k⟩
  | node l r ihl ihr =>
    obtain ⟨x, la, lb, hr, hl, ha, hb, rfl⟩ := h
    exact ⟨x, la, lb, by rw [e _ (by simp), hr], hl, ihl ha fun i hi => e i (by simp [hi]),
      ihr hb fun i hi => e i (by simp [hi]), rfl⟩

/-- The node memory determines the tree below an index. -/
theorem Holds.unique {v : Vector NodeRec 513} {t u : CodeTree} {n : Index} {ns ms : List Nat}
    (h : Holds v t n ns) (k : Holds v u n ms) : t = u ∧ ns = ms := by
  induction t generalizing u n ns ms with
  | leaf s =>
    obtain ⟨rfl, r, hr, hl, rfl⟩ := h
    cases u with
    | leaf s' =>
      obtain ⟨rfl, r', hr', hl', rfl⟩ := k
      rw [hr] at hr'; cases hr'; exact ⟨rfl, rfl⟩
    | node a b =>
      obtain ⟨x, _, _, hr', hl', _⟩ := k
      rw [hr] at hr'; cases hr'; rw [hl] at hl'; cases hl'
  | node l r ihl ihr =>
    obtain ⟨x, la, lb, hr, hl, ha, hb, rfl⟩ := h
    cases u with
    | leaf s' =>
      obtain ⟨rfl, r', hr', hl', rfl⟩ := k
      rw [hr] at hr'; cases hr'; rw [hl] at hl'; cases hl'
    | node a b =>
      obtain ⟨x', la', lb', hr', hl', ha', hb', rfl⟩ := k
      rw [hr] at hr'; cases hr'
      obtain ⟨rfl, rfl⟩ := ihl ha ha'
      obtain ⟨rfl, rfl⟩ := ihr hb hb'
      exact ⟨rfl, rfl⟩

theorem PackerOnly.node {s t : State} (h : PackerOnly s t) : t.node = s.node := by rw [h]
theorem UnpackerOnly.node {s t : State} (h : UnpackerOnly s t) : t.node = s.node := by rw [h]
theorem UnpackerOnly.nn {s t : State} (h : UnpackerOnly s t) : t.nn = s.nn := by rw [h]

/-- `Put` on a stored tree writes its serialization (43_tree_codec.md R202). -/
theorem put_eq {t : CodeTree} {n : Index} {ns : List Nat} {s : State} (fuel : Nat)
    (h : Holds s.node t n ns) (hf : t.depth < fuel) : put fuel n s = writeSeq t.serial s := by
  induction fuel generalizing t n ns s with
  | zero => omega
  | succ fuel ih =>
    cases t with
    | leaf x =>
      obtain ⟨rfl, r, hr, hl, rfl⟩ := h
      rw [put, State.nodeAt?, hr]
      simp only [hl, if_true, CodeTree.serial, writeSeq, writeBits]
    | node a b =>
      obtain ⟨r, la, lb, hr, hl, ha, hb, rfl⟩ := h
      rw [put, State.nodeAt?, hr]
      simp only [hl, Bool.false_eq_true, if_false, CodeTree.serial, writeSeq]
      have hd : a.depth < fuel ∧ b.depth < fuel := by simp only [CodeTree.depth] at hf; omega
      cases hw : writeBit false s with
      | stop f => rfl
      | raised u => rfl
      | ok x u =>
        simp only [Res.ok_andThen]
        have hn := (writeBit_ok hw).2.1.node
        rw [ih (ha.congr fun i _ => by rw [hn]) hd.1, writeSeq_append]
        cases hw2 : writeSeq a.serial u with
        | stop f => rfl
        | raised u => rfl
        | ok y w =>
          simp only [Res.ok_andThen]
          have hn2 := (writeSeq_ok hw2).2.1.node
          rw [ih (hb.congr fun i _ => by rw [hn2, hn]) hd.2]

end Sys2Proof.Machine
end

