-- ==== Sys2Proof/Laws/Deserializer.lean ====
section
/-! SUPPORT. The deserializer (43_tree_codec.md R203 to R208). -/

namespace Sys2Proof.Machine

/-- Only what `DES` writes may differ, but for the flags and `root`. -/
def GetOnly (s t : State) : Prop :=
  t = { s with node := t.node, nn := t.nn, upBuf := t.upBuf, upCnt := t.upCnt, upi := t.upi }

theorem GetOnly.trans' {s t u : State} (h : GetOnly s t) (k : GetOnly t u) : GetOnly s u := by
  unfold GetOnly at *; rw [h] at k; exact k

theorem UnpackerOnly.getOnly {s t : State} (h : UnpackerOnly s t) : GetOnly s t := by
  unfold UnpackerOnly at h; unfold GetOnly; rw [h]

theorem GetOnly.alloc {s t : State} (h : GetOnly s t) : GetOnly s t.alloc := by
  unfold GetOnly at *; rw [h]; rfl

theorem GetOnly.setNode {s t : State} (h : GetOnly s t) (n : Index) (r : NodeRec) :
    GetOnly s (t.setNode n r) := by
  unfold GetOnly at *; rw [h]; rfl

theorem setNode_getElem? (s : State) (n : Index) (r : NodeRec) (i : Nat) :
    (s.setNode n r).node[i]? = if n.toNat = i then (if i < 513 then some r else none) else s.node[i]? := by
  rw [setNode_node, Vector.getElem?_setIfInBounds]
  by_cases h : n.toNat = i
  · subst h; rfl
  · rw [if_neg h, if_neg h]

theorem nn_succ {n : Index} (h : n.toNat < 513) : (n + 1).toNat = n.toNat + 1 := by
  rw [BitVec.toNat_add]; simp; omega

/-- `Get` on the bits of a tree that fits stores that tree in preorder and reads not one bit more
(43_tree_codec.md R203, R205). -/
theorem get_ok {t : CodeTree} {s : State} {r : List Bool} (fuel : Nat) (hf : t.depth < fuel)
    (hx : ∀ x ∈ t.symbols, x.toNat ≤ 256) (hn : s.nn.toNat + t.size ≤ 513)
    (h8 : s.upCnt.toNat ≤ 8) (ho : NoFail s.upi.oracle) (hu : unread s = t.serial ++ r) :
    ∃ u, get fuel s = .ok s.nn u ∧ Holds u.node t s.nn (List.range' s.nn.toNat t.size) ∧
      u.nn.toNat = s.nn.toNat + t.size ∧ unread u = r ∧ u.upCnt.toNat ≤ 8 ∧ NoFail u.upi.oracle ∧
      u.upi.data = s.upi.data ∧ GetOnly s u ∧
      ∀ i, i < s.nn.toNat → u.node[i]? = s.node[i]? := by
  induction fuel generalizing t s r with
  | zero => omega
  | succ fuel ih =>
    have hsz : 1 ≤ t.size := by have := t.size_eq; have := t.leaves_pos; omega
    have hne : s.nn ≠ 513 := fun e => by rw [e] at hn; simp at hn; omega
    have hlt : s.nn.toNat < 513 := by omega
    rw [get, if_neg hne]
    cases t with
    | leaf x =>
      obtain ⟨v, hv, huv, hs1, hc1, ho1, hd1⟩ := readBit_some h8 ho (by simpa [CodeTree.serial] using hu)
      have hvn : v.nn = s.nn := hs1.nn
      obtain ⟨w, hw, huw, hs2, hc2, ho2, hd2⟩ := readBits_some x (s := v.alloc) (r := r)
        (by show v.upCnt.toNat ≤ 8; omega) ho1 huv
      have hx' : x.toNat ≤ 256 := hx x (by simp [CodeTree.symbols])
      have hwn : w.nn = v.nn + 1 := hs2.nn
      refine ⟨w.setNode v.nn { freeNodeRec w v.nn.toNat with leaf := true, sym := x }, ?_, ?_, ?_, ?_, ?_, ?_, ?_, ?_, ?_⟩
      · rw [hv]; simp only [Res.ok_andThen, if_true, getLeaf, hw]
        rw [if_neg (by omega), hvn]
      · refine ⟨by simp [CodeTree.size], { freeNodeRec w v.nn.toNat with leaf := true, sym := x }, ?_, rfl, rfl⟩
        rw [hvn, setNode_getElem?, if_pos rfl, if_pos hlt]
      · rw [setNode_nn, hwn, hvn, nn_succ hlt]; rfl
      · exact huw
      · exact hc2
      · exact ho2
      · exact hd2.trans hd1
      · exact (hs1.getOnly.alloc.trans' hs2.getOnly).setNode _ _
      · intro i hi
        rw [setNode_getElem?, if_neg (by rw [hvn]; omega), hs2.node]
        show v.node[i]? = _
        rw [hs1.node]
    | node a b =>
      have hd : a.depth < fuel ∧ b.depth < fuel := by simp only [CodeTree.depth] at hf; omega
      simp only [CodeTree.size] at hn
      obtain ⟨v, hv, huv, hs1, hc1, ho1, hd1⟩ := readBit_some (q := a.serial ++ (b.serial ++ r)) h8 ho
        (by simpa [CodeTree.serial] using hu)
      have hvn : v.nn = s.nn := hs1.nn
      have hv1 : (v.nn + 1).toNat = s.nn.toNat + 1 := by rw [hvn, nn_succ hlt]
      obtain ⟨w, hw, hHw, hnw, huw, hcw, how, hdw, hsw, hkw⟩ := ih (s := v.alloc)
        hd.1 (fun x h => hx x (by simp [CodeTree.symbols, h])) (by show (v.nn + 1).toNat + _ ≤ _; omega)
        (by show v.upCnt.toNat ≤ 8; omega) ho1 huv
      obtain ⟨y, hy, hHy, hny, huy, hcy, hoy, hdy, hsy, hky⟩ := ih (s := w)
        hd.2 (fun x h => hx x (by simp [CodeTree.symbols, h])) (by rw [hnw]; show (v.nn + 1).toNat + _ + _ ≤ _; omega)
        hcw how huw
      have hnw' : w.nn.toNat = s.nn.toNat + 1 + a.size := by rw [hnw, ← hv1]; rfl
      have hHw : Holds w.node a (v.nn + 1) (List.range' (s.nn.toNat + 1) a.size) := by rw [← hv1]; exact hHw
      have hkw : ∀ i, i < s.nn.toNat + 1 → w.node[i]? = v.node[i]? := fun i hi => hkw i (by show i < (v.nn+1).toNat; omega)
      refine ⟨setInternal s.nn (v.nn + 1) w.nn y, ?_, ?_, ?_, ?_, ?_, ?_, ?_, ?_, ?_⟩
      · rw [hv]; simp only [Res.ok_andThen, Bool.false_eq_true, if_false, hw, hy, hvn, alloc_nn]
      · refine ⟨{ freeNodeRec y s.nn.toNat with leaf := false, left := v.nn + 1, right := w.nn }, List.range' (s.nn.toNat + 1) a.size, List.range' w.nn.toNat b.size, ?_, rfl, ?_, ?_, ?_⟩
        · rw [setInternal, setNode_getElem?, if_pos rfl, if_pos hlt]
        · refine hHw.congr fun i hi => ?_
          rw [List.mem_range'_1] at hi
          rw [setInternal, setNode_getElem?, if_neg (by omega), hky i (by omega)]
        · refine hHy.congr fun i hi => ?_
          rw [List.mem_range'_1] at hi
          rw [setInternal, setNode_getElem?, if_neg (by omega)]
        · rw [hnw', List.range'_append_1]
          rw [CodeTree.size, show 1 + a.size + b.size = (a.size + b.size) + 1 by omega, List.range'_succ]
      · show y.nn.toNat = _
        rw [hny, hnw', CodeTree.size]; omega
      · exact huy
      · exact hcy
      · exact hoy
      · exact hdy.trans (hdw.trans hd1)
      · exact ((hs1.getOnly.alloc.trans' hsw).trans' hsy).setNode _ _
      · intro i hi
        rw [setInternal, setNode_getElem?, if_neg (by omega), hky i (by omega), hkw i (by omega), hs1.node]

/-- What a `Get` that returned has done: it read the bits of one tree, stored it in preorder from `nn`
on, and nothing else (43_tree_codec.md R203, R205, R208). -/
theorem get_inv {n : Index} {s u : State} (fuel : Nat) (hn : s.nn.toNat ≤ 513)
    (h8 : s.upCnt.toNat ≤ 8) (h : get fuel s = .ok n u) :
    ∃ t : CodeTree, n = s.nn ∧ (∀ x ∈ t.symbols, x.toNat ≤ 256) ∧ unread s = t.serial ++ unread u ∧
      Holds u.node t s.nn (List.range' s.nn.toNat t.size) ∧
      u.nn.toNat = s.nn.toNat + t.size ∧ u.nn.toNat ≤ 513 ∧ u.upCnt.toNat ≤ 8 ∧
      u.upi.data = s.upi.data ∧ GetOnly s u ∧ (∀ i, i < s.nn.toNat → u.node[i]? = s.node[i]?) ∧
      ∃ n, u.upi.oracle = s.upi.oracle.drop n := by
  induction fuel generalizing n s u with
  | zero => cases h
  | succ fuel ih =>
    rw [get] at h
    by_cases hne : s.nn = 513
    · rw [if_pos hne] at h; cases h
    rw [if_neg hne] at h
    have hlt : s.nn.toNat < 513 := by
      have : s.nn.toNat ≠ 513 := fun e => hne (BitVec.eq_of_toNat_eq e)
      omega
    obtain ⟨b, v, hb, h⟩ := Res.andThen_ok h
    cases b with
    | none => cases h
    | some b =>
    obtain ⟨huv, hs1, hc1, hd1, m1, hm1⟩ := readBit_ok_some h8 hb
    have hvn : v.nn = s.nn := hs1.nn
    have hv1 : v.alloc.nn.toNat = s.nn.toNat + 1 := by rw [alloc_nn, hvn, nn_succ hlt]
    cases b with
    | true =>
      simp only [if_true, getLeaf] at h
      obtain ⟨x, w, hx, h⟩ := Res.andThen_ok h
      cases x with
      | none => cases h
      | some x =>
      simp only at h
      split at h
      · cases h
      next hle =>
      cases h
      obtain ⟨q, hq, huw, hbx, hs2, hc2, hd2, m2, hm2⟩ :=
        readMore_ok_some (s := v.alloc) (by show v.upCnt.toNat ≤ 8; omega) hx
      have hwn : w.nn = v.nn + 1 := hs2.nn
      have hbx' : bitsOf x = q := by
        rw [hbx, List.drop_append_of_le_length (by simp)]; simp
      refine ⟨.leaf x, hvn, ?_, ?_, ?_, ?_, ?_, hc2, hd2.trans hd1,
        (hs1.getOnly.alloc.trans' hs2.getOnly).setNode _ _, ?_, m1 + m2, ?_⟩
      · intro y hy; simp [CodeTree.symbols] at hy; subst hy; omega
      · rw [huv, CodeTree.serial, hbx', List.cons_append]; congr 1
      · refine ⟨by simp [CodeTree.size], { freeNodeRec w v.nn.toNat with leaf := true, sym := x }, ?_, rfl, rfl⟩
        rw [hvn, setNode_getElem?, if_pos rfl, if_pos hlt]
      · rw [setNode_nn, hwn, hvn, nn_succ hlt]; rfl
      · rw [setNode_nn, hwn, hvn, nn_succ hlt]; omega
      · intro i hi
        rw [setNode_getElem?, if_neg (by rw [hvn]; omega), hs2.node]
        show v.node[i]? = _
        rw [hs1.node]
      · show w.upi.oracle = _
        rw [hm2, alloc_upi, hm1, List.drop_drop]
    | false =>
      simp only [Bool.false_eq_true, if_false] at h
      obtain ⟨l, w, hw, h⟩ := Res.andThen_ok h
      obtain ⟨r, y, hy, h⟩ := Res.andThen_ok h
      cases h
      obtain ⟨a, rfl, hxa, hua, hHa, hna, hna', hca, hda, hsa, hka, m2, hm2⟩ :=
        ih (s := v.alloc) (by omega) (by show v.upCnt.toNat ≤ 8; omega) hw
      obtain ⟨b, rfl, hxb, hub, hHb, hnb, hnb', hcb, hdb, hsb, hkb, m3, hm3⟩ := ih (s := w) hna' hca hy
      refine ⟨.node a b, hvn, ?_, ?_, ?_, ?_, hnb', hcb, hdb.trans (hda.trans hd1),
        ((hs1.getOnly.alloc.trans' hsa).trans' hsb).setNode _ _, ?_, m1 + m2 + m3, ?_⟩
      · intro x hx; simp only [CodeTree.symbols, List.mem_append] at hx
        rcases hx with hx | hx
        · exact hxa x hx
        · exact hxb x hx
      · show unread s = _ ++ unread y
        rw [huv, CodeTree.serial]
        show false :: unread v.alloc = _
        rw [hua, hub]; simp
      · refine ⟨{ freeNodeRec y v.nn.toNat with leaf := false, left := v.alloc.nn, right := w.nn },
          List.range' v.alloc.nn.toNat a.size, List.range' w.nn.toNat b.size, ?_, rfl, ?_, ?_, ?_⟩
        · rw [setInternal, hvn, setNode_getElem?, if_pos rfl, if_pos hlt]
        · refine hHa.congr fun i hi => ?_
          rw [List.mem_range'_1] at hi
          rw [setInternal, setNode_getElem?, if_neg (by rw [hvn]; omega), hkb i (by omega)]
        · refine hHb.congr fun i hi => ?_
          rw [List.mem_range'_1] at hi
          rw [setInternal, setNode_getElem?, if_neg (by rw [hvn]; omega)]
        · rw [hna, hv1, List.range'_append_1]
          rw [CodeTree.size, show 1 + a.size + b.size = (a.size + b.size) + 1 by omega, List.range'_succ]
      · show y.nn.toNat = _
        rw [hnb, hna, hv1, CodeTree.size]; omega
      · intro i hi
        rw [setInternal, setNode_getElem?, if_neg (by rw [hvn]; omega), hkb i (by omega), hka i (by omega)]
        show v.node[i]? = _
        rw [hs1.node]
      · show y.upi.oracle = _
        rw [hm3, hm2, alloc_upi, hm1, List.drop_drop, List.drop_drop, Nat.add_assoc]

/-- `Get` never runs out of its bound (43_tree_codec.md R203). -/
theorem get_not_stop {s : State} {f : Fault} (fuel : Nat) (hn : s.nn.toNat ≤ 513)
    (hf : 514 ≤ fuel + s.nn.toNat) (h8 : s.upCnt.toNat ≤ 8) : get fuel s ≠ .stop f := by
  induction fuel generalizing s with
  | zero => omega
  | succ fuel ih =>
    intro h
    rw [get] at h
    by_cases hne : s.nn = 513
    · rw [if_pos hne] at h; cases h
    rw [if_neg hne] at h
    have hlt : s.nn.toNat < 513 := by
      have : s.nn.toNat ≠ 513 := fun e => hne (BitVec.eq_of_toNat_eq e)
      omega
    rcases Res.andThen_stop h with h | ⟨b, v, hb, h⟩
    · exact readBit_not_stop h
    cases b with
    | none => cases h
    | some b =>
    obtain ⟨huv, hs1, hc1, hd1, m1, hm1⟩ := readBit_ok_some h8 hb
    have hv1 : v.alloc.nn.toNat = s.nn.toNat + 1 := by rw [alloc_nn, hs1.nn, nn_succ hlt]
    cases b with
    | true =>
      simp only [if_true, getLeaf] at h
      rcases Res.andThen_stop h with h | ⟨x, w, hx, h⟩
      · exact readMore_not_stop h
      · cases x with
        | none => cases h
        | some x => simp only at h; split at h <;> cases h
    | false =>
      simp only [Bool.false_eq_true, if_false] at h
      rcases Res.andThen_stop h with h | ⟨l, w, hw, h⟩
      · exact ih (by omega) (by omega) (by show v.upCnt.toNat ≤ 8; omega) h
      · obtain ⟨a, _, _, _, _, hna, hna', hca, _⟩ :=
          get_inv fuel (s := v.alloc) (by omega) (by show v.upCnt.toNat ≤ 8; omega) hw
        rcases Res.andThen_stop h with h | ⟨r, y, hy, h⟩
        · exact ih hna' (by omega) hca h
        · cases h

end Sys2Proof.Machine
end

