-- ==== Sys2Proof/Laws/Codes.lean ====
section
/-! SUPPORT. The code table generator (42_code_table.md R190 to R194). -/

namespace Sys2Proof.Machine

theorem symIdx?_eq {x : Symbol} (h : x.toNat ≤ 256) : symIdx? x = some ⟨x.toNat, by omega⟩ := by
  rw [symIdx?, dif_pos (by omega)]

theorem idxSymbol_toNat (i : SymIdx) : (idxSymbol i).toNat = i.val := by
  have := i.isLt
  simp [idxSymbol]; omega

theorem eq_idxSymbol_iff {x : Symbol} (h : x.toNat ≤ 256) (i : SymIdx) :
    x = idxSymbol i ↔ (⟨x.toNat, by omega⟩ : SymIdx) = i := by
  constructor
  · rintro rfl; ext; simp [idxSymbol_toNat]
  · rintro rfl; apply BitVec.eq_of_toNat_eq; rw [idxSymbol_toNat]

/-- Only `CT` may differ. -/
def CodesOnly (s t : State) : Prop := t = { s with ct := t.ct }

theorem CodesOnly.trans' {s t u : State} (h : CodesOnly s t) (k : CodesOnly t u) : CodesOnly s u := by
  unfold CodesOnly at *; rw [h] at k; exact k

theorem codeAt_setCode (s : State) (i j : SymIdx) (p : List Bool) :
    ((s.setCode i p).codeAt j).code = if i = j then p else (s.codeAt j).code := by
  simp only [State.codeAt, setCode_ct, Fin.getElem_fin, Vector.getElem_set]
  by_cases h : i = j
  · subst h; simp
  · rw [if_neg h, if_neg (fun e => h (Fin.ext e))]

/-- Recording a leaf's code (42_code_table.md R191). -/
theorem recordCode_ok {x : Symbol} (h : x.toNat ≤ 256) (p : List Bool) (s : State) :
    ∃ t, recordCode x p s = .ok () t ∧ CodesOnly s t ∧
      ∀ i : SymIdx, (t.codeAt i).code = if x = idxSymbol i then p else (s.codeAt i).code := by
  refine ⟨s.setCode ⟨x.toNat, by omega⟩ p, by rw [recordCode, symIdx?_eq h], rfl, fun i => ?_⟩
  rw [codeAt_setCode]
  by_cases e : x = idxSymbol i
  · rw [if_pos e, if_pos ((eq_idxSymbol_iff h i).mp e)]
  · rw [if_neg e, if_neg (fun k => e ((eq_idxSymbol_iff h i).mpr k))]

/-- The entries a walk overwrites, the path so far in front of each code. -/
def overwrite (p : List Bool) (l : List (Symbol × List Bool)) (x : Symbol) (c : List Bool) :
    List Bool :=
  l.foldl (fun c e => if e.1 = x then p ++ e.2 else c) c

theorem overwrite_append (p : List Bool) (l m : List (Symbol × List Bool)) (x : Symbol) (c : List Bool) :
    overwrite p (l ++ m) x c = overwrite p m x (overwrite p l x c) := by
  simp [overwrite]

theorem overwrite_map (p : List Bool) (b : Bool) (l : List (Symbol × List Bool)) (x : Symbol) (c : List Bool) :
    overwrite p (l.map fun e => (e.1, b :: e.2)) x c = overwrite (p ++ [b]) l x c := by
  simp [overwrite, List.foldl_map]

/-- The walk over a stored tree records every leaf's path, later visits over earlier ones
(42_code_table.md R191, R194). -/
theorem walk_ok {t : CodeTree} {n : Index} {ns : List Nat} {s : State} (fuel : Nat) (p : List Bool)
    (h : Holds s.node t n ns) (hf : t.depth < fuel) (hs : ∀ x ∈ t.symbols, x.toNat ≤ 256) :
    ∃ u, walk fuel n p s = .ok () u ∧ CodesOnly s u ∧
      ∀ i : SymIdx, (u.codeAt i).code = overwrite p t.paths (idxSymbol i) (s.codeAt i).code := by
  induction fuel generalizing t n ns s p with
  | zero => omega
  | succ fuel ih =>
    cases t with
    | leaf x =>
      obtain ⟨rfl, r, hr, hl, rfl⟩ := h
      obtain ⟨u, hu, hc, hi⟩ := recordCode_ok (hs r.sym (by simp [CodeTree.symbols])) p s
      refine ⟨u, ?_, hc, fun i => ?_⟩
      · rw [walk, State.nodeAt?, hr]; simp only [hl, if_true]; exact hu
      · rw [hi]; simp [overwrite, CodeTree.paths]
    | node a b =>
      obtain ⟨r, la, lb, hr, hl, ha, hb, rfl⟩ := h
      have hd : a.depth < fuel ∧ b.depth < fuel := by simp only [CodeTree.depth] at hf; omega
      obtain ⟨u, hu, hc, hi⟩ := ih (p ++ [false]) ha hd.1 fun x hx => hs x (by simp [CodeTree.symbols, hx])
      have hn : u.node = s.node := by rw [hc]
      obtain ⟨w, hw, hc2, hi2⟩ := ih (s := u) (p ++ [true]) (hb.congr fun i _ => by rw [hn]) hd.2
        fun x hx => hs x (by simp [CodeTree.symbols, hx])
      refine ⟨w, ?_, hc.trans' hc2, fun i => ?_⟩
      · rw [walk, State.nodeAt?, hr]; simp only [hl, Bool.false_eq_true, if_false, hu, Res.ok_andThen, hw]
      · rw [hi2, hi, CodeTree.paths, overwrite_append, overwrite_map, overwrite_map]

theorem overwrite_nil (l : List (Symbol × List Bool)) (x : Symbol) :
    overwrite [] l x [] = lastFor x l := by simp [overwrite, lastFor]

/-- `GEN`'s codes of a stored legal tree, from a table without entries (42_code_table.md R192, R193). -/
theorem genCodes_ok {t : CodeTree} {ns : List Nat} {s : State} (h : Holds s.node t s.root ns)
    (hl : t.Legal) (h0 : ∀ i : SymIdx, (s.codeAt i).code = []) :
    ∃ u, genCodes s = .ok () u ∧ CodesOnly s u ∧ u.HasCodes t := by
  have hd : t.depth < 513 := by have := t.depth_lt_leaves; have := hl.1; omega
  cases t with
  | leaf x =>
    obtain ⟨rfl, r, hr, hlf, rfl⟩ := h
    obtain ⟨u, hu, hc, hi⟩ := recordCode_ok (hl.2 r.sym (by simp [CodeTree.symbols])) [false] s
    refine ⟨u, ?_, hc, fun i => ?_⟩
    · rw [genCodes, State.nodeAt?, hr]; simp only [hlf, if_true]; exact hu
    · rw [hi, h0]; rfl
  | node a b =>
    obtain ⟨u, hu, hc, hi⟩ := walk_ok 513 [] h hd hl.2
    obtain ⟨r, la, lb, hr, hlf, ha, hb, rfl⟩ := h
    refine ⟨u, ?_, hc, fun i => ?_⟩
    · rw [genCodes, State.nodeAt?, hr]; simp only [hlf, Bool.false_eq_true, if_false]; exact hu
    · rw [hi, h0, overwrite_nil]; rfl

theorem emptyCodes_code (s : State) (i : SymIdx) : ((clearCodes s).codeAt i).code = [] := by
  simp [State.codeAt, emptyCodes]

end Sys2Proof.Machine
end

