-- ==== Sys2Proof/Laws/Encoder.lean ====
section
/-! SUPPORT. The stream encoder and the source port (44_stream_encoder.md R220 to R223). -/

namespace Sys2Proof.Machine

/-- An emission is its code's bits in order, or the error before any bit (44_stream_encoder.md R220). -/
theorem emit_eq {i : SymIdx} {s : State} (h : (s.codeAt i).code ≠ []) :
    emit i s = writeSeq (s.codeAt i).code s := by
  rw [emit, if_neg]
  simpa [CodeRec.len] using h

theorem emit_missing {i : SymIdx} {s : State} (h : (s.codeAt i).code = []) :
    emit i s = .raised (raiseError .internalInvariant 1 (zext32 (idxSymbol i)) s) := by
  rw [emit, if_pos]
  simp [CodeRec.len, h]

theorem InPort.rest_length (p : InPort) : p.rest.length = p.left := by simp [InPort.rest, InPort.left]

/-- `ByteIn(SRC)` where the access does not fail: the next byte. -/
theorem byteInSrc_cons {s : State} {v : Byte} {r : List Byte} (ho : s.src.oracle.headD false = false)
    (h : s.src.rest = v :: r) :
    byteInSrc s = (.byte v,
      { s with src := { s.src with pos := s.src.pos + 1, oracle := s.src.oracle.tail } }) ∧
    ({ s.src with pos := s.src.pos + 1, oracle := s.src.oracle.tail } : InPort).rest = r := by
  rcases byteIn_cases s.src with ⟨e, _⟩ | ⟨_, e, _⟩ | ⟨_, w, q, e, hb, hd⟩
  · rw [ho] at e; cases e
  · rw [h] at e; cases e
  · rw [h] at e; cases e
    exact ⟨by rw [byteInSrc, hb], hd⟩

/-- `ByteIn(SRC)` at the end, where the access does not fail. -/
theorem byteInSrc_nil {s : State} (ho : NoFail s.src.oracle) (h : s.src.rest = []) :
    byteInSrc s = (.endOfStream, { s with src := { s.src with oracle := s.src.oracle.tail } }) := by
  rcases byteIn_cases s.src with ⟨e, _⟩ | ⟨_, _, e⟩ | ⟨_, w, q, e, _⟩
  · rw [noFail_head ho] at e; cases e
  · rw [byteInSrc, e]
  · rw [h] at e; cases e

theorem noFail_of_packerOnly {s t : State} {n : Nat} (h : t.pko.oracle = s.pko.oracle.drop n)
    (ho : NoFail s.pko.oracle) : NoFail t.pko.oracle := by rw [h]; exact noFail_drop n ho

/-- `ByteIn(SRC)` where the access fails: the port does not move (20_memory.md R61). -/
theorem byteInSrc_fail {s : State} (ho : s.src.oracle.headD false = true) :
    byteInSrc s = (.ioFail, { s with src := { s.src with oracle := s.src.oracle.tail } }) := by
  rcases byteIn_cases s.src with ⟨_, e⟩ | ⟨e, _⟩ | ⟨e, _⟩
  · rw [byteInSrc, e]
  all_goals rw [ho] at e; cases e

/-- The loop of `ENC` over bytes whose accesses of `SRC` do not fail (44_stream_encoder.md R221): the code
of each in order, and the loop goes on behind them. -/
theorem encLoop_bytes {p r : List Byte} {s : State} (fuel : Nat) (hr : s.src.rest = p ++ r)
    (hs : NoFail (s.src.oracle.take p.length)) (hp : NoFail s.pko.oracle)
    (hc : ∀ b ∈ p, (s.codeAt (byteIdx b)).code ≠ []) :
    ∃ t, encLoop (fuel + p.length) s = encLoop fuel t ∧
      written t = written s ++ p.flatMap (fun b => (s.codeAt (byteIdx b)).code) ∧
      t.src.rest = r ∧ NoFail t.pko.oracle ∧
      t = { s with
        src := { s.src with pos := s.src.pos + p.length, oracle := s.src.oracle.drop p.length }
        pkAcc := t.pkAcc, pkCnt := t.pkCnt, pko := t.pko } := by
  induction p generalizing s with
  | nil => exact ⟨s, rfl, by simp, hr, hp, rfl⟩
  | cons v p ih =>
    obtain ⟨e, hr'⟩ := byteInSrc_cons (noFail_take_head hs) hr
    rw [List.length_cons, ← Nat.add_assoc, encLoop, e]
    simp only
    generalize hu : ({ s with src := { s.src with pos := s.src.pos + 1, oracle := s.src.oracle.tail } } : State) = u
    have hcu : ∀ i, u.codeAt i = s.codeAt i := fun i => by rw [← hu]; rfl
    rw [emit_eq (by rw [hcu]; exact hc v (by simp)), hcu]
    obtain ⟨w, hw⟩ := writeSeq_progress (q := (s.codeAt (byteIdx v)).code) (s := u) (by rw [← hu]; exact hp)
    obtain ⟨hww, hpw, n, hn⟩ := writeSeq_ok hw
    have hcw : ∀ i, w.codeAt i = s.codeAt i := fun i => by rw [hpw, ← hcu]; rfl
    have hsw : w.src = { s.src with pos := s.src.pos + 1, oracle := s.src.oracle.tail } := by
      rw [hpw, ← hu]
    obtain ⟨t, ht, hwt, hrt, hot, hst⟩ := ih (s := w) (by rw [hsw]; exact hr')
      (by rw [hsw]; exact noFail_take_tail hs) (noFail_of_packerOnly hn (by rw [← hu]; exact hp))
      (fun b hb => by rw [hcw]; exact hc b (by simp [hb]))
    refine ⟨t, by rw [hw]; exact ht, ?_, hrt, hot, ?_⟩
    · rw [hwt, hww, ← hu]
      simp only [hcw, List.flatMap_cons, ← List.append_assoc]
      rfl
    · rw [hst, hsw, hpw, ← hu]
      simp only [List.drop_tail]
      simp only [Nat.add_assoc, Nat.add_comm 1]

/-- The loop of `ENC` (44_stream_encoder.md R221): every byte's code in order, all of `SRC` read. -/
theorem encLoop_ok {bytes : List Byte} {s : State} (fuel : Nat) (hr : s.src.rest = bytes)
    (hf : bytes.length < fuel) (hs : NoFail s.src.oracle) (hp : NoFail s.pko.oracle)
    (hc : ∀ b ∈ bytes, (s.codeAt (byteIdx b)).code ≠ []) :
    ∃ t, encLoop fuel s = .ok () t ∧
      written t = written s ++ bytes.flatMap (fun b => (s.codeAt (byteIdx b)).code) ∧
      NoFail t.pko.oracle ∧
      t = { s with
        src := { s.src with pos := s.src.pos + bytes.length
                            oracle := s.src.oracle.drop (bytes.length + 1) }
        pkAcc := t.pkAcc, pkCnt := t.pkCnt, pko := t.pko } := by
  obtain ⟨k, rfl⟩ : ∃ k, fuel = k + 1 + bytes.length := ⟨fuel - 1 - bytes.length, by omega⟩
  obtain ⟨u, e, hw, hru, hpu, hsu⟩ := encLoop_bytes (r := []) (k + 1) (by simpa using hr)
    (fun b hb => hs b (List.mem_of_mem_take hb)) hp hc
  have hou : u.src.oracle = s.src.oracle.drop bytes.length := by rw [hsu]
  refine ⟨{ u with src := { u.src with oracle := u.src.oracle.tail } }, ?_, hw, hpu, ?_⟩
  · rw [e, encLoop, byteInSrc_nil (by rw [hou]; exact noFail_drop _ hs) hru]
  · rw [hsu]; simp

/-- The loop of `ENC` where an access of `SRC` fails behind some bytes: their codes are written and
`IOError(1)` is raised (44_stream_encoder.md R221). -/
theorem encLoop_fail {p r : List Byte} {s : State} (fuel : Nat) (hr : s.src.rest = p ++ r)
    (hf : p.length < fuel) (hs : NoFail (s.src.oracle.take p.length))
    (ht : (s.src.oracle.drop p.length).headD false = true) (hp : NoFail s.pko.oracle)
    (hc : ∀ b ∈ p, (s.codeAt (byteIdx b)).code ≠ []) :
    ∃ t, encLoop fuel s = .raised (raiseError .io 1 0 t) ∧
      written t = written s ++ p.flatMap (fun b => (s.codeAt (byteIdx b)).code) ∧
      t = { s with
        src := { s.src with pos := s.src.pos + p.length
                            oracle := s.src.oracle.drop (p.length + 1) }
        pkAcc := t.pkAcc, pkCnt := t.pkCnt, pko := t.pko } := by
  obtain ⟨k, rfl⟩ : ∃ k, fuel = k + 1 + p.length := ⟨fuel - 1 - p.length, by omega⟩
  obtain ⟨u, e, hw, hru, hpu, hsu⟩ := encLoop_bytes (k + 1) hr hs hp hc
  have hou : u.src.oracle = s.src.oracle.drop p.length := by rw [hsu]
  refine ⟨{ u with src := { u.src with oracle := u.src.oracle.tail } }, ?_, hw, ?_⟩
  · rw [e, encLoop, byteInSrc_fail (by rw [hou]; exact ht)]
  · rw [hsu]; simp

/-- `ENC`'s whole output (44_stream_encoder.md R221, R223). -/
theorem enc_ok {bytes : List Byte} {s : State} (hr : s.src.rest = bytes)
    (hs : NoFail s.src.oracle) (hp : NoFail s.pko.oracle)
    (hc : ∀ b ∈ bytes, (s.codeAt (byteIdx b)).code ≠ []) (he : (s.codeAt eofIdx).code ≠ []) :
    ∃ t, ((encLoop (s.src.left + 1) s).andThen fun _ t => emit eofIdx t) = .ok () t ∧
      written t = written s ++ payload s bytes ∧ NoFail t.pko.oracle ∧
      t = { s with
        src := { s.src with pos := s.src.pos + bytes.length
                            oracle := s.src.oracle.drop (bytes.length + 1) }
        pkAcc := t.pkAcc, pkCnt := t.pkCnt, pko := t.pko } := by
  obtain ⟨u, hu, hw, ho, hsu⟩ := encLoop_ok (s.src.left + 1) hr (by rw [← hr, InPort.rest_length]; omega) hs hp hc
  have hcu : u.codeAt eofIdx = s.codeAt eofIdx := by rw [hsu]; rfl
  obtain ⟨t, ht⟩ := writeSeq_progress (q := (s.codeAt eofIdx).code) ho
  obtain ⟨hwt, hpt, n, hn⟩ := writeSeq_ok ht
  refine ⟨t, ?_, ?_, noFail_of_packerOnly hn ho, ?_⟩
  · rw [hu]; simp only [Res.ok_andThen]; rw [emit_eq (by rw [hcu]; exact he), hcu, ht]
  · rw [hwt, hw, payload, List.append_assoc]
  · rw [hpt, hsu]

end Sys2Proof.Machine
end

