-- ==== Sys2Proof/Laws/Freq.lean ====
section
/-! SUPPORT. The frequency accumulator (40_freq.md R140 to R146). -/

namespace Sys2Proof.Machine

theorem occurrences_cons (i : SymIdx) (b : Byte) (l : List Byte) :
    occurrences i (b :: l) = occurrences i l + if byteIdx b = i then 1 else 0 := by
  simp [occurrences, List.count_cons]

theorem count_setCount (s : State) (i j : SymIdx) (c : Nat) :
    (s.setCount i c).count j = if i = j then c else s.count j := by
  simp only [State.count, setCount_ft, Fin.getElem_fin, Vector.getElem_set]
  by_cases h : i = j
  · subst h; simp
  · rw [if_neg h, if_neg (fun e => h (Fin.ext e))]

theorem clearTable_count (s : State) (i : SymIdx) : (clearTable s).count i = 0 := by
  simp [State.count, clearTable]

/-- `FACC`'s count, below the largest (40_freq.md R141). -/
theorem countByte_ok {b : Byte} {s : State} (h : s.count (byteIdx b) ≠ s.cfg.maxCount) :
    countByte b s = .ok () (s.setCount (byteIdx b) (s.count (byteIdx b) + 1)) := by
  rw [countByte, if_neg h]

theorem countByte_full {b : Byte} {s : State} (h : s.count (byteIdx b) = s.cfg.maxCount) :
    countByte b s = .raised (raiseError .overflow 1 (zext32 b) s) := by
  rw [countByte, if_pos h]

/-- The state after `n` accesses of `SRC` of which `k` consumed a byte. -/
def srcRead (n k : Nat) (s : State) : State :=
  { s with src := { s.src with pos := s.src.pos + k, oracle := s.src.oracle.drop n } }

theorem srcRead_rest (n k : Nat) (s : State) : (srcRead n k s).src.rest = s.src.rest.drop k := by
  simp [srcRead, InPort.rest, List.drop_drop]

theorem scanStep {v : Byte} {r : List Byte} {s : State} (fuel : Nat) (hs : NoFail s.src.oracle)
    (hr : s.src.rest = v :: r) (h : s.count (byteIdx v) ≠ s.cfg.maxCount) :
    scanLoop (fuel + 1) s =
      scanLoop fuel ((srcRead 1 1 s).setCount (byteIdx v) (s.count (byteIdx v) + 1)) := by
  rw [scanLoop, (byteInSrc_cons (noFail_head hs) hr).1]
  simp only
  rw [countByte_ok (by exact h)]
  simp only [Res.ok_andThen, srcRead, List.drop_one]
  rfl

/-- `FSCAN`'s loop while no counter overflows: it counts every byte left on `SRC` (40_freq.md R145). -/
theorem scanLoop_ok {bytes : List Byte} {s : State} (fuel : Nat) (hr : s.src.rest = bytes)
    (hf : bytes.length < fuel) (hs : NoFail s.src.oracle)
    (hc : ∀ b ∈ bytes, s.count (byteIdx b) + occurrences (byteIdx b) bytes ≤ s.cfg.maxCount) :
    ∃ t, scanLoop fuel s = .ok () t ∧ (∀ i, t.count i = s.count i + occurrences i bytes) ∧
      t = { s with
        ft := t.ft
        src := { s.src with pos := s.src.pos + bytes.length
                            oracle := s.src.oracle.drop (bytes.length + 1) } } := by
  induction bytes generalizing s fuel with
  | nil =>
    obtain ⟨fuel, rfl⟩ : ∃ k, fuel = k + 1 := ⟨fuel - 1, by simp at hf; omega⟩
    refine ⟨{ s with src := { s.src with oracle := s.src.oracle.tail } }, ?_, fun i => ?_, ?_⟩
    · rw [scanLoop, byteInSrc_nil hs hr]
    · simp [occurrences, State.count]
    · simp
  | cons v r ih =>
    obtain ⟨fuel, rfl⟩ : ∃ k, fuel = k + 1 := ⟨fuel - 1, by simp at hf; omega⟩
    have hv := hc v (by simp)
    rw [occurrences_cons, if_pos rfl] at hv
    rw [scanStep fuel hs hr (by omega)]
    generalize hu : (srcRead 1 1 s).setCount (byteIdx v) (s.count (byteIdx v) + 1) = u
    have hcu : ∀ i, u.count i = s.count i + if byteIdx v = i then 1 else 0 := fun i => by
      rw [← hu, count_setCount]
      by_cases e : byteIdx v = i
      · subst e; simp
      · rw [if_neg e, if_neg e]; rfl
    have hsu : u = { s with ft := u.ft, src := { s.src with pos := s.src.pos + 1, oracle := s.src.oracle.drop 1 } } := by
      rw [← hu]; rfl
    have hru : u.src.rest = r := by
      rw [← hu, setCount_src, srcRead_rest, hr]; rfl
    have hmu : u.cfg = s.cfg := by rw [hsu]
    obtain ⟨t, ht, hct, hst⟩ := ih (s := u) fuel hru (by simpa using hf)
      (by rw [hsu]; exact noFail_drop 1 hs)
      (fun b hb => by
        have := hc b (by simp [hb])
        rw [occurrences_cons] at this
        rw [hcu, hmu]; omega)
    refine ⟨t, ht, fun i => ?_, ?_⟩
    · rw [hct, hcu, occurrences_cons]; omega
    · rw [hst, hsu]
      simp only [List.length_cons, List.drop_drop, Nat.add_assoc, Nat.add_comm 1]

/-- `FSCAN`'s loop at the byte that overflows: it is consumed and not counted, every byte before it is
counted (40_freq.md R145, R141). -/
theorem scanLoop_overflow {p r : List Byte} {v : Byte} {s : State} (fuel : Nat)
    (hr : s.src.rest = p ++ v :: r) (hf : p.length < fuel) (hs : NoFail s.src.oracle)
    (hc : ∀ b ∈ p, s.count (byteIdx b) + occurrences (byteIdx b) p ≤ s.cfg.maxCount)
    (hv : s.count (byteIdx v) + occurrences (byteIdx v) p = s.cfg.maxCount) :
    ∃ t, scanLoop fuel s = .raised (raiseError .overflow 1 (zext32 v) t) ∧
      (∀ i, t.count i = s.count i + occurrences i p) ∧
      t = { s with
        ft := t.ft
        src := { s.src with pos := s.src.pos + (p.length + 1)
                            oracle := s.src.oracle.drop (p.length + 1) } } := by
  induction p generalizing s fuel with
  | nil =>
    obtain ⟨fuel, rfl⟩ : ∃ k, fuel = k + 1 := ⟨fuel - 1, by simp at hf; omega⟩
    refine ⟨srcRead 1 1 s, ?_, fun i => ?_, rfl⟩
    · rw [scanLoop, (byteInSrc_cons (noFail_head hs) hr).1]
      simp only
      rw [countByte_full (by have := hv; simp only [occurrences, List.map_nil, List.count_nil, Nat.add_zero] at this; exact this)]
      simp [srcRead]
    · simp [occurrences, State.count, srcRead]
  | cons w p ih =>
    obtain ⟨fuel, rfl⟩ : ∃ k, fuel = k + 1 := ⟨fuel - 1, by simp at hf; omega⟩
    have hw := hc w (by simp)
    rw [occurrences_cons, if_pos rfl] at hw
    rw [scanStep fuel hs hr (by omega)]
    generalize hu : (srcRead 1 1 s).setCount (byteIdx w) (s.count (byteIdx w) + 1) = u
    have hcu : ∀ i, u.count i = s.count i + if byteIdx w = i then 1 else 0 := fun i => by
      rw [← hu, count_setCount]
      by_cases e : byteIdx w = i
      · subst e; simp
      · rw [if_neg e, if_neg e]; rfl
    have hsu : u = { s with ft := u.ft, src := { s.src with pos := s.src.pos + 1, oracle := s.src.oracle.drop 1 } } := by
      rw [← hu]; rfl
    have hru : u.src.rest = p ++ v :: r := by
      rw [← hu, setCount_src, srcRead_rest, hr]; rfl
    have hmu : u.cfg = s.cfg := by rw [hsu]
    obtain ⟨t, ht, hct, hst⟩ := ih (s := u) fuel hru (by simpa using hf)
      (by rw [hsu]; exact noFail_drop 1 hs)
      (fun b hb => by
        have := hc b (by simp [hb])
        rw [occurrences_cons] at this
        rw [hcu, hmu]; omega)
      (by rw [hcu, hmu, ← hv, occurrences_cons]; omega)
    refine ⟨t, ht, fun i => ?_, ?_⟩
    · rw [hct, hcu, occurrences_cons]; omega
    · rw [hst, hsu]
      simp only [List.length_cons, List.drop_drop, Nat.add_assoc, Nat.add_comm 1]

end Sys2Proof.Machine
end

