-- ==== Sys2Proof/Laws/Queue.lean ====
section
/-! SUPPORT. The priority queue of BUILD (41_tree_builder.md R160 to R165). -/

namespace Sys2Proof.Machine

/-! ## The order of keys -/

theorem less_iff (s : State) (a b : Index) :
    less s a b = true ↔ s.weight a < s.weight b ∨ (s.weight a = s.weight b ∧ a.toNat < b.toNat) := by
  simp [less]

theorem less_irrefl (s : State) (a : Index) : less s a a ≠ true := by
  rw [Ne, less_iff]; omega

theorem less_trans {s : State} {a b c : Index} (h : less s a b = true) (k : less s b c = true) :
    less s a c = true := by
  rw [less_iff] at *; omega

theorem less_total {s : State} {a b : Index} (h : a ≠ b) : less s a b = true ∨ less s b a = true := by
  have : a.toNat ≠ b.toNat := fun e => h (BitVec.eq_of_toNat_eq e)
  rw [less_iff, less_iff]; omega

theorem less_congr {s t : State} (h : t.node = s.node) (a b : Index) : less t a b = less s a b := by
  have hw : ∀ n, t.weight n = s.weight n := fun n => by rw [State.weight, State.weight, State.nodeAt?, State.nodeAt?, h]
  rw [less, less, hw, hw]

/-! ## Queues as lists -/

/-- Only the queue may differ. -/
def QueueOnly (s t : State) : Prop := t = { s with heap := t.heap, hsize := t.hsize }

theorem QueueOnly.trans' {s t u : State} (h : QueueOnly s t) (k : QueueOnly t u) : QueueOnly s u := by
  unfold QueueOnly at *; rw [h] at k; exact k

theorem QueueOnly.node {s t : State} (h : QueueOnly s t) : t.node = s.node := by rw [h]

theorem queue_length {s : State} (h : s.hsize.toNat ≤ 257) : (queue s).length = s.hsize.toNat := by
  simp [queue, h]

theorem heapAt_eq {s : State} {i : Nat} (hi : i < (queue s).length) : (queue s)[i] = heapAt s i := by
  have hi' : i < 257 := by simp [queue] at hi; omega
  simp [queue, heapAt, hi']

theorem queue_setHeap (s : State) (i : Nat) (n : Index) :
    queue (setHeap i n s) = (queue s).set i n := by
  simp [queue, setHeap, List.take_set]

theorem queue_swapHeap (s : State) (i j : Nat) :
    queue (swapHeap i j s) = ((queue s).set i (heapAt s j)).set j (heapAt s i) := by
  rw [swapHeap, queue_setHeap, queue_setHeap]

theorem queueOnly_swapHeap (s : State) (i j : Nat) : QueueOnly s (swapHeap i j s) := rfl

theorem swap_perm {l : List Index} {i j : Nat} (hi : i < l.length) (hj : j < l.length) :
    ((l.set i l[j]).set j l[i]).Perm l := by
  rw [List.perm_iff_count]
  intro a
  rw [List.count_set (by simpa using hj), List.count_set hi, List.getElem_set]
  have h1 : l[i] = a → 1 ≤ l.count a := fun e => by
    rw [← e]; exact List.one_le_count_iff.mpr (List.getElem_mem hi)
  have h2 : l[j] = a → 1 ≤ l.count a := fun e => by
    rw [← e]; exact List.one_le_count_iff.mpr (List.getElem_mem hj)
  by_cases e : i = j
  · subst e
    simp only [if_true, beq_iff_eq]
    split
    · rename_i h; have := h1 h; omega
    · omega
  · rw [if_neg e]
    simp only [beq_iff_eq]
    by_cases a1 : l[i] = a <;> by_cases a2 : l[j] = a <;> simp only [a1, a2, if_true, if_false]
    · have := h1 a1; omega
    · have := h1 a1; omega
    · have := h2 a2; omega
    · omega

theorem swapHeap_perm {s : State} {i j : Nat} (hi : i < (queue s).length) (hj : j < (queue s).length) :
    (queue (swapHeap i j s)).Perm (queue s) := by
  rw [queue_swapHeap, ← heapAt_eq hi, ← heapAt_eq hj]
  exact swap_perm hi hj

theorem heapAt_swapHeap {s : State} {i j : Nat} (k : Nat) (hi : i < 257) (hj : j < 257) :
    heapAt (swapHeap i j s) k = if k = j then heapAt s i else if k = i then heapAt s j else heapAt s k := by
  simp only [swapHeap, setHeap, heapAt, Vector.getElem?_setIfInBounds]
  by_cases e1 : k = j
  · subst e1; simp [hj]
  · rw [if_neg (Ne.symm e1), if_neg e1]
    by_cases e2 : k = i
    · subst e2; simp [hi]
    · rw [if_neg (Ne.symm e2), if_neg e2]

/-- The key of position `i` comes before that of position `j`. -/
abbrev Before (s : State) (i j : Nat) : Prop := less s (heapAt s i) (heapAt s j) = true

theorem heapAt_ne {s : State} {i j : Nat} (h : (queue s).Nodup) (hs : s.hsize.toNat ≤ 257)
    (hi : i < s.hsize.toNat) (hj : j < s.hsize.toNat) (e : i ≠ j) : heapAt s i ≠ heapAt s j := by
  have hl := queue_length hs
  intro he
  rw [← heapAt_eq (by omega), ← heapAt_eq (by omega)] at he
  exact e ((List.Nodup.getElem_inj_iff h).mp he)

/-! ## Insertion -/

/-- The loop of `PQ_INSERT` mends a heap whose one defect is at `i` (41_tree_builder.md R163). -/
theorem siftUp_ok {s : State} (fuel i : Nat) (hf : i ≤ fuel) (hs : s.hsize.toNat ≤ 257)
    (hi : i < s.hsize.toNat) (hn : (queue s).Nodup)
    (h1 : ∀ j, 1 ≤ j → j < s.hsize.toNat → j ≠ i → Before s ((j - 1) / 2) j)
    (h2 : ∀ j, 1 ≤ i → 1 ≤ j → j < s.hsize.toNat → (j - 1) / 2 = i → Before s ((i - 1) / 2) j) :
    QueueOnly s (siftUp fuel i s) ∧ (siftUp fuel i s).hsize = s.hsize ∧
      (queue (siftUp fuel i s)).Perm (queue s) ∧ HeapOk (siftUp fuel i s) := by
  induction fuel generalizing s i with
  | zero =>
    obtain rfl : i = 0 := by omega
    exact ⟨rfl, rfl, .refl _, hs, hn, fun j a b => h1 j a b (by omega)⟩
  | succ fuel ih =>
    rw [siftUp]
    by_cases h0 : i = 0
    · rw [if_pos h0]
      exact ⟨rfl, rfl, .refl _, hs, hn, fun j a b => h1 j a b (by omega)⟩
    rw [if_neg h0]
    have hp : (i - 1) / 2 < i := by omega
    have hne : heapAt s i ≠ heapAt s ((i - 1) / 2) := heapAt_ne hn hs hi (by omega) (by omega)
    by_cases hl : less s (heapAt s i) (heapAt s ((i - 1) / 2)) = true
    · rw [if_pos hl]
      have hq := queue_length hs
      have hperm := swapHeap_perm (s := s) (i := i) (j := (i - 1) / 2) (by omega) (by omega)
      have hat := fun k => heapAt_swapHeap (s := s) (i := i) (j := (i - 1) / 2) k (by omega) (by omega)
      generalize hu : swapHeap i ((i - 1) / 2) s = u at hperm hat ⊢
      have hnu : u.node = s.node := by rw [← hu]; rfl
      have hsu : u.hsize = s.hsize := by rw [← hu]; rfl
      have hbu : ∀ a b, less u a b = less s a b := less_congr hnu
      have k1 : ∀ j, 1 ≤ j → j < u.hsize.toNat → j ≠ (i - 1) / 2 → Before u ((j - 1) / 2) j := by
        intro j a b c
        rw [hsu] at b
        rw [Before, hbu, hat, hat]
        by_cases e : j = i
        · subst e; rw [if_pos rfl, if_neg (by omega), if_pos rfl]; exact hl
        · rw [if_neg c, if_neg e]
          by_cases e2 : (j - 1) / 2 = (i - 1) / 2
          · rw [if_pos e2]; exact less_trans hl (e2 ▸ h1 j a b e)
          · rw [if_neg e2]
            by_cases e3 : (j - 1) / 2 = i
            · rw [if_pos e3]; exact h2 j (by omega) a b e3
            · rw [if_neg e3]; exact h1 j a b e
      have k2 : ∀ j, 1 ≤ (i - 1) / 2 → 1 ≤ j → j < u.hsize.toNat → (j - 1) / 2 = (i - 1) / 2 →
          Before u (((i - 1) / 2 - 1) / 2) j := by
        intro j a b c d
        rw [hsu] at c
        rw [Before, hbu, hat, hat, if_neg (by omega), if_neg (by omega), if_neg (by omega)]
        have hgp := h1 ((i - 1) / 2) a (by omega) (by omega)
        by_cases e : j = i
        · rw [if_pos e]; exact hgp
        · rw [if_neg e]; exact less_trans hgp (d ▸ h1 j b c e)
      obtain ⟨g1, g2, g3, g4⟩ := ih (s := u) ((i - 1) / 2) (by omega) (by rw [hsu]; exact hs)
        (by rw [hsu]; omega) (hperm.nodup_iff.mpr hn) k1 k2
      exact ⟨QueueOnly.trans' (by rw [← hu]; rfl) g1, g2.trans hsu, g3.trans hperm, g4⟩
    · rw [if_neg hl]
      refine ⟨rfl, rfl, .refl _, hs, hn, fun j a b => ?_⟩
      by_cases e : j = i
      · subst e; exact (less_total hne).resolve_left hl
      · exact h1 j a b e

theorem setHeap_heapAt {s : State} {i : Nat} (n : Index) (k : Nat) (hi : i < 257) :
    heapAt (setHeap i n s) k = if k = i then n else heapAt s k := by
  simp only [setHeap, heapAt, Vector.getElem?_setIfInBounds]
  by_cases e : k = i
  · subst e; simp [hi]
  · rw [if_neg (Ne.symm e), if_neg e]

/-- `PQ_INSERT` adds one entry and keeps the heap invariant (41_tree_builder.md R162, R163). -/
theorem pqInsert_ok {s : State} {n : Index} (h : HeapOk s) (hk : s.hsize.toNat < 257)
    (hn : n ∉ queue s) :
    QueueOnly s (pqInsert n s) ∧ (pqInsert n s).hsize.toNat = s.hsize.toNat + 1 ∧
      (queue (pqInsert n s)).Perm (n :: queue s) ∧ HeapOk (pqInsert n s) := by
  obtain ⟨hs, hd, hh⟩ := h
  have h1 : (s.hsize + 1).toNat = s.hsize.toNat + 1 := by
    rw [BitVec.toNat_add]; simp; omega
  rw [pqInsert]
  generalize hu : (setHeap s.hsize.toNat n s).setHsize (s.hsize + 1) = u
  have hsu : u.hsize.toNat = s.hsize.toNat + 1 := by rw [← hu]; exact h1
  have hnu : u.node = s.node := by rw [← hu]; rfl
  have hat : ∀ k, heapAt u k = if k = s.hsize.toNat then n else heapAt s k := fun k => by
    rw [← hu]; exact setHeap_heapAt n k hk
  have hqu : queue u = queue s ++ [n] := by
    rw [← hu]
    simp only [queue, setHsize_hsize, setHsize_heap, setHeap_heap, h1]
    rw [List.take_add_one]
    simp [List.take_set, List.set_eq_of_length_le, hk]
  have hdu : (queue u).Nodup := by
    rw [hqu, List.nodup_append]
    refine ⟨hd, by simp, fun a ha b hb => ?_⟩
    simp at hb; subst hb; exact fun e => hn (e ▸ ha)
  obtain ⟨g1, g2, g3, g4⟩ := siftUp_ok (s := u) s.hsize.toNat s.hsize.toNat (Nat.le_refl _) (by omega)
    (by omega) hdu
    (fun j a b c => by
      rw [Before, less_congr hnu, hat, hat, if_neg c, if_neg (by omega)]
      exact hh j a (by omega))
    (fun j a b c d => by omega)
  refine ⟨QueueOnly.trans' (by rw [← hu]; rfl) g1, by rw [g2, hsu], g3.trans ?_, g4⟩
  rw [hqu]; exact List.perm_append_singleton n _

/-! ## Extraction -/

/-- The root of a heap has the smallest key (41_tree_builder.md R162). -/
theorem heapOk_min {s : State} (h : HeapOk s) {i : Nat} (hi : i < s.hsize.toNat) (h0 : i ≠ 0) :
    Before s 0 i := by
  induction i using Nat.strong_induction_on with
  | _ i ih =>
    have hp := h.2.2 i (by omega) hi
    by_cases e : (i - 1) / 2 = 0
    · rw [e] at hp; exact hp
    · exact less_trans (ih ((i - 1) / 2) (by omega) (by omega) e) hp

/-- The smaller of a position and a candidate child, by cases. -/
theorem smallerOf_cases (s : State) (k c : Nat) :
    (k < s.hsize.toNat ∧ Before s k c ∧ smallerOf s k c = k) ∨
    (¬ (k < s.hsize.toNat ∧ Before s k c) ∧ smallerOf s k c = c) := by
  by_cases h : k < s.hsize.toNat ∧ less s (heapAt s k) (heapAt s c) = true
  · left; exact ⟨h.1, h.2, by rw [smallerOf, if_pos (by simp [h.1, h.2])]⟩
  · right; refine ⟨h, ?_⟩; rw [smallerOf, if_neg]; simpa using h

/-- The loop of `PQ_EXTRACT_MIN` mends a heap whose one defect is at `i` (41_tree_builder.md R164). -/
theorem siftDown_ok {s : State} (fuel i : Nat) (hf : s.hsize.toNat ≤ fuel + i) (hs : s.hsize.toNat ≤ 257)
    (hi : i < s.hsize.toNat) (hn : (queue s).Nodup)
    (h1 : ∀ j, 1 ≤ j → j < s.hsize.toNat → (j - 1) / 2 ≠ i → Before s ((j - 1) / 2) j)
    (h2 : ∀ j, 1 ≤ i → 1 ≤ j → j < s.hsize.toNat → (j - 1) / 2 = i → Before s ((i - 1) / 2) j) :
    QueueOnly s (siftDown fuel i s) ∧ (siftDown fuel i s).hsize = s.hsize ∧
      (queue (siftDown fuel i s)).Perm (queue s) ∧ HeapOk (siftDown fuel i s) := by
  induction fuel generalizing s i with
  | zero => omega
  | succ fuel ih =>
    rw [siftDown]
    -- the chosen position, with what is known of it
    obtain ⟨c, hc, hcb, hcp⟩ : ∃ c, smallerOf s (2 * i + 2) (smallerOf s (2 * i + 1) i) = c ∧
        (c = i ∨ ((c - 1) / 2 = i ∧ 1 ≤ c ∧ c < s.hsize.toNat ∧ Before s c i)) ∧
        ∀ j, 1 ≤ j → j < s.hsize.toNat → (j - 1) / 2 = i → j ≠ c → Before s c j := by
      have hj : ∀ j, 1 ≤ j → (j - 1) / 2 = i → j = 2 * i + 1 ∨ j = 2 * i + 2 := by omega
      rcases smallerOf_cases s (2 * i + 1) i with ⟨a1, a2, a3⟩ | ⟨a1, a3⟩ <;> rw [a3]
      · rcases smallerOf_cases s (2 * i + 2) (2 * i + 1) with ⟨b1, b2, b3⟩ | ⟨b1, b3⟩ <;> rw [b3]
        · refine ⟨_, rfl, .inr ⟨by omega, by omega, b1, less_trans b2 a2⟩, fun j c1 c2 c3 c4 => ?_⟩
          obtain rfl : j = 2 * i + 1 := (hj j c1 c3).resolve_right c4
          exact b2
        · refine ⟨_, rfl, .inr ⟨by omega, by omega, a1, a2⟩, fun j c1 c2 c3 c4 => ?_⟩
          obtain rfl : j = 2 * i + 2 := (hj j c1 c3).resolve_left c4
          exact (less_total (heapAt_ne hn hs a1 c2 (by omega))).resolve_right fun e => b1 ⟨c2, e⟩
      · rcases smallerOf_cases s (2 * i + 2) i with ⟨b1, b2, b3⟩ | ⟨b1, b3⟩ <;> rw [b3]
        · refine ⟨_, rfl, .inr ⟨by omega, by omega, b1, b2⟩, fun j c1 c2 c3 c4 => ?_⟩
          obtain rfl : j = 2 * i + 1 := (hj j c1 c3).resolve_right c4
          exact less_trans b2 ((less_total (heapAt_ne hn hs hi c2 (by omega))).resolve_right fun e => a1 ⟨c2, e⟩)
        · refine ⟨_, rfl, .inl rfl, fun j c1 c2 c3 c4 => ?_⟩
          rcases hj j c1 c3 with rfl | rfl
          · exact (less_total (heapAt_ne hn hs hi c2 (by omega))).resolve_right fun e => a1 ⟨c2, e⟩
          · exact (less_total (heapAt_ne hn hs hi c2 (by omega))).resolve_right fun e => b1 ⟨c2, e⟩
    rw [hc]
    by_cases e : c = i
    · rw [if_pos e]
      refine ⟨rfl, rfl, .refl _, hs, hn, fun j a b => ?_⟩
      by_cases e2 : (j - 1) / 2 = i
      · rw [e2]; rw [e] at hcp; exact hcp j a b e2 (by omega)
      · exact h1 j a b e2
    · rw [if_neg e]
      obtain ⟨hp, hc1, hck, hci⟩ := hcb.resolve_left e
      have hq := queue_length hs
      have hperm := swapHeap_perm (s := s) (i := i) (j := c) (by omega) (by omega)
      have hat := fun k => heapAt_swapHeap (s := s) (i := i) (j := c) k (by omega) (by omega)
      generalize hu : swapHeap i c s = u at hperm hat ⊢
      have hnu : u.node = s.node := by rw [← hu]; rfl
      have hsu : u.hsize = s.hsize := by rw [← hu]; rfl
      have hbu : ∀ a b, less u a b = less s a b := less_congr hnu
      have k1 : ∀ j, 1 ≤ j → j < u.hsize.toNat → (j - 1) / 2 ≠ c → Before u ((j - 1) / 2) j := by
        intro j a b d
        rw [hsu] at b
        rw [Before, hbu, hat, hat, if_neg d]
        by_cases e3 : (j - 1) / 2 = i
        · rw [if_pos e3]
          by_cases e4 : j = c
          · rw [if_pos e4]; exact hci
          · rw [if_neg e4, if_neg (by omega)]; exact hcp j a b e3 e4
        · rw [if_neg e3, if_neg (by omega)]
          by_cases e5 : j = i
          · rw [if_pos e5]; exact e5 ▸ h2 c (by omega) hc1 hck hp
          · rw [if_neg e5]; exact h1 j a b e3
      have k2 : ∀ j, 1 ≤ c → 1 ≤ j → j < u.hsize.toNat → (j - 1) / 2 = c →
          Before u ((c - 1) / 2) j := by
        intro j a b d f
        rw [hsu] at d
        rw [Before, hbu, hat, hat, if_neg (by omega), if_pos hp, if_neg (by omega), if_neg (by omega)]
        rw [← f]; exact h1 j b d (by omega)
      obtain ⟨g1, g2, g3, g4⟩ := ih (s := u) c (by rw [hsu]; omega) (by rw [hsu]; exact hs)
        (by rw [hsu]; exact hck) (hperm.nodup_iff.mpr hn) k1 k2
      exact ⟨QueueOnly.trans' (by rw [← hu]; rfl) g1, g2.trans hsu, g3.trans hperm, g4⟩

theorem take_set_perm {l : List Index} {m : Nat} (hm : 0 < m) (h : l.length = m + 1) :
    l.Perm (l[0] :: (l.take m).set 0 l[m]) := by
  match l with
  | [] => simp at h
  | x :: r =>
    obtain ⟨k, rfl⟩ : ∃ k, m = k + 1 := ⟨m - 1, by omega⟩
    simp only [List.length_cons] at h
    simp only [List.getElem_cons_zero, List.getElem_cons_succ, List.take_succ_cons, List.set_cons_zero]
    refine List.Perm.cons _ ?_
    have hr : r = r.take k ++ [r[k]] := by
      conv_lhs => rw [← List.take_append_drop k r]
      rw [List.drop_eq_getElem_cons (by omega), List.drop_of_length_le (by omega)]
    conv_lhs => rw [hr]
    exact List.perm_append_singleton _ _

/-- `PQ_EXTRACT_MIN` takes the entry of the smallest key and keeps the heap invariant
(41_tree_builder.md R162, R164, R165). -/
theorem pqExtractMin_ok {s : State} (h : HeapOk s) (hk : 1 ≤ s.hsize.toNat) :
    QueueOnly s (pqExtractMin s).2 ∧ (pqExtractMin s).2.hsize.toNat = s.hsize.toNat - 1 ∧
      (queue s).Perm ((pqExtractMin s).1 :: queue (pqExtractMin s).2) ∧ HeapOk (pqExtractMin s).2 ∧
      ∀ x ∈ queue s, x ≠ (pqExtractMin s).1 → less s (pqExtractMin s).1 x = true := by
  obtain ⟨hs, hd, hh⟩ := id h
  have hq := queue_length hs
  have h1 : (s.hsize - 1).toNat = s.hsize.toNat - 1 := by
    have := s.hsize.isLt
    rw [BitVec.toNat_sub]; simp; omega
  have hmin : ∀ x ∈ queue s, x ≠ heapAt s 0 → less s (heapAt s 0) x = true := fun x hx hne => by
    obtain ⟨i, hi, rfl⟩ := List.mem_iff_getElem.mp hx
    rw [heapAt_eq] at hne ⊢
    exact heapOk_min h (by omega) (fun e => hne (by rw [e]))
  have hcut : queue (s.setHsize (s.hsize - 1)) = (queue s).take (s.hsize.toNat - 1) := by
    simp only [queue, setHsize_hsize, setHsize_heap, h1, List.take_take]
    congr 1; omega
  rw [pqExtractMin]
  simp only [setHsize_hsize, h1]
  by_cases h0 : s.hsize.toNat - 1 = 0
  · rw [if_pos h0]
    refine ⟨rfl, h1, ?_, ⟨by simp; omega, ?_, ?_⟩, hmin⟩
    · rw [hcut, h0, List.take_zero]
      obtain ⟨x, hx⟩ := List.length_eq_one_iff.mp (show (queue s).length = 1 by omega)
      rw [hx, ← heapAt_eq (i := 0) (by omega)]
      simp [hx]
    · rw [hcut]; exact hd.sublist (List.take_sublist _ _)
    · intro i a b; rw [setHsize_hsize, h1] at b; omega
  · rw [if_neg h0]
    have hkl : heapAt (s.setHsize (s.hsize - 1)) (s.hsize.toNat - 1) = heapAt s (s.hsize.toNat - 1) := rfl
    rw [hkl]
    generalize hu : setHeap 0 (heapAt s (s.hsize.toNat - 1)) (s.setHsize (s.hsize - 1)) = u
    have hsu : u.hsize.toNat = s.hsize.toNat - 1 := by rw [← hu]; exact h1
    have hnu : u.node = s.node := by rw [← hu]; rfl
    have hat : ∀ k, heapAt u k = if k = 0 then heapAt s (s.hsize.toNat - 1) else heapAt s k := fun k => by
      rw [← hu]; exact setHeap_heapAt _ k (by omega)
    have hperm : (queue s).Perm (heapAt s 0 :: queue u) := by
      rw [← hu, queue_setHeap, hcut, ← heapAt_eq (i := 0) (by omega), ← heapAt_eq (i := s.hsize.toNat - 1) (by omega)]
      exact take_set_perm (by omega) (by omega)
    have hdu : (queue u).Nodup := (List.nodup_cons.mp (hperm.nodup_iff.mp hd)).2
    obtain ⟨g1, g2, g3, g4⟩ := siftDown_ok (s := u) (s.hsize.toNat - 1) 0 (by omega) (by omega) (by omega) hdu
      (fun j a b c => by
        rw [Before, less_congr hnu, hat, hat, if_neg (by omega), if_neg (by omega)]
        exact hh j a (by omega))
      (fun j a => by omega)
    exact ⟨QueueOnly.trans' (by rw [← hu]; rfl) g1, by rw [g2, hsu], hperm.trans (.cons _ g3.symm), g4, hmin⟩

end Sys2Proof.Machine
end

