-- ==== Sys2Proof/Laws/Build.lean ====
section
/-! SUPPORT. The tree builder (41_tree_builder.md R166 to R174). -/

namespace Sys2Proof.Machine

/-! ## The least twig -/

/-- The key order on twigs, as a proposition. -/
def Twig.lt (a b : Twig) : Prop := a.weight < b.weight ∨ (a.weight = b.weight ∧ a.index.toNat < b.index.toNat)

theorem Twig.least_cases (a b : Twig) :
    (b.lt a ∧ a.least b = b) ∨ (¬ b.lt a ∧ a.least b = a) := by
  by_cases h : b.lt a
  · exact .inl ⟨h, if_pos h⟩
  · exact .inr ⟨h, if_neg h⟩

theorem foldl_least (l : List Twig) (a : Twig) :
    l.foldl Twig.least a ∈ a :: l ∧ ∀ x ∈ a :: l, ¬ x.lt (l.foldl Twig.least a) := by
  induction l generalizing a with
  | nil => simp [Twig.lt]
  | cons b l ih =>
    rw [List.foldl_cons]
    obtain ⟨h1, h2⟩ := ih (a.least b)
    rcases Twig.least_cases a b with ⟨hb, e⟩ | ⟨hb, e⟩ <;> rw [e] at h1 h2 ⊢
    · refine ⟨List.mem_cons_of_mem _ h1, fun x hx => ?_⟩
      rcases List.mem_cons.mp hx with rfl | hx
      · have := h2 b (by simp)
        simp only [Twig.lt] at *; omega
      · exact h2 x hx
    · refine ⟨?_, fun x hx => ?_⟩
      · rcases List.mem_cons.mp h1 with h | h
        · rw [h]; simp
        · exact List.mem_cons_of_mem _ (List.mem_cons_of_mem _ h)
      · rcases List.mem_cons.mp hx with rfl | hx
        · exact h2 x (by simp)
        · rcases List.mem_cons.mp hx with rfl | hx
          · have := h2 a (by simp)
            simp only [Twig.lt] at *; omega
          · exact h2 x (by simp [hx])

/-- Everything `takeLeast` can do on a list with something in it. -/
theorem takeLeast_ok {l : List Twig} (h : l ≠ []) :
    ∃ m r, takeLeast l = some (m, r) ∧ m ∈ l ∧ r = l.erase m ∧ ∀ x ∈ l, ¬ x.lt m := by
  cases l with
  | nil => exact absurd rfl h
  | cons a l =>
    obtain ⟨h1, h2⟩ := foldl_least l a
    exact ⟨_, _, rfl, h1, rfl, h2⟩

/-! ## Forests -/

/-- The node memory holds the trees of a list of twigs, `ns` being the indices of all their records. -/
inductive Stored (v : Vector NodeRec 513) : List Twig → List Nat → Prop
  | nil : Stored v [] []
  | cons {f : Twig} {l : List Twig} {m ns : List Nat} (h : Holds v f.tree f.index m)
      (k : Stored v l ns) : Stored v (f :: l) (m ++ ns)

theorem Stored.perm {v : Vector NodeRec 513} {l l' : List Twig} {ns : List Nat} (h : Stored v l ns)
    (p : l.Perm l') : ∃ ns', Stored v l' ns' ∧ ns.Perm ns' := by
  induction p generalizing ns with
  | nil => exact ⟨ns, h, .refl _⟩
  | cons x _ ih =>
    cases h with
    | cons hf hk =>
      obtain ⟨ms, k, p⟩ := ih hk
      exact ⟨_, .cons hf k, .append_left _ p⟩
  | swap x y l =>
    cases h with
    | cons hf hk =>
      cases hk with
      | cons hg hk =>
        refine ⟨_, .cons hg (.cons hf hk), ?_⟩
        rw [← List.append_assoc, ← List.append_assoc]
        exact .append_right _ List.perm_append_comm
  | trans _ _ ih1 ih2 =>
    obtain ⟨ms, k, p⟩ := ih1 h
    obtain ⟨ms', k', p'⟩ := ih2 k
    exact ⟨ms', k', p.trans p'⟩

theorem Stored.congr {v w : Vector NodeRec 513} {l : List Twig} {ns : List Nat} (h : Stored v l ns)
    (e : ∀ i ∈ ns, w[i]? = v[i]?) : Stored w l ns := by
  induction h with
  | nil => exact .nil
  | cons hf _ ih =>
    exact .cons (hf.congr fun i hi => e i (by simp [hi])) (ih fun i hi => e i (by simp [hi]))

theorem Stored.append {v : Vector NodeRec 513} {l m : List Twig} {ns ms : List Nat} (h : Stored v l ns)
    (k : Stored v m ms) : Stored v (l ++ m) (ns ++ ms) := by
  induction h with
  | nil => exact k
  | cons hf _ ih => rw [List.cons_append, List.append_assoc]; exact .cons hf ih

theorem Stored.index_mem {v : Vector NodeRec 513} {l : List Twig} {ns : List Nat} (h : Stored v l ns) :
    ∀ f ∈ l, f.index.toNat ∈ ns := by
  induction h with
  | nil => simp
  | cons hf _ ih =>
    intro g hg
    rcases List.mem_cons.mp hg with rfl | hg
    · simp [hf.head_mem]
    · simp [ih g hg]

/-- The queue holds the twigs `l`, whose trees fill the node records below `nn` exactly. -/
structure Forest (s : State) (l : List Twig) : Prop where
  heap : HeapOk s
  entries : (queue s).Perm (l.map Twig.index)
  weights : ∀ f ∈ l, s.weight f.index = f.weight
  stored : ∃ ns, Stored s.node l ns ∧ ns.Perm (List.range s.nn.toNat)

theorem Forest.length {s : State} {l : List Twig} (h : Forest s l) : l.length = s.hsize.toNat := by
  rw [← queue_length h.heap.1, h.entries.length_eq, List.length_map]

theorem Forest.index_lt {s : State} {l : List Twig} (h : Forest s l) :
    ∀ f ∈ l, f.index.toNat < s.nn.toNat := by
  obtain ⟨ns, hs, hp⟩ := h.stored
  intro f hf
  exact List.mem_range.mp (hp.mem_iff.mp (hs.index_mem f hf))

theorem Forest.index_inj {s : State} {l : List Twig} (h : Forest s l) {f g : Twig} (hf : f ∈ l)
    (hg : g ∈ l) (e : f.index = g.index) : f = g := by
  have hn : (l.map Twig.index).Nodup := h.entries.nodup_iff.mp h.heap.2.1
  exact List.inj_on_of_nodup_map hn hf hg e

/-- Only what the loops of `BUILD` write may differ. -/
def BuildOnly (s t : State) : Prop :=
  t = { s with node := t.node, nn := t.nn, heap := t.heap, hsize := t.hsize }

theorem BuildOnly.trans' {s t u : State} (h : BuildOnly s t) (k : BuildOnly t u) : BuildOnly s u := by
  unfold BuildOnly at *; rw [h] at k; exact k

theorem QueueOnly.buildOnly {s t : State} (h : QueueOnly s t) : BuildOnly s t := by
  unfold QueueOnly at h; unfold BuildOnly; rw [h]

/-- The least twig comes out of the queue (41_tree_builder.md R165). -/
theorem Forest.extract {s : State} {l : List Twig} (h : Forest s l) (hne : l ≠ []) :
    ∃ m, takeLeast l = some (m, l.erase m) ∧ m ∈ l ∧ (pqExtractMin s).1 = m.index ∧
      QueueOnly s (pqExtractMin s).2 ∧
      HeapOk (pqExtractMin s).2 ∧ (queue (pqExtractMin s).2).Perm ((l.erase m).map Twig.index) := by
  obtain ⟨m, r, e, hm, rfl, hmin⟩ := takeLeast_ok hne
  have hk : 1 ≤ s.hsize.toNat := by
    rw [← h.length]; exact List.length_pos_iff.mpr hne
  obtain ⟨q1, _, q3, q4, q5⟩ := pqExtractMin_ok h.heap hk
  have hme : (pqExtractMin s).1 = m.index := by
    have hmem : (pqExtractMin s).1 ∈ l.map Twig.index :=
      h.entries.mem_iff.mp (q3.mem_iff.mpr (by simp))
    obtain ⟨f, hf, hfe⟩ := List.mem_map.mp hmem
    by_contra hne
    have hl := q5 m.index (h.entries.mem_iff.mpr (List.mem_map.mpr ⟨m, hm, rfl⟩)) (Ne.symm hne)
    rw [← hfe, less_iff, h.weights f hf, h.weights m hm] at hl
    exact hmin f hf hl
  refine ⟨m, e, hm, hme, q1, q4, ?_⟩
  rw [hme] at q3
  have hp : (l.map Twig.index).Perm (m.index :: (l.erase m).map Twig.index) := by
    rw [← List.map_cons]; exact (List.perm_cons_erase hm).map _
  exact List.Perm.cons_inv (q3.symm.trans (h.entries.trans hp))

theorem weight_setNode {s : State} {n i : Index} (r : NodeRec) (h : n ≠ i) :
    (s.setNode n r).weight i = s.weight i := by
  rw [State.weight, State.weight, State.nodeAt?, State.nodeAt?, setNode_getElem?,
    if_neg fun e => h (BitVec.eq_of_toNat_eq e)]

theorem weight_setNode_self {s : State} {n : Index} (r : NodeRec) (h : n.toNat < 513) :
    (s.setNode n r).weight n = r.w := by
  rw [State.weight, State.nodeAt?, setNode_getElem?, if_pos rfl, if_pos h]; rfl

theorem HeapOk.setNode {s : State} {n : Index} {r : NodeRec} (h : HeapOk s) (hn : n ∉ queue s) :
    HeapOk (s.setNode n r) := by
  refine ⟨h.1, h.2.1, fun i a b => ?_⟩
  have hq := queue_length h.1
  have hmem : ∀ k, k < s.hsize.toNat → heapAt s k ∈ queue s := fun k hk => by
    rw [← heapAt_eq (by omega)]; exact List.getElem_mem _
  have hw : ∀ k, k < s.hsize.toNat → (s.setNode n r).weight (heapAt s k) = s.weight (heapAt s k) :=
    fun k hk => weight_setNode r fun e => hn (e ▸ hmem k hk)
  have := h.2.2 i a b
  rw [less_iff] at this ⊢
  show (s.setNode n r).weight (heapAt s _) < _ ∨ _
  rw [show heapAt (s.setNode n r) i = heapAt s i from rfl, show heapAt (s.setNode n r) ((i-1)/2) = heapAt s ((i-1)/2) from rfl,
    hw i b, hw _ (by have : i < s.hsize.toNat := b; omega)]
  exact this

/-- A new record at `nn` joins the queue: `NODE[nn] <- r ; PQ_INSERT(nn) ; nn <- nn + 1`
(41_tree_builder.md R166, R167). `l` are the twigs that stay, `gone` the records of those the new tree
takes in. -/
theorem push {s : State} {l : List Twig} {r : NodeRec} {tree : CodeTree} {m ns : List Nat}
    (hh : HeapOk s) (hq : (queue s).Perm (l.map Twig.index)) (hw : ∀ f ∈ l, s.weight f.index = f.weight)
    (hs : Stored s.node l ns) (hn : s.nn.toNat < 513) (hk : l.length < 257)
    (hp : (m ++ ns).Perm (List.range s.nn.toNat))
    (hH : Holds (s.setNode s.nn r).node tree s.nn (s.nn.toNat :: m)) :
    Forest (pqInsert s.nn (s.setNode s.nn r)).alloc ({ weight := r.w, index := s.nn, tree := tree } :: l) ∧
      (pqInsert s.nn (s.setNode s.nn r)).nn = s.nn ∧
      (pqInsert s.nn (s.setNode s.nn r)).node = (s.setNode s.nn r).node ∧
      BuildOnly s (pqInsert s.nn (s.setNode s.nn r)).alloc := by
  have hns : ∀ i ∈ ns, i < s.nn.toNat := fun i hi => List.mem_range.mp (hp.mem_iff.mp (by simp [hi]))
  have hlt : ∀ f ∈ l, f.index.toNat < s.nn.toNat := fun f hf => hns _ (hs.index_mem f hf)
  have hnq : s.nn ∉ queue s := fun h => by
    obtain ⟨f, hf, e⟩ := List.mem_map.mp (hq.mem_iff.mp h)
    have := hlt f hf; rw [e] at this; omega
  have hsz : s.hsize.toNat < 257 := by
    rw [← queue_length hh.1, hq.length_eq, List.length_map]; exact hk
  obtain ⟨g1, g2, g3, g4⟩ := pqInsert_ok (s := s.setNode s.nn r) (n := s.nn) (hh.setNode hnq) hsz hnq
  generalize hu : pqInsert s.nn (s.setNode s.nn r) = u at *
  have hnu : u.nn = s.nn := by rw [g1]; rfl
  have hnode : u.node = (s.setNode s.nn r).node := g1.node
  have hwu : ∀ i, u.alloc.weight i = (s.setNode s.nn r).weight i := fun i => by
    rw [State.weight, State.weight, State.nodeAt?, State.nodeAt?, alloc_node, hnode]
  refine ⟨⟨?_, ?_, ?_, s.nn.toNat :: m ++ ns, ?_, ?_⟩, hnu, hnode, ?_⟩
  · exact g4
  · exact g3.trans (.cons _ hq)
  · intro f hf
    rw [hwu]
    rcases List.mem_cons.mp hf with rfl | hf
    · exact weight_setNode_self r hn
    · rw [weight_setNode r (fun e => by have := hlt f hf; rw [← e] at this; omega), hw f hf]
  · refine .cons ?_ (hs.congr fun i hi => ?_)
    · rw [alloc_node, hnode]; exact hH
    · rw [alloc_node, hnode, setNode_getElem?, if_neg (by have := hns i hi; omega)]
  · rw [alloc_nn, hnu, nn_succ hn, List.range_succ]
    exact (List.Perm.cons _ hp).trans (List.perm_append_singleton _ _).symm
  · have : BuildOnly s u := BuildOnly.trans' (t := s.setNode s.nn r) rfl g1.buildOnly
    exact this.trans' rfl

theorem Forest.perm {s : State} {l l' : List Twig} (h : Forest s l) (p : l.Perm l') : Forest s l' := by
  obtain ⟨ns, hs, hp⟩ := h.stored
  obtain ⟨ms, k, q⟩ := hs.perm p
  exact ⟨h.heap, h.entries.trans (p.map _), fun f hf => h.weights f (p.mem_iff.mpr hf), ms, k, q.symm.trans hp⟩

/-! ## Leaves -/

/-- The twig of a leaf (41_tree_builder.md R166). -/
def leafTwig (s : State) (n : Index) (i : SymIdx) : Twig :=
  { weight := s.count i, index := n, tree := .leaf (idxSymbol i) }

theorem addLeaf_ok {s : State} {l : List Twig} (i : SymIdx) (h : Forest s l) (hn : s.nn.toNat < 513)
    (hk : l.length < 257) :
    Forest (addLeaf s i) (l ++ [leafTwig s s.nn i]) ∧ (addLeaf s i).nn = s.nn + 1 ∧
      BuildOnly s (addLeaf s i) ∧ ∃ r : NodeRec, r.leaf = true ∧ r.sym = idxSymbol i ∧ r.w = s.count i ∧
        ∀ j, (addLeaf s i).node[j]? = if s.nn.toNat = j then some r else s.node[j]? := by
  obtain ⟨ns, hs, hp⟩ := h.stored
  have hget : ∀ (r : NodeRec) (j : Nat), (s.setNode s.nn r).node[j]? =
      if s.nn.toNat = j then some r else s.node[j]? := fun r j => by
    rw [setNode_getElem?]
    by_cases e : s.nn.toNat = j
    · rw [if_pos e, if_pos e, if_pos (by omega)]
    · rw [if_neg e, if_neg e]
  obtain ⟨r, hr⟩ : ∃ r : NodeRec,
      r = { freeNodeRec s s.nn.toNat with leaf := true, sym := idxSymbol i, w := s.count i } := ⟨_, rfl⟩
  obtain ⟨g1, g2, g3, g4⟩ := push (r := r) (s := s) (m := [])
    (tree := .leaf (idxSymbol i)) h.heap h.entries h.weights hs hn hk hp
    ⟨rfl, r, by rw [hget, if_pos rfl], by rw [hr], by rw [hr]⟩
  have ha : addLeaf s i = (pqInsert s.nn (s.setNode s.nn r)).alloc := by rw [hr]; rfl
  have hw : r.w = s.count i := by rw [hr]
  rw [← ha] at g1 g4
  rw [hw] at g1
  refine ⟨g1.perm (List.perm_append_singleton _ _).symm, by rw [ha, alloc_nn, g2], g4, r, by rw [hr],
    by rw [hr], hw, fun j => ?_⟩
  rw [ha, alloc_node, g3, hget]

theorem BuildOnly.count {s t : State} (h : BuildOnly s t) (i : SymIdx) : t.count i = s.count i := by
  rw [h]; rfl

/-- The leaf loop of `BUILD` (41_tree_builder.md R166). -/
theorem addLeaves_ok {L : List SymIdx} {s : State} {l : List Twig} (h : Forest s l)
    (hn : s.nn.toNat + L.length ≤ 513) (hk : l.length + L.length ≤ 257) :
    ∃ u, L.foldl addLeaf s = u ∧
      Forest u (l ++ (L.zipIdx s.nn.toNat).map fun e => leafTwig s (BitVec.ofNat 10 e.2) e.1) ∧
      u.nn.toNat = s.nn.toNat + L.length ∧ BuildOnly s u ∧
      (∀ j, j < s.nn.toNat ∨ u.nn.toNat ≤ j → u.node[j]? = s.node[j]?) ∧
      ∀ k, (hk : k < L.length) → ∃ r : NodeRec, u.node[s.nn.toNat + k]? = some r ∧ r.leaf = true ∧
        r.sym = idxSymbol L[k] ∧ r.w = s.count L[k] := by
  induction L generalizing s l with
  | nil => exact ⟨s, rfl, by simpa using h, by simp, rfl, fun _ _ => rfl, fun k hk => by simp at hk⟩
  | cons i L ih =>
    simp only [List.length_cons] at hn hk
    obtain ⟨f1, f2, f3, r, r1, r2, r3, f4⟩ := addLeaf_ok i h (by omega) (by omega)
    have hnn : (addLeaf s i).nn.toNat = s.nn.toNat + 1 := by rw [f2, nn_succ (by omega)]
    obtain ⟨u, e, g1, g2, g3, g4, g5⟩ := ih f1 (by omega) (by simp; omega)
    refine ⟨u, e, ?_, by rw [g2, hnn, List.length_cons]; omega, f3.trans' g3, fun j hj => ?_, fun k hk => ?_⟩
    · have e2 : ∀ n j, leafTwig (addLeaf s i) n j = leafTwig s n j := fun n j => by
        simp only [leafTwig, f3.count]
      rw [List.zipIdx_cons, List.map_cons, ← hnn]
      simp only [e2] at g1
      rw [List.append_assoc, List.singleton_append] at g1
      simpa using g1
    · rw [g4 j (by omega), f4, if_neg (by omega)]
    · cases k with
      | zero =>
        refine ⟨r, ?_, r1, r2, r3⟩
        rw [Nat.add_zero, g4 _ (by omega), f4, if_pos rfl]
      | succ k =>
        obtain ⟨r', q1, q2, q3, q4⟩ := g5 k (by simpa using hk)
        refine ⟨r', ?_, q2, q3, by rw [q4, f3.count]; rfl⟩
        rw [← q1, hnn]; congr 1; omega

/-! ## Merges -/

/-- One merge takes the two least twigs (41_tree_builder.md R167). -/
theorem mergeTwo_ok {s : State} {l : List Twig} (h : Forest s l) (h2 : 2 ≤ l.length)
    (hk : l.length ≤ 257) (hn : s.nn.toNat < 513) :
    ∃ a b, takeLeast l = some (a, l.erase a) ∧ takeLeast (l.erase a) = some (b, (l.erase a).erase b) ∧
      a ∈ l ∧ b ∈ l ∧ (a.weight ≤ b.weight ∧ ∀ f ∈ (l.erase a).erase b, b.weight ≤ f.weight) ∧
      Forest (mergeTwo s) ({ weight := a.weight + b.weight, index := s.nn, tree := .node a.tree b.tree } ::
        (l.erase a).erase b) ∧ (mergeTwo s).nn = s.nn + 1 ∧ BuildOnly s (mergeTwo s) ∧
      ∃ r : NodeRec, r.leaf = false ∧ r.left = a.index ∧ r.right = b.index ∧ r.w = a.weight + b.weight ∧
        ∀ j, (mergeTwo s).node[j]? = if s.nn.toNat = j then some r else s.node[j]? := by
  obtain ⟨a, ea, ha, ia, qa, oa, pa⟩ := h.extract (by rintro rfl; simp at h2)
  have hle : (l.erase a).length = l.length - 1 := List.length_erase_of_mem ha
  obtain ⟨ns, hs, hp⟩ := h.stored
  -- the queue without `a`, its records still in the node memory
  have hF : HeapOk (pqExtractMin s).2 ∧
      (∀ f ∈ l, (pqExtractMin s).2.weight f.index = f.weight) := by
    refine ⟨oa, fun f hf => ?_⟩
    rw [← h.weights f hf, State.weight, State.weight, State.nodeAt?, State.nodeAt?, qa.node]
  generalize hu : (pqExtractMin s).2 = u at qa oa pa hF
  -- extraction of `b` from the smaller queue
  obtain ⟨b, r', eb, hb, rfl, hmin⟩ := takeLeast_ok (l := l.erase a) (by rintro e; rw [e] at hle; simp at hle; omega)
  have hbl : b ∈ l := List.mem_of_mem_erase hb
  have hku : 1 ≤ u.hsize.toNat := by
    rw [← queue_length oa.1, pa.length_eq, List.length_map, hle]; omega
  obtain ⟨q1, _, q3, q4, q5⟩ := pqExtractMin_ok oa hku
  have hbe : (pqExtractMin u).1 = b.index := by
    have hmem : (pqExtractMin u).1 ∈ (l.erase a).map Twig.index :=
      pa.mem_iff.mp (q3.mem_iff.mpr (by simp))
    obtain ⟨f, hf, hfe⟩ := List.mem_map.mp hmem
    by_contra hne
    have hl := q5 b.index (pa.mem_iff.mpr (List.mem_map.mpr ⟨b, hb, rfl⟩)) (Ne.symm hne)
    rw [← hfe, less_iff, hF.2 f (List.mem_of_mem_erase hf), hF.2 b hbl] at hl
    exact hmin f hf hl
  generalize hv : (pqExtractMin u).2 = v at q1 q3 q4
  rw [hbe] at q3
  have hvq : (queue v).Perm (((l.erase a).erase b).map Twig.index) := by
    have hp : ((l.erase a).map Twig.index).Perm (b.index :: ((l.erase a).erase b).map Twig.index) := by
      rw [← List.map_cons]; exact (List.perm_cons_erase hb).map _
    exact List.Perm.cons_inv (q3.symm.trans (pa.trans hp))
  have hvn : v.node = s.node := q1.node.trans qa.node
  have hvs : QueueOnly s v := qa.trans' q1
  have hvnn : v.nn = s.nn := by rw [hvs]
  have hvw : ∀ i, v.weight i = s.weight i := fun i => by
    rw [State.weight, State.weight, State.nodeAt?, State.nodeAt?, hvn]
  -- the records of `a`, of `b`, and of the rest
  have hperm : l.Perm (a :: b :: (l.erase a).erase b) :=
    (List.perm_cons_erase ha).trans (.cons _ (List.perm_cons_erase hb))
  obtain ⟨ms, hms, pms⟩ := hs.perm hperm
  obtain _ | ⟨hHa, hms⟩ := hms
  obtain _ | ⟨hHb, hms⟩ := hms
  rename_i ma mb ns''
  have hlt : ∀ i ∈ ma ++ (mb ++ ns''), i < s.nn.toNat := fun i hi =>
    List.mem_range.mp (hp.mem_iff.mp (pms.mem_iff.mpr hi))
  have hget : ∀ (r : NodeRec) (j : Nat), (v.setNode v.nn r).node[j]? =
      if s.nn.toNat = j then some r else s.node[j]? := fun r j => by
    rw [setNode_getElem?, hvn, hvnn]
    by_cases e : s.nn.toNat = j
    · rw [if_pos e, if_pos e, if_pos (by omega)]
    · rw [if_neg e, if_neg e]
  obtain ⟨r, hr⟩ : ∃ r : NodeRec, r = { freeNodeRec v v.nn.toNat with
      leaf := false, left := a.index, right := b.index,
      w := v.weight a.index + v.weight b.index } := ⟨_, rfl⟩
  have hrw : r.w = a.weight + b.weight := by
    rw [hr]
    show v.weight a.index + v.weight b.index = _
    rw [hvw, hvw, h.weights a ha, h.weights b hbl]
  have hrl : r.leaf = false ∧ r.left = a.index ∧ r.right = b.index := by rw [hr]; exact ⟨rfl, rfl, rfl⟩
  have hmt : mergeTwo s = (pqInsert v.nn (v.setNode v.nn r)).alloc := by
    rw [mergeTwo]; simp only [ia, hu, hbe, hv, hr]
  clear hr
  obtain ⟨g1, g2, g3, g4⟩ := push (s := v) (r := r) (m := ma ++ mb) (ns := ns'')
    (tree := .node a.tree b.tree) q4 hvq
    (fun f hf => by rw [hvw]; exact h.weights f (List.mem_of_mem_erase (List.mem_of_mem_erase hf)))
    (hms.congr fun i hi => by rw [hvn])
    (by rw [hvnn]; exact hn)
    (by rw [List.length_erase_of_mem hb, hle]; omega)
    (by rw [hvnn, List.append_assoc]; exact pms.symm.trans hp)
    (by
      refine ⟨r, ma, mb, by rw [hget, hvnn, if_pos rfl], hrl.1, ?_, ?_, rfl⟩
      · rw [hrl.2.1]
        refine hHa.congr fun i hi => ?_
        rw [hget, if_neg (by have := hlt i (by simp [hi]); omega)]
      · rw [hrl.2.2]
        refine hHb.congr fun i hi => ?_
        rw [hget, if_neg (by have := hlt i (by simp [hi]); omega)])
  rw [← hmt, hrw] at g1
  rw [← hmt] at g4
  have hab : a.weight ≤ b.weight := by
    obtain ⟨m, _, e, _, _, hm⟩ := takeLeast_ok (l := l) (by rintro rfl; simp at h2)
    rw [ea] at e; cases e
    have := hm b hbl
    simp only [Twig.lt] at this; omega
  have hbf : ∀ f ∈ (l.erase a).erase b, b.weight ≤ f.weight := fun f hf => by
    have := hmin f (List.mem_of_mem_erase hf)
    simp only [Twig.lt] at this; omega
  refine ⟨a, b, ea, eb, ha, hbl, ⟨hab, hbf⟩, ?_, ?_, hvs.buildOnly.trans' g4, r, hrl.1, hrl.2.1, hrl.2.2, hrw, fun j => ?_⟩
  · rw [← hvnn]; exact g1
  · rw [hmt, alloc_nn, g2, hvnn]
  · rw [hmt, alloc_node, g3, hget]

theorem huffman_one (fuel : Nat) (n : Index) (f : Twig) : huffman (fuel + 1) n [f] = some f.tree := by
  simp [huffman, takeLeast]

theorem huffman_step {fuel : Nat} {n : Index} {l : List Twig} {a b : Twig}
    (ha : takeLeast l = some (a, l.erase a)) (hb : takeLeast (l.erase a) = some (b, (l.erase a).erase b)) :
    huffman (fuel + 1) n l = huffman fuel (n + 1)
      ({ weight := a.weight + b.weight, index := n, tree := .node a.tree b.tree } ::
        (l.erase a).erase b) := by
  simp [huffman, ha, hb]

/-- The merge loop of `BUILD` (41_tree_builder.md R170): it merges as `huffman` does. -/
theorem mergeLoop_ok {s : State} {l : List Twig} (fuel : Nat) (h : Forest s l) (h1 : 1 ≤ l.length)
    (hf : l.length ≤ fuel + 1) (hk : l.length ≤ 257) (hn : s.nn.toNat + l.length ≤ 514) :
    ∃ u f, mergeLoop fuel s = u ∧ Forest u [f] ∧
      (∀ k, l.length ≤ k → huffman k s.nn l = some f.tree) ∧
      u.nn.toNat = s.nn.toNat + l.length - 1 ∧ BuildOnly s u ∧
      (2 ≤ l.length → f.index.toNat + 1 = u.nn.toNat) ∧
      (l.length = 1 → l = [f]) ∧
      (∀ j, j < s.nn.toNat ∨ u.nn.toNat ≤ j → u.node[j]? = s.node[j]?) ∧
      (∀ i, s.nn.toNat ≤ i.toNat → i.toNat < u.nn.toNat → ∃ r, u.nodeAt? i = some r ∧ r.leaf = false ∧
        r.left.toNat < i.toNat ∧ r.right.toNat < i.toNat ∧
        r.w = u.weight r.left + u.weight r.right) ∧
      (∀ x, (∀ f ∈ l, x ≤ f.weight) → ∀ i : Index, s.nn.toNat ≤ i.toNat → i.toNat < u.nn.toNat →
        2 * x ≤ u.weight i) ∧
      (∀ i j : Index, s.nn.toNat ≤ i.toNat → i.toNat ≤ j.toNat → j.toNat < u.nn.toNat →
        u.weight i ≤ u.weight j) := by
  induction fuel generalizing s l with
  | zero =>
    obtain ⟨f, rfl⟩ := List.length_eq_one_iff.mp (show l.length = 1 by omega)
    refine ⟨s, f, rfl, h, fun k hk => ?_, by simp, rfl, by simp, fun _ => rfl, fun _ _ => rfl,
      fun i a b => by omega, fun x _ i a b => by omega, fun i j a b c => by omega⟩
    obtain ⟨k, rfl⟩ : ∃ j, k = j + 1 := ⟨k - 1, by simp at hk; omega⟩
    exact huffman_one k s.nn f
  | succ fuel ih =>
    rw [mergeLoop]
    by_cases h2 : 1 < s.hsize.toNat
    · rw [if_pos h2]
      rw [← h.length] at h2
      obtain ⟨a, b, ea, eb, ha, hb, ⟨hab, hbf⟩, hF, hnn, hbo, r, r1, r2, r3, r4, hnode⟩ :=
        mergeTwo_ok h (by omega) hk (by omega)
      have hlen : ((l.erase a).erase b).length = l.length - 2 := by
        have h1 := List.length_erase_of_mem ha
        have hbe : b ∈ l.erase a := by
          obtain ⟨m, q, e, hm, _⟩ := takeLeast_ok (l := l.erase a) (by intro e; rw [e] at h1; simp at h1; omega)
          rw [eb] at e; cases e; exact hm
        rw [List.length_erase_of_mem hbe, h1]; omega
      have hnn' : (mergeTwo s).nn.toNat = s.nn.toNat + 1 := by rw [hnn, nn_succ (by omega)]
      obtain ⟨u, f, e, g1, g2, g3, g4, g5, g6, g7, g8, g9, g10⟩ := ih hF (by simp)
        (by simp only [List.length_cons, hlen]; omega) (by simp only [List.length_cons, hlen]; omega)
        (by simp only [List.length_cons, hlen]; omega)
      simp only [List.length_cons, hlen] at g2 g3 g5 g6
      -- the weight of the node just made, and a bound below the weights made later
      have hwn : ∀ i : Index, i.toNat = s.nn.toNat → i.toNat < u.nn.toNat →
          u.weight i = a.weight + b.weight := fun i e3 e4 => by
        rw [State.weight, State.nodeAt?, g7 _ (by omega), hnode, if_pos e3.symm]; exact r4
      have hlater : ∀ i : Index, s.nn.toNat + 1 ≤ i.toNat → i.toNat < u.nn.toNat →
          2 * b.weight ≤ u.weight i := fun i e3 e4 =>
        g9 b.weight (fun f hf => by
          rcases List.mem_cons.mp hf with rfl | hf
          · show b.weight ≤ a.weight + b.weight; omega
          · exact hbf f hf) i (by omega) e4
      refine ⟨u, f, e, g1, fun k hk => ?_, by rw [g3, hnn']; omega, hbo.trans' g4, fun _ => ?_, fun e => by omega,
        fun j hj => ?_, fun i a' b' => ?_, fun x hx i a' b' => ?_, fun i j a' b' c' => ?_⟩
      · obtain ⟨k, rfl⟩ : ∃ j, k = j + 1 := ⟨k - 1, by omega⟩
        rw [huffman_step ea eb, ← hnn]; exact g2 k (by omega)
      · by_cases e3 : l.length = 2
        · have := g6 (by omega)
          have hfi : f.index = s.nn := by
            simp only [List.cons.injEq] at this; rw [← this.1]
          rw [hfi, g3, hnn']; omega
        · exact g5 (by omega)
      · rw [g7 j (by omega), hnode, if_neg (by omega)]
      · by_cases e3 : i.toNat = s.nn.toNat
        · have hwt : ∀ t ∈ l, u.weight t.index = t.weight := fun t ht => by
            have := h.index_lt t ht
            rw [← h.weights t ht, State.weight, State.weight, State.nodeAt?, State.nodeAt?,
              g7 _ (by omega), hnode, if_neg (by omega)]
          have hia := h.index_lt a ha
          have hib := h.index_lt b hb
          refine ⟨r, ?_, r1, by rw [r2]; omega, by rw [r3]; omega, ?_⟩
          · rw [State.nodeAt?, g7 _ (by omega), hnode, if_pos e3.symm]
          · rw [r2, r3, hwt a ha, hwt b hb, r4]
        · exact g8 i (by omega) b'
      · have hxa := hx a ha
        have hxb := hx b hb
        by_cases e3 : i.toNat = s.nn.toNat
        · rw [hwn i e3 (by omega)]; omega
        · have := hlater i (by omega) b'; omega
      · by_cases e3 : i.toNat = s.nn.toNat
        · rw [hwn i e3 (by omega)]
          by_cases e4 : j.toNat = s.nn.toNat
          · rw [hwn j e4 (by omega)]
          · have := hlater j (by omega) c'; omega
        · exact g10 i j (by omega) b' c'
    · rw [if_neg h2]
      rw [← h.length] at h2
      obtain ⟨f, rfl⟩ := List.length_eq_one_iff.mp (show l.length = 1 by omega)
      refine ⟨s, f, rfl, h, fun k hk => ?_, by simp, rfl, by simp, fun _ => rfl, fun _ _ => rfl,
        fun i a b => by omega, fun x _ i a b => by omega, fun i j a b c => by omega⟩
      obtain ⟨k, rfl⟩ : ∃ j, k = j + 1 := ⟨k - 1, by simp at hk; omega⟩
      exact huffman_one k s.nn f

/-- Two merge loops that start from the same twigs at the same next index make the same Internal records
(41_tree_builder.md R167, R170, R172). -/
theorem mergeLoop_same {s s' : State} {l : List Twig} (fuel : Nat) (h : Forest s l) (h' : Forest s' l)
    (e : s'.nn = s.nn) (h1 : 1 ≤ l.length) (hf : l.length ≤ fuel + 1) (hk : l.length ≤ 257)
    (hn : s.nn.toNat + l.length ≤ 514) :
    ∀ j, s.nn.toNat ≤ j → j < s.nn.toNat + l.length - 1 → ∃ r r' : NodeRec,
      (mergeLoop fuel s).node[j]? = some r ∧ (mergeLoop fuel s').node[j]? = some r' ∧
      r.leaf = false ∧ r'.leaf = false ∧ r.left = r'.left ∧ r.right = r'.right ∧ r.w = r'.w := by
  induction fuel generalizing s s' l with
  | zero => intro j _ _; omega
  | succ fuel ih =>
    intro j hj hj'
    have h2 : 2 ≤ l.length := by omega
    rw [mergeLoop, mergeLoop, if_pos (by rw [← h.length]; omega), if_pos (by rw [← h'.length]; omega)]
    obtain ⟨a, b, ea, eb, ha, hb, _, hF, hnn, _, r, r1, r2, r3, r4, hnode⟩ :=
      mergeTwo_ok h h2 hk (by omega)
    obtain ⟨a', b', ea', eb', _, _, _, hF', hnn', _, r', r1', r2', r3', r4', hnode'⟩ :=
      mergeTwo_ok h' h2 hk (by rw [e]; omega)
    obtain rfl : a' = a := by rw [ea] at ea'; cases ea'; rfl
    obtain rfl : b' = b := by rw [eb] at eb'; cases eb'; rfl
    rw [e] at hF'
    have hlen : ((l.erase a').erase b').length = l.length - 2 := by
      have h1 := List.length_erase_of_mem ha
      have hbe : b' ∈ l.erase a' := by
        obtain ⟨m, q, e, hm, _⟩ := takeLeast_ok (l := l.erase a') (by intro e; rw [e] at h1; simp at h1; omega)
        rw [eb] at e; cases e; exact hm
      rw [List.length_erase_of_mem hbe, h1]; omega
    have hn1 : (mergeTwo s).nn.toNat = s.nn.toNat + 1 := by rw [hnn, nn_succ (by omega)]
    have hn1' : (mergeTwo s').nn = (mergeTwo s).nn := by rw [hnn, hnn', e]
    by_cases hjs : j = s.nn.toNat
    · subst hjs
      obtain ⟨_, _, rfl, _, _, _, _, _, _, k, _⟩ := mergeLoop_ok fuel hF (by simp)
        (by simp only [List.length_cons, hlen]; omega) (by simp only [List.length_cons, hlen]; omega)
        (by simp only [List.length_cons, hlen]; omega)
      obtain ⟨_, _, rfl, _, _, _, _, _, _, k', _⟩ := mergeLoop_ok fuel hF' (by simp)
        (by simp only [List.length_cons, hlen]; omega) (by simp only [List.length_cons, hlen]; omega)
        (by simp only [List.length_cons, hlen, hn1']; omega)
      refine ⟨r, r', ?_, ?_, r1, r1', by rw [r2, r2'], by rw [r3, r3'], by rw [r4, r4']⟩
      · rw [k _ (by omega), hnode, if_pos rfl]
      · rw [k' _ (by rw [hn1']; omega), hnode', e, if_pos rfl]
    · exact ih hF hF' hn1' (by simp) (by simp only [List.length_cons, hlen]; omega)
        (by simp only [List.length_cons, hlen]; omega) (by simp only [List.length_cons, hlen]; omega) j
        (by omega) (by simp only [List.length_cons, hlen]; omega)

/-! ## The whole of `BUILD` -/

theorem presentSymbols_length (s : State) : (presentSymbols s).length ≤ 257 := by
  rw [presentSymbols]
  exact (List.length_filter_le _ _).trans (by simp)

theorem tableNonEmpty_iff (s : State) : s.tableNonEmpty = true ↔ presentSymbols s ≠ [] := by
  rw [State.tableNonEmpty, List.any_eq_true, presentSymbols, Ne, List.filter_eq_nil_iff]
  constructor
  · rintro ⟨c, hc, h0⟩ h
    obtain ⟨i, hi, rfl⟩ := List.mem_iff_getElem.mp hc
    have hi' : i < 257 := by simpa using hi
    exact h ⟨i, hi'⟩ (List.mem_finRange _) (by simpa [State.count] using h0)
  · intro h
    push Not at h
    obtain ⟨i, _, hi⟩ := h
    exact ⟨s.count i, by simp [State.count], hi⟩

/-- The leaf phase of `BUILD` (41_tree_builder.md R166): the queue holds one twig per present symbol, in
ascending order at the indices 0, 1, … -/
theorem buildLeaves_ok (s : State) :
    ∃ z u, z = s.draw.dropTree.noNodes.setHsize 0 ∧ u = (presentSymbols s).foldl addLeaf z ∧
      Forest u (forest s) ∧ u.nn = BitVec.ofNat 10 (presentSymbols s).length ∧ BuildOnly z u ∧
      (∀ j, u.nn.toNat ≤ j → u.node[j]? = s.node[j]?) ∧
      ∀ k, (hk : k < (presentSymbols s).length) → ∃ r : NodeRec, u.node[k]? = some r ∧ r.leaf = true ∧
        r.sym = idxSymbol (presentSymbols s)[k] ∧ r.w = s.count (presentSymbols s)[k] := by
  have hL := presentSymbols_length s
  obtain ⟨z, h0⟩ : ∃ z, z = s.draw.dropTree.noNodes.setHsize 0 := ⟨_, rfl⟩
  have hz : z = { s with nn := 0, hsize := 0, tv := false, cv := false, draws := s.draws + 1 } := h0
  have hFz : Forest z [] := by
    have hq : queue z = [] := by rw [hz]; simp [queue]
    refine ⟨⟨by rw [hz]; simp, by rw [hq]; simp, fun i a b => by rw [hz] at b; simp at b⟩, by rw [hq]; simp,
      by simp, [], .nil, by rw [hz]; simp⟩
  have hz0 : z.nn.toNat = 0 := by rw [hz]; rfl
  obtain ⟨u, hu, a1, a2, a3, a4, a5⟩ := addLeaves_ok (L := presentSymbols s) hFz (by omega) (by simpa using hL)
  refine ⟨z, u, h0, hu.symm, ?_, ?_, a3, fun j hj => ?_, fun k hk => ?_⟩
  · have : ∀ i, z.count i = s.count i := fun i => by rw [hz]; rfl
    simpa only [hz0, forest, List.nil_append, leafTwig, this] using a1
  · apply BitVec.eq_of_toNat_eq; rw [a2, hz0]; simp; omega
  · rw [a4 j (by omega), hz]
  · obtain ⟨r, q1, q2, q3, q4⟩ := a5 k hk
    exact ⟨r, by rw [← q1, hz0, Nat.zero_add], q2, q3, by rw [q4, hz]; rfl⟩

theorem forest_length (s : State) : (forest s).length = (presentSymbols s).length := by simp [forest]

/-- What `BUILD` leaves of a non-empty table (41_tree_builder.md R166 to R171). -/
theorem buildTree_ok {s : State} (h : s.tableNonEmpty = true) :
    ∃ T : CodeTree, huffman 257 (BitVec.ofNat 10 (presentSymbols s).length) (forest s) = some T ∧
      (buildTree s).HasTree T ∧
      (buildTree s).nn.toNat + 1 = 2 * (presentSymbols s).length ∧
      (buildTree s).root.toNat + 1 = (buildTree s).nn.toNat ∧
      (buildTree s) = { s with
        node := (buildTree s).node, nn := (buildTree s).nn, root := (buildTree s).root,
        heap := (buildTree s).heap, hsize := 0, tv := true, cv := false, draws := s.draws + 1 } ∧
      (∀ j, (buildTree s).nn.toNat ≤ j → (buildTree s).node[j]? = s.node[j]?) ∧
      (∀ k, (hk : k < (presentSymbols s).length) → ∃ r : NodeRec, (buildTree s).node[k]? = some r ∧
        r.leaf = true ∧ r.sym = idxSymbol (presentSymbols s)[k] ∧ r.w = s.count (presentSymbols s)[k]) ∧
      (∀ i, (presentSymbols s).length ≤ i.toNat → i.toNat < (buildTree s).nn.toNat →
        ∃ r, (buildTree s).nodeAt? i = some r ∧ r.leaf = false ∧
        r.left.toNat < i.toNat ∧ r.right.toNat < i.toNat ∧
        r.w = (buildTree s).weight r.left + (buildTree s).weight r.right) ∧
      (∀ i j : Index, (presentSymbols s).length ≤ i.toNat → i.toNat ≤ j.toNat →
        j.toNat < (buildTree s).nn.toNat → (buildTree s).weight i ≤ (buildTree s).weight j) := by
  have hL := presentSymbols_length s
  have hL1 : 1 ≤ (presentSymbols s).length := List.length_pos_iff.mpr ((tableNonEmpty_iff s).mp h)
  obtain ⟨z, u, h0, hu, a1, hnn, a3, a4, a5⟩ := buildLeaves_ok s
  have hz : z = { s with nn := 0, hsize := 0, tv := false, cv := false, draws := s.draws + 1 } := h0
  have a2 : u.nn.toNat = (presentSymbols s).length := by rw [hnn]; simp; omega
  have hlen := forest_length s
  obtain ⟨v, f, hv, b1, b2, b3, b4, b5, b6, b7, b8, _, b10⟩ := mergeLoop_ok u.hsize.toNat a1 (by omega)
    (by rw [a1.length]; omega) (by omega) (by omega)
  obtain ⟨m, em, hm, ie, qo, _, _⟩ := b1.extract (by simp)
  simp only [List.mem_singleton] at hm
  subst hm
  have hbt : buildTree s = ((pqExtractMin v).2.setRoot m.index).dropHeap.treeMade := by
    rw [buildTree]; simp only [← h0, ← hu, hv, takeRoot, ie]
  have hnode : (buildTree s).node = v.node := by rw [hbt]; exact qo.node
  have hbn : (buildTree s).nn = v.nn := by rw [hbt]; rw [qo]; rfl
  have hbr : (buildTree s).root = m.index := by rw [hbt]; rfl
  have hri : m.index.toNat + 1 = v.nn.toNat := by
    by_cases e : 2 ≤ (forest s).length
    · exact b5 e
    · have h1 := b6 (by omega)
      have : m.index.toNat < v.nn.toNat := b1.index_lt m (by simp)
      omega
  have hw : ∀ j, (buildTree s).weight j = v.weight j := fun j => by
    rw [State.weight, State.weight, State.nodeAt?, State.nodeAt?, hnode]
  refine ⟨m.tree, ?_, ?_, ?_, ?_, ?_, fun j hj => ?_, fun k hk => ?_, fun i hi hi' => ?_, fun i j h1 h2 h3 => ?_⟩
  · rw [← hnn]; exact b2 257 (by omega)
  · obtain ⟨ns, hs, hp⟩ := b1.stored
    obtain _ | ⟨hH, hs⟩ := hs
    obtain _ | _ := hs
    rw [List.append_nil] at hp
    exact ⟨_, by rw [hnode, hbr]; exact hH, by rw [hbn]; exact hp⟩
  · rw [hbn]; omega
  · rw [hbn, hbr]; exact hri
  · have e1 : v.hsize.toNat = 1 := by rw [← b1.length]; rfl
    have e2 : (pqExtractMin v).2.hsize = 0 := by
      apply BitVec.eq_of_toNat_eq
      rw [(pqExtractMin_ok b1.heap (by omega)).2.1, e1]; rfl
    have hzb : BuildOnly z (pqExtractMin v).2 := (a3.trans' b4).trans' qo.buildOnly
    rw [hbt]
    generalize (pqExtractMin v).2 = w at e2 hzb ⊢
    rw [BuildOnly, hz] at hzb
    rw [hzb]
    rw [hzb] at e2
    simp only at e2
    simp only [State.setRoot, State.dropHeap, State.treeMade, e2]
  · rw [hnode, b7 j (by rw [hbn] at hj; omega), a4 j (by rw [hbn] at hj; omega)]
  · obtain ⟨r, q1, rest⟩ := a5 k hk
    exact ⟨r, by rw [hnode, b7 k (by omega), q1], rest⟩
  · obtain ⟨r, q1, q2, q3, q4, q5⟩ := b8 i (by omega) (by rw [← hbn]; exact hi')
    refine ⟨r, ?_, q2, q3, q4, by rw [hw, hw]; exact q5⟩
    rw [State.nodeAt?, hnode]; exact q1
  · rw [hw, hw]; exact b10 i j (by omega) h2 (by rw [← hbn]; exact h3)

theorem forest_congr {s s' : State} (h : s'.ft = s.ft) : forest s' = forest s := by
  simp only [forest, presentSymbols, State.count, h]

/-- The records of `BUILD`'s tree are those of its merge loop (41_tree_builder.md R170). -/
theorem buildTree_node (s : State) : ∃ u, Forest u (forest s) ∧
    u.nn = BitVec.ofNat 10 (presentSymbols s).length ∧
    ((forest s).length ≠ 0 → (buildTree s).node = (mergeLoop (forest s).length u).node) := by
  obtain ⟨z, u, h0, hu, a1, hnn, _⟩ := buildLeaves_ok s
  refine ⟨u, a1, hnn, fun hne => ?_⟩
  have hL := presentSymbols_length s
  have hlen := forest_length s
  obtain ⟨v, f, hv, b1, _⟩ := mergeLoop_ok u.hsize.toNat a1 (by omega)
    (by rw [a1.length]; omega) (by omega) (by rw [hnn]; simp; omega)
  obtain ⟨m, _, _, ie, qo, _⟩ := b1.extract (by simp)
  rw [a1.length, hv, ← qo.node, buildTree]
  simp only [← h0, ← hu, hv, takeRoot]
  rfl

/-- `BUILD` makes the same Internal records of the same table (41_tree_builder.md R172). -/
theorem buildTree_same {s s' : State} (e : s'.ft = s.ft) (h : s.tableNonEmpty = true) {j : Nat}
    (hj : (presentSymbols s).length ≤ j) (hj' : j < (buildTree s).nn.toNat) :
    ∃ r r' : NodeRec, (buildTree s).node[j]? = some r ∧ (buildTree s').node[j]? = some r' ∧
      r.leaf = false ∧ r'.leaf = false ∧ r.left = r'.left ∧ r.right = r'.right ∧ r.w = r'.w := by
  have hL := presentSymbols_length s
  have hL1 : 1 ≤ (presentSymbols s).length := List.length_pos_iff.mpr ((tableNonEmpty_iff s).mp h)
  have hlen := forest_length s
  have hf := forest_congr e
  have hp : presentSymbols s' = presentSymbols s := by simp only [presentSymbols, State.count, e]
  obtain ⟨_, _, _, hnn, _⟩ := buildTree_ok h
  obtain ⟨u, a1, a2, a3⟩ := buildTree_node s
  obtain ⟨u', b1, b2, b3⟩ := buildTree_node s'
  rw [hf] at b1 b3
  rw [hp] at b2
  have a2' : u.nn.toNat = (presentSymbols s).length := by rw [a2]; simp; omega
  rw [a3 (by omega), b3 (by omega)]
  exact mergeLoop_same _ a1 b1 (by rw [a2, b2]) (by omega) (by omega) (by omega) (by omega) j (by omega) (by omega)

end Sys2Proof.Machine
end

