-- ==== Sys2Proof/Laws/BuildTree.lean ====
section
/-! SUPPORT. The tree of BUILD: its leaves (41_tree_builder.md R174). -/

namespace Sys2Proof.Machine

/-- The symbol of a Leaf record. -/
def leafSym (v : Vector NodeRec 513) (i : Nat) : Option Symbol :=
  (v[i]?).bind fun r => if r.leaf then some r.sym else none

theorem Holds.symbols {v : Vector NodeRec 513} {t : CodeTree} {n : Index} {ns : List Nat}
    (h : Holds v t n ns) : t.symbols = ns.filterMap (leafSym v) := by
  induction t generalizing n ns with
  | leaf s =>
    obtain ⟨rfl, r, hr, hl, rfl⟩ := h
    simp [CodeTree.symbols, leafSym, hr, hl]
  | node l r ihl ihr =>
    obtain ⟨x, la, lb, hr, hl, ha, hb, rfl⟩ := h
    rw [CodeTree.symbols, ihl ha, ihr hb, List.filterMap_cons]
    simp [leafSym, hr, hl]

theorem filterMap_range_some {f : Nat → Option Symbol} {L : List Symbol} {k : Nat}
    (h : ∀ i, (hi : i < L.length) → f i = some L[i])
    (h0 : ∀ i, L.length ≤ i → i < L.length + k → f i = none) :
    (List.range (L.length + k)).filterMap f = L := by
  rw [List.range_add, List.filterMap_append]
  have e2 : ((List.range k).map (L.length + ·)).filterMap f = [] := by
    rw [List.filterMap_eq_nil_iff]
    intro i hi
    obtain ⟨j, hj, rfl⟩ := List.mem_map.mp hi
    exact h0 _ (by omega) (by have := List.mem_range.mp hj; omega)
  rw [e2, List.append_nil]
  clear e2 h0
  induction L using List.reverseRecOn with
  | nil => rfl
  | append_singleton L x ih =>
    rw [List.length_append, List.length_singleton, List.range_succ, List.filterMap_append, ih]
    · have := h L.length (by simp)
      rw [List.filterMap_cons, this]
      simp
    · intro i hi
      rw [h i (by simp; omega), List.getElem_append_left hi]

/-- The leaves of the tree of `BUILD` are the present symbols (41_tree_builder.md R174). -/
theorem buildTree_symbols {s : State} (h : s.tableNonEmpty = true) {T : CodeTree}
    (hT : (buildTree s).HasTree T) : T.symbols.Perm ((presentSymbols s).map idxSymbol) := by
  obtain ⟨T', _, hT', hnn, _, _, _, h1, h2, _⟩ := buildTree_ok h
  obtain ⟨ns, hH, hp⟩ := hT
  have hnn' : (buildTree s).nn.toNat ≤ 513 := by have := presentSymbols_length s; omega
  rw [hH.symbols]
  refine (hp.filterMap _).trans ?_
  have hL1 : 1 ≤ (presentSymbols s).length := List.length_pos_iff.mpr ((tableNonEmpty_iff s).mp h)
  have e := filterMap_range_some (f := leafSym (buildTree s).node) (L := (presentSymbols s).map idxSymbol)
    (k := (presentSymbols s).length - 1) ?_ ?_
  · rw [List.length_map, show (presentSymbols s).length + ((presentSymbols s).length - 1) = (buildTree s).nn.toNat by omega] at e
    rw [e]
  · intro i hi
    obtain ⟨r, q1, q2, q3, _⟩ := h1 i (by simpa using hi)
    simp [leafSym, q1, q2, q3]
  · intro i hi hi'
    rw [List.length_map] at hi hi'
    obtain ⟨r, q1, q2, _⟩ := h2 (BitVec.ofNat 10 i) (by simp; omega) (by simp; omega)
    rw [State.nodeAt?, BitVec.toNat_ofNat, Nat.mod_eq_of_lt (by omega)] at q1
    simp [leafSym, q1, q2]

theorem HasTree.size {s : State} {t : CodeTree} (h : s.HasTree t) : t.size = s.nn.toNat := by
  obtain ⟨ns, hH, hp⟩ := h
  rw [← hH.length, hp.length_eq, List.length_range]

/-- The tree of `BUILD` is legal (10_state.md R45). -/
theorem buildTree_legal {s : State} (h : s.tableNonEmpty = true) {T : CodeTree}
    (hT : (buildTree s).HasTree T) : T.Legal := by
  have hp := buildTree_symbols h hT
  refine ⟨?_, fun x hx => ?_⟩
  · rw [← T.symbols_length, hp.length_eq, List.length_map]; exact presentSymbols_length s
  · obtain ⟨i, _, rfl⟩ := List.mem_map.mp (hp.mem_iff.mp hx)
    rw [idxSymbol_toNat]; omega

/-- A state holds at most one tree. -/
theorem HasTree.unique {s : State} {t u : CodeTree} (h : s.HasTree t) (k : s.HasTree u) : t = u := by
  obtain ⟨_, h, _⟩ := h
  obtain ⟨_, k, _⟩ := k
  exact (h.unique k).1

end Sys2Proof.Machine
end

