-- ==== Sys2Proof/Laws/Decoder.lean ====
section
/-! SUPPORT. The stream decoder (45_stream_decoder.md R230 to R237). -/

namespace Sys2Proof.Machine

/-- Only `cur`, the unpacker and `UPI` may differ. -/
def CursorOnly (s t : State) : Prop :=
  t = { s with cur := t.cur, upBuf := t.upBuf, upCnt := t.upCnt, upi := t.upi }

theorem CursorOnly.trans' {s t u : State} (h : CursorOnly s t) (k : CursorOnly t u) : CursorOnly s u := by
  unfold CursorOnly at *; rw [h] at k; exact k

theorem UnpackerOnly.cursorOnly {s t : State} (h : UnpackerOnly s t) : CursorOnly s t := by
  unfold UnpackerOnly at h; unfold CursorOnly; rw [h]

theorem CursorOnly.setCur {s t : State} (h : CursorOnly s t) (n : Index) : CursorOnly s (t.setCur n) := by
  unfold CursorOnly at *; rw [h]; rfl

theorem CursorOnly.node {s t : State} (h : CursorOnly s t) : t.node = s.node := by rw [h]
theorem CursorOnly.root {s t : State} (h : CursorOnly s t) : t.root = s.root := by rw [h]
theorem CursorOnly.dst {s t : State} (h : CursorOnly s t) : t.dst = s.dst := by rw [h]

/-- An edge of an Internal root's tree (45_stream_decoder.md R231). -/
theorem moveCur_internal {b : Bool} {s : State} {top here : NodeRec} (ht : s.nodeAt? s.root = some top)
    (hl : top.leaf = false) (hh : s.nodeAt? s.cur = some here) :
    moveCur b s = .ok () (s.setCur (if b then here.right else here.left)) := by
  simp only [moveCur, ht, hl, Bool.false_eq_true, if_false, hh]

/-- A bit at a Leaf root (45_stream_decoder.md R232). -/
theorem moveCur_leaf {b : Bool} {s : State} {top : NodeRec} (ht : s.nodeAt? s.root = some top)
    (hl : top.leaf = true) :
    moveCur b s = if b then .raised (raiseError .corruptStream 5 0 s) else .ok () s := by
  simp only [moveCur, ht, hl, if_true]

theorem arrive_internal {s : State} {r : NodeRec} (h : s.nodeAt? s.cur = some r) (hl : r.leaf = false) :
    arrive s = .ok false s := by
  simp only [arrive, h, hl, Bool.false_eq_true, if_false]

theorem arrive_eof {s : State} {r : NodeRec} (h : s.nodeAt? s.cur = some r) (hl : r.leaf = true)
    (hx : r.sym = eofSymbol) : arrive s = .ok true (discardBits s) := by
  simp only [arrive, h, hl, if_true, hx]

theorem arrive_byte {s : State} {r : NodeRec} (h : s.nodeAt? s.cur = some r) (hl : r.leaf = true)
    (hx : r.sym ≠ eofSymbol) (ho : NoFail s.dst.oracle) :
    arrive s = .ok false { s with
      cur := s.root
      dst := { data := s.dst.data ++ [symByte r.sym], oracle := s.dst.oracle.tail } } := by
  simp only [arrive, h, hl, if_true, if_neg hx, byteOutDst, byteOut_ok _ (noFail_head ho), State.setCur]

/-- The rest of a turn of `DEC` once `cur` has moved. -/
def afterMove (fuel : Nat) (u : State) : Res Unit :=
  (arrive u).andThen fun atEnd v => if atEnd then .ok () v else decLoop fuel v

theorem CodeTree.paths_ne_nil {l r : CodeTree} {x : Symbol} {p : List Bool}
    (h : (x, p) ∈ (CodeTree.node l r).paths) : p ≠ [] := by
  rintro rfl
  simp only [CodeTree.paths, List.mem_append, List.mem_map] at h
  rcases h with ⟨_, _, h⟩ | ⟨_, _, h⟩ <;> cases h

/-- From an Internal node down one of its tree's paths to the leaf (45_stream_decoder.md R231). -/
theorem descend {t : CodeTree} {n : Index} {ns : List Nat} {s : State} {top : NodeRec} {x : Symbol}
    {p q : List Bool} (fuel : Nat) (ht : s.nodeAt? s.root = some top) (hl : top.leaf = false)
    (hH : Holds s.node t n ns) (hx : (x, p) ∈ t.paths) (hp : p ≠ []) (hc : s.cur = n)
    (h8 : s.upCnt.toNat ≤ 8) (ho : NoFail s.upi.oracle) (hu : unread s = p ++ q) :
    ∃ u, decLoop (fuel + p.length) s = afterMove fuel u ∧
      (∃ r, u.nodeAt? u.cur = some r ∧ r.leaf = true ∧ r.sym = x) ∧
      unread u = q ∧ u.upCnt.toNat ≤ 7 ∧ NoFail u.upi.oracle ∧ u.upi.data = s.upi.data ∧
      CursorOnly s u := by
  induction p generalizing t n ns s with
  | nil => exact absurd rfl hp
  | cons b p ih =>
    cases t with
    | leaf y => simp [CodeTree.paths] at hx
    | node l r =>
      obtain ⟨v, hv, huv, hsv, hcv, hov, hdv⟩ := readBit_some h8 ho hu
      obtain ⟨rec, la, lb, hrec, hleaf, hHl, hHr, rfl⟩ := hH
      rw [List.length_cons, ← Nat.add_assoc, decLoop, hv]
      simp only [Res.ok_andThen]
      have hnv : v.node = s.node := hsv.node
      have hrv : v.root = s.root := by rw [hsv]
      have hcurv : v.cur = s.cur := by rw [hsv]
      have htv : v.nodeAt? v.root = some top := by rw [hrv, State.nodeAt?, hnv]; exact ht
      rw [moveCur_internal (here := rec) htv hl (by rw [hcurv, hc, State.nodeAt?, hnv]; exact hrec)]
      simp only [Res.ok_andThen]
      obtain ⟨sub, m, ms, hm, hHm, hxm⟩ : ∃ sub m ms, (if b then rec.right else rec.left) = m ∧
          Holds s.node sub m ms ∧ (x, p) ∈ sub.paths := by
        simp only [CodeTree.paths, List.mem_append, List.mem_map] at hx
        rcases hx with ⟨⟨y, z⟩, hm, e⟩ | ⟨⟨y, z⟩, hm, e⟩
        · cases e; exact ⟨l, rec.left, la, rfl, hHl, hm⟩
        · cases e; exact ⟨r, rec.right, lb, rfl, hHr, hm⟩
      rw [hm]
      generalize hw : v.setCur m = w
      have hsw : CursorOnly s w := by rw [← hw]; exact hsv.cursorOnly.setCur m
      have hcw : w.cur = m := by rw [← hw]; rfl
      have huw : unread w = p ++ q := by rw [← hw]; exact huv
      have hHw : Holds w.node sub m ms := by rw [hsw.node]; exact hHm
      cases p with
      | nil =>
        have hsub : sub = .leaf x := by
          cases sub with
          | leaf y => simp [CodeTree.paths] at hxm; rw [hxm]
          | node _ _ => exact absurd rfl (CodeTree.paths_ne_nil hxm)
        subst hsub
        obtain ⟨_, r2, hr2, hl2, hx2⟩ := hHw
        refine ⟨w, rfl, ⟨r2, ?_, hl2, hx2⟩, huw, by rw [← hw]; exact hcv, by rw [← hw]; exact hov, by rw [← hw]; exact hdv, hsw⟩
        rw [hcw]; exact hr2
      | cons c p =>
        obtain ⟨a, b2, rfl⟩ : ∃ a b2, sub = .node a b2 := by
          cases sub with
          | leaf y => simp [CodeTree.paths] at hxm
          | node a b2 => exact ⟨a, b2, rfl⟩
        obtain ⟨r2, _, _, hr2, hl2, _⟩ := id hHw
        rw [arrive_internal (r := r2) (by rw [hcw]; exact hr2) hl2]
        simp only [Res.ok_andThen, Bool.false_eq_true, if_false]
        obtain ⟨u, e, hleafu, hqu, hcu, hou, hdu, hsu⟩ := ih (s := w) (t := .node a b2)
          (by rw [hsw.root, State.nodeAt?, hsw.node]; exact ht) hHw hxm (by simp) hcw
          (by rw [← hw]; show v.upCnt.toNat ≤ 8; omega) (by rw [← hw]; exact hov) huw
        refine ⟨u, e, hleafu, hqu, hcu, hou, ?_, hsw.trans' hsu⟩
        rw [hdu, ← hw]; exact hdv

theorem lastFor_mem {x : Symbol} {l : List (Symbol × List Bool)} (h : lastFor x l ≠ []) :
    (x, lastFor x l) ∈ l := by
  have key : ∀ (l : List (Symbol × List Bool)) (c : List Bool),
      l.foldl (fun c p => if p.1 = x then p.2 else c) c = c ∨
      (x, l.foldl (fun c p => if p.1 = x then p.2 else c) c) ∈ l := by
    intro l
    induction l with
    | nil => intro c; exact .inl rfl
    | cons e l ih =>
      intro c
      rw [List.foldl_cons]
      by_cases he : e.1 = x
      · rw [if_pos he]
        rcases ih e.2 with h | h
        · right; rw [h, ← he]; simp
        · right; exact List.mem_cons_of_mem _ h
      · rw [if_neg he]
        rcases ih c with h | h
        · exact .inl h
        · right; exact List.mem_cons_of_mem _ h
  rcases key l [] with h' | h'
  · exact absurd h' h
  · exact h'

/-- One symbol of a payload: from the root to a leaf of that symbol (45_stream_decoder.md R230, R231). -/
theorem decSymbol {t : CodeTree} {ns : List Nat} {s : State} {x : Symbol} {q : List Bool} (fuel : Nat)
    (hH : Holds s.node t s.root ns) (hx : t.codeOf x ≠ []) (hc : s.cur = s.root)
    (h8 : s.upCnt.toNat ≤ 8) (ho : NoFail s.upi.oracle) (hu : unread s = t.codeOf x ++ q) :
    ∃ u, decLoop (fuel + (t.codeOf x).length) s = afterMove fuel u ∧
      (∃ r, u.nodeAt? u.cur = some r ∧ r.leaf = true ∧ r.sym = x) ∧
      unread u = q ∧ u.upCnt.toNat ≤ 7 ∧ NoFail u.upi.oracle ∧ u.upi.data = s.upi.data ∧
      CursorOnly s u := by
  cases t with
  | leaf y =>
    obtain ⟨rfl, r, hr, hl, rfl⟩ := hH
    by_cases e : r.sym = x
    · subst e
      rw [show (CodeTree.leaf r.sym).codeOf r.sym = [false] by simp [CodeTree.codeOf]] at hu ⊢
      obtain ⟨v, hv, huv, hsv, hcv, hov, hdv⟩ := readBit_some h8 ho hu
      have hrv : v.nodeAt? v.root = some r := by
        rw [State.nodeAt?, hsv.node, show v.root = s.root by rw [hsv]]; exact hr
      refine ⟨v, ?_, ⟨r, ?_, hl, rfl⟩, huv, hcv, hov, hdv, hsv.cursorOnly⟩
      · rw [List.length_singleton, decLoop, hv]
        simp only [Res.ok_andThen]
        rw [moveCur_leaf hrv hl]; rfl
      · rw [show v.cur = v.root by rw [hsv]; exact hc]; exact hrv
    · exact absurd (by simp [CodeTree.codeOf, e]) hx
  | node a b =>
    obtain ⟨r, _, _, hr, hl, _⟩ := id hH
    exact descend fuel (top := r) hr hl hH (lastFor_mem hx) hx hc h8 ho hu

/-- Only what a turn of `DEC` writes may differ. -/
def DecOnly (s t : State) : Prop :=
  t = { s with cur := t.cur, upBuf := t.upBuf, upCnt := t.upCnt, upi := t.upi, dst := t.dst }

theorem DecOnly.trans' {s t u : State} (h : DecOnly s t) (k : DecOnly t u) : DecOnly s u := by
  unfold DecOnly at *; rw [h] at k; exact k

theorem CursorOnly.decOnly {s t : State} (h : CursorOnly s t) : DecOnly s t := by
  unfold CursorOnly at h; unfold DecOnly; rw [h]

theorem DecOnly.node {s t : State} (h : DecOnly s t) : t.node = s.node := by rw [h]
theorem DecOnly.root {s t : State} (h : DecOnly s t) : t.root = s.root := by rw [h]

/-- How many turns `DEC` takes over the codes of a byte sequence. -/
def CodeTree.turns (t : CodeTree) (bytes : List Byte) : Nat :=
  (bytes.flatMap fun b => t.codeOf (idxSymbol (byteIdx b))).length

theorem symByte_idxSymbol (b : Byte) : symByte (idxSymbol (byteIdx b)) = b := by
  apply BitVec.eq_of_toNat_eq
  have := b.isLt
  simp [symByte, idxSymbol, byteIdx]

theorem idxSymbol_byteIdx_ne (b : Byte) : idxSymbol (byteIdx b) ≠ eofSymbol := by
  intro h
  have := congrArg BitVec.toNat h
  have hb := b.isLt
  simp [idxSymbol_toNat, byteIdx] at this; omega

/-- The codes of a byte sequence decode to it, and `DEC` goes on from the root. -/
theorem decBytes {t : CodeTree} {ns : List Nat} {bytes : List Byte} {s : State} {q : List Bool} (fuel : Nat)
    (hH : Holds s.node t s.root ns) (hx : ∀ b ∈ bytes, t.codeOf (idxSymbol (byteIdx b)) ≠ [])
    (hc : s.cur = s.root) (h8 : s.upCnt.toNat ≤ 8) (ho : NoFail s.upi.oracle)
    (hd : NoFail s.dst.oracle)
    (hu : unread s = bytes.flatMap (fun b => t.codeOf (idxSymbol (byteIdx b))) ++ q) :
    ∃ u, decLoop (fuel + t.turns bytes) s = decLoop fuel u ∧ u.cur = s.root ∧
      unread u = q ∧ u.upCnt.toNat ≤ 8 ∧ NoFail u.upi.oracle ∧ u.upi.data = s.upi.data ∧ DecOnly s u ∧
      u.dst = { data := s.dst.data ++ bytes, oracle := s.dst.oracle.drop bytes.length } := by
  induction bytes generalizing s fuel with
  | nil =>
    exact ⟨s, rfl, hc, hu, h8, ho, rfl, rfl, by simp⟩
  | cons b bytes ih =>
    obtain ⟨v, e, ⟨r, hr, hl, hrx⟩, huv, hcv, hov, hdv, hsv⟩ := decSymbol (x := idxSymbol (byteIdx b))
      (q := bytes.flatMap (fun b => t.codeOf (idxSymbol (byteIdx b))) ++ q)
      (fuel + t.turns bytes) hH (hx b (by simp)) hc h8 ho (by rw [hu]; simp)
    have hne : r.sym ≠ eofSymbol := by rw [hrx]; exact idxSymbol_byteIdx_ne b
    have ha := arrive_byte hr hl hne (by rw [hsv.dst]; exact hd)
    generalize hw : ({ v with cur := v.root, dst := { data := v.dst.data ++ [symByte r.sym], oracle := v.dst.oracle.tail } } : State) = w at ha
    have hsw : DecOnly s w := by rw [← hw]; exact hsv.decOnly.trans' rfl
    obtain ⟨u, eu, hcu, huu, h8u, hou, hdu, hsu, hdst⟩ := ih (s := w) fuel
      (by rw [hsw.node, hsw.root]; exact hH) (fun b hb => hx b (by simp [hb]))
      (by rw [← hw]) (by rw [← hw]; show v.upCnt.toNat ≤ 8; omega) (by rw [← hw]; exact hov)
      (by rw [← hw]; show NoFail v.dst.oracle.tail; rw [hsv.dst]; exact noFail_tail hd)
      (by rw [← huv, ← hw]; rfl)
    refine ⟨u, ?_, by rw [hcu, hsw.root], huu, h8u, hou, ?_, hsw.trans' hsu, ?_⟩
    · rw [← eu, show t.turns (b :: bytes) = t.turns bytes + (t.codeOf (idxSymbol (byteIdx b))).length by
        simp [CodeTree.turns]; omega, ← Nat.add_assoc, e, afterMove, ha]
      rfl
    · rw [hdu, ← hw]; exact hdv
    · rw [hdst, ← hw, hrx, symByte_idxSymbol, hsv.dst]
      simp [List.drop_tail]

theorem unread_length {s : State} (h8 : s.upCnt.toNat ≤ 8) : (unread s).length = bitsLeft s := by
  simp [unread, buffered_length h8, streamBits_length, InPort.rest_length, bitsLeft]

/-- The whole of `DEC` on a payload: every byte written, the EOF leaf reached, the rest of its byte
discarded (45_stream_decoder.md R231, R233, R236). -/
theorem dec_ok {t : CodeTree} {ns : List Nat} {bytes : List Byte} {s : State} {q : List Bool}
    (hH : Holds s.node t s.root ns) (hx : ∀ b ∈ bytes, t.codeOf (idxSymbol (byteIdx b)) ≠ [])
    (he : t.codeOf eofSymbol ≠ []) (hc : s.cur = s.root) (h8 : s.upCnt.toNat ≤ 8)
    (ho : NoFail s.upi.oracle) (hd : NoFail s.dst.oracle) (hu : unread s = t.payload bytes ++ q) :
    ∃ u, decLoop (bitsLeft s + 1) s = .ok () u ∧
      (∃ r, u.nodeAt? u.cur = some r ∧ r.leaf = true ∧ r.sym = eofSymbol) ∧
      u.upBuf = 0 ∧ u.upCnt = 0 ∧ NoFail u.upi.oracle ∧ u.upi.data = s.upi.data ∧ DecOnly s u ∧
      u.dst = { data := s.dst.data ++ bytes, oracle := s.dst.oracle.drop bytes.length } ∧
      ∃ v, unread v = q ∧ v.upCnt.toNat ≤ 7 ∧ u.upi = v.upi := by
  have hlen : (unread s).length = t.turns bytes + (t.codeOf eofSymbol).length + q.length := by
    rw [hu]; simp [CodeTree.payload, CodeTree.turns]; omega
  rw [← unread_length h8, hlen]
  obtain ⟨v, ev, hcv, huv, h8v, hov, hdv, hsv, hdst⟩ := decBytes (q := t.codeOf eofSymbol ++ q)
    (q.length + 1 + (t.codeOf eofSymbol).length) hH hx hc h8 ho hd (by rw [hu]; simp [CodeTree.payload])
  obtain ⟨w, ew, ⟨r, hr, hl, hrx⟩, huw, hcw, how, hdw, hsw⟩ := decSymbol (x := eofSymbol) (q := q)
    (q.length + 1) (by rw [hsv.node, hsv.root]; exact hH) he (by rw [hcv, hsv.root]) h8v hov huv
  refine ⟨discardBits w, ?_, ⟨r, hr, hl, hrx⟩, rfl, rfl, how, hdw.trans hdv,
    (hsv.trans' hsw.decOnly).trans' rfl, ?_, w, huw, hcw, rfl⟩
  · rw [show t.turns bytes + (t.codeOf eofSymbol).length + q.length + 1 =
      (q.length + 1 + (t.codeOf eofSymbol).length) + t.turns bytes by omega, ev, ew, afterMove,
      arrive_eof hr hl hrx]
    rfl
  · rw [← hdst]; exact hsw.dst

/-- A stream that ends at an Internal node (45_stream_decoder.md R234). -/
theorem starve {t : CodeTree} {n : Index} {ns : List Nat} {s : State} {top : NodeRec}
    {p : List Bool} (fuel : Nat) (ht : s.nodeAt? s.root = some top) (hl : top.leaf = false)
    (hH : Holds s.node t n ns) (hp : t.Inside p) (hc : s.cur = n)
    (h8 : s.upCnt.toNat ≤ 8) (ho : NoFail s.upi.oracle) (hu : unread s = p) :
    ∃ u, decLoop (fuel + 1 + p.length) s =
        .raised (raiseError .corruptStream 4 (zext32 (follow s.node n p)) u) ∧
      u.cur = follow s.node n p ∧ unread u = [] ∧ u.upCnt = 0 ∧ NoFail u.upi.oracle ∧
      u.upi.data = s.upi.data ∧ CursorOnly s u := by
  induction p generalizing t n ns s with
  | nil =>
    have h0 : s.upCnt = 0 := by
      have := unread_length h8
      rw [hu, bitsLeft] at this
      exact BitVec.eq_of_toNat_eq (by simp at this ⊢; omega)
    rw [List.length_nil, Nat.add_zero, decLoop, readBit_none h8 ho hu]
    simp only [Res.ok_andThen]
    exact ⟨{ s with upi := { s.upi with oracle := s.upi.oracle.tail } }, by rw [hc]; rfl, hc, hu, h0,
      noFail_tail ho, rfl, rfl⟩
  | cons b p ih =>
    obtain ⟨x, q, hq, hx⟩ := hp
    cases t with
    | leaf y => simp [CodeTree.paths] at hx
    | node l r =>
      obtain ⟨v, hv, huv, hsv, hcv, hov, hdv⟩ := readBit_some h8 ho hu
      obtain ⟨rec, la, lb, hrec, hleaf, hHl, hHr, rfl⟩ := hH
      rw [List.length_cons, ← Nat.add_assoc, decLoop, hv]
      simp only [Res.ok_andThen]
      have hnv : v.node = s.node := hsv.node
      have hrv : v.root = s.root := by rw [hsv]
      have hcurv : v.cur = s.cur := by rw [hsv]
      have htv : v.nodeAt? v.root = some top := by rw [hrv, State.nodeAt?, hnv]; exact ht
      rw [moveCur_internal (here := rec) htv hl (by rw [hcurv, hc, State.nodeAt?, hnv]; exact hrec)]
      simp only [Res.ok_andThen]
      obtain ⟨sub, m, ms, hm, hHm, hxm⟩ : ∃ sub m ms, (if b then rec.right else rec.left) = m ∧
          Holds s.node sub m ms ∧ (x, p ++ q) ∈ sub.paths := by
        simp only [CodeTree.paths, List.mem_append, List.mem_map, List.cons_append] at hx
        rcases hx with ⟨⟨y, z⟩, hm, e⟩ | ⟨⟨y, z⟩, hm, e⟩
        · cases e; exact ⟨l, rec.left, la, rfl, hHl, hm⟩
        · cases e; exact ⟨r, rec.right, lb, rfl, hHr, hm⟩
      have hfol : follow s.node n (b :: p) = follow s.node m p := by
        rw [follow, hrec]; simp only [hm]
      rw [hfol, hm]
      generalize hw : v.setCur m = w
      have hsw : CursorOnly s w := by rw [← hw]; exact hsv.cursorOnly.setCur m
      have hcw : w.cur = m := by rw [← hw]; rfl
      have huw : unread w = p := by rw [← hw]; exact huv
      have hHw : Holds w.node sub m ms := by rw [hsw.node]; exact hHm
      obtain ⟨a, b2, rfl⟩ : ∃ a b2, sub = .node a b2 := by
        cases sub with
        | leaf y => simp [CodeTree.paths] at hxm; exact absurd hxm.2.2 hq
        | node a b2 => exact ⟨a, b2, rfl⟩
      obtain ⟨r2, _, _, hr2, hl2, _⟩ := id hHw
      rw [arrive_internal (r := r2) (by rw [hcw]; exact hr2) hl2]
      simp only [Res.ok_andThen, Bool.false_eq_true, if_false]
      obtain ⟨u, e, hcu, hqu, h0u, hou, hdu, hsu⟩ := ih (s := w) (t := .node a b2)
        (by rw [hsw.root, State.nodeAt?, hsw.node]; exact ht) hHw ⟨x, q, hq, hxm⟩ hcw
        (by rw [← hw]; show v.upCnt.toNat ≤ 8; omega) (by rw [← hw]; exact hov) huw
      rw [hsw.node] at e hcu
      exact ⟨u, e, hcu, hqu, h0u, hou, by rw [hdu, ← hw]; exact hdv, hsw.trans' hsu⟩

/-- A stream that ends at the root (45_stream_decoder.md R234). -/
theorem starve_root {s : State} (fuel : Nat) (h8 : s.upCnt.toNat ≤ 8) (ho : NoFail s.upi.oracle)
    (hu : unread s = []) :
    decLoop (fuel + 1) s = .raised (raiseError .corruptStream 4 (zext32 s.cur)
      { s with upi := { s.upi with oracle := s.upi.oracle.tail } }) := by
  rw [decLoop, readBit_none h8 ho hu]; rfl

/-- Bits 0 at the root Leaf of a literal: one byte on `DST` each (45_stream_decoder.md R231, R232). -/
theorem leafRoot_zeros {s : State} {top : NodeRec} {q : List Bool} (fuel k : Nat)
    (ht : s.nodeAt? s.root = some top) (hl : top.leaf = true) (hx : k = 0 ∨ top.sym ≠ eofSymbol)
    (hc : s.cur = s.root) (h8 : s.upCnt.toNat ≤ 8) (ho : NoFail s.upi.oracle)
    (hd : NoFail s.dst.oracle) (hu : unread s = List.replicate k false ++ q) :
    ∃ u, decLoop (fuel + k) s = decLoop fuel u ∧ unread u = q ∧ u.cur = u.root ∧ u.upCnt.toNat ≤ 8 ∧
      NoFail u.upi.oracle ∧ DecOnly s u ∧
      u.dst = { data := s.dst.data ++ List.replicate k (symByte top.sym)
                oracle := s.dst.oracle.drop k } := by
  induction k generalizing s with
  | zero => exact ⟨s, rfl, hu, hc, h8, ho, rfl, by simp⟩
  | succ k ih =>
    have hne : top.sym ≠ eofSymbol := by simpa using hx
    obtain ⟨v, hv, huv, hsv, hcv, hov, _⟩ := readBit_some h8 ho hu
    have hrv : v.root = s.root := by rw [hsv]
    have htv : v.nodeAt? v.root = some top := by rw [hrv, State.nodeAt?, hsv.node]; exact ht
    have hcur : v.cur = v.root := by rw [hrv, ← hc, hsv]
    have hdv : v.dst = s.dst := by rw [hsv]
    have ha := arrive_byte (by rw [hcur]; exact htv) hl hne (by rw [hdv]; exact hd)
    rw [← Nat.add_assoc, decLoop, hv]
    simp only [Res.ok_andThen]
    rw [moveCur_leaf htv hl]
    simp only [Bool.false_eq_true, if_false, Res.ok_andThen, ha]
    generalize hw : ({ v with
      cur := v.root
      dst := { data := v.dst.data ++ [symByte top.sym], oracle := v.dst.oracle.tail } } : State) = w
    have hsw : DecOnly s w := by rw [← hw]; exact hsv.cursorOnly.decOnly.trans' rfl
    obtain ⟨u, e, h1, h2, h3, h4, h5, h6⟩ := ih (s := w)
      (by rw [hsw.root, State.nodeAt?, hsw.node]; exact ht) (.inr hne) (by rw [← hw])
      (by rw [← hw]; show v.upCnt.toNat ≤ 8; omega) (by rw [← hw]; exact hov)
      (by rw [← hw]; show NoFail v.dst.oracle.tail; rw [hdv]; exact noFail_tail hd)
      (by rw [← hw]; exact huv)
    refine ⟨u, e, h1, h2, h3, h4, hsw.trans' h5, ?_⟩
    rw [h6, ← hw, hdv, List.replicate_succ]
    simp [List.drop_tail]

/-- Bit 1 at a Leaf root (45_stream_decoder.md R232). -/
theorem leafRoot_one {s : State} {top : NodeRec} {q : List Bool} (fuel : Nat)
    (ht : s.nodeAt? s.root = some top) (hl : top.leaf = true) (h8 : s.upCnt.toNat ≤ 8)
    (ho : NoFail s.upi.oracle) (hu : unread s = true :: q) :
    ∃ u, decLoop (fuel + 1) s = .raised (raiseError .corruptStream 5 0 u) ∧ unread u = q ∧
      UnpackerOnly s u := by
  obtain ⟨v, hv, huv, hsv, _⟩ := readBit_some h8 ho hu
  refine ⟨v, ?_, huv, hsv⟩
  rw [decLoop, hv]
  simp only [Res.ok_andThen]
  rw [moveCur_leaf (top := top) (by rw [State.nodeAt?, hsv.node, show v.root = s.root by rw [hsv]]; exact ht) hl]
  rfl

end Sys2Proof.Machine
end

