-- ==== Sys2Proof/Laws/Host.lean ====
section
/-! SUPPORT. Command acceptance and the error entry (10_state.md R36, 30_encoding.md R113, 60_exceptions.md R288). -/

namespace Sys2Proof.Machine

/-- Everything a write of `CMD` can do (10_state.md R36, 60_exceptions.md R290). -/
theorem writeCmd_cases (c : CmdWord) (s : State) :
    (s.busy = true ∧ writeCmd c s = .next s) ∨
    (s.busy = false ∧ s.err ≠ 0 ∧ c ≠ encode .rst ∧ writeCmd c s = .next s) ∨
    (s.busy = false ∧ (s.err = 0 ∨ c = encode .rst) ∧
      writeCmd c s = runCommand c { s with busy := true }) := by
  by_cases hb : s.busy = true
  · exact .inl ⟨hb, by rw [writeCmd, if_pos hb]⟩
  · have hb' : s.busy = false := by simpa using hb
    right
    by_cases he : s.err = 0
    · refine .inr ⟨hb', .inl he, ?_⟩
      rw [writeCmd, if_neg hb, if_neg (by simp [State.inError, he])]; rfl
    · by_cases hc : c = encode .rst
      · refine .inr ⟨hb', .inr hc, ?_⟩
        rw [writeCmd, if_neg hb, if_neg (by simp [hc])]; rfl
      · refine .inl ⟨hb', he, hc, ?_⟩
        rw [writeCmd, if_neg hb, if_pos (by simp only [State.inError, Bool.and_eq_true, bne_iff_ne]; exact ⟨he, hc⟩)]

/-- A step in which the host writes `CMD`. -/
theorem step_writeCmd {s : State} {v : Nat} {rest : List HostAction} (h : s.host = .write 0 v :: rest) :
    step s = writeCmd (BitVec.ofNat 16 v) { s with host := rest } := by
  rw [step, stepHost, h]; rfl

/-- Everything an accepted command word can do (30_encoding.md R113). -/
theorem runCommand_cases (c : CmdWord) (s : State) :
    (decode c = .illegalOpcode ∧ runCommand c s = .next (usageError 1 c s)) ∨
    (decode c = .badOperand ∧ runCommand c s = .next (usageError 2 c s)) ∨
    ∃ i, decode c = .instr i ∧ runCommand c s = complete (exec i s) := by
  rw [runCommand]
  cases h : decode c with
  | illegalOpcode => exact .inl ⟨rfl, rfl⟩
  | badOperand => exact .inr (.inl ⟨rfl, rfl⟩)
  | instr i => exact .inr (.inr ⟨i, rfl, rfl⟩)

/-- The bytes a head of the oracle's list answers for. -/
theorem headD_eq_true_iff (o : List Bool) : o.headD false = true ↔ o.head? = some true := by
  cases o <;> simp

/-- Everything the error entry can do (60_exceptions.md R288). -/
theorem raiseError_cases (e : ErrClass) (sub : BitVec 3) (info : BitVec 32) (s : State) :
    (s.pkCnt = 0 ∧ raiseError e sub info s =
      { s with err := e.code, esub := sub, einfo := info, busy := false }) ∨
    (s.pkCnt ≠ 0 ∧ ∃ p : OutPort, (p.data = s.pko.data ∨ p.data = s.pko.data ++ [paddedByte s]) ∧
      raiseError e sub info s =
        { s with err := e.code, esub := sub, einfo := info, busy := false, pkAcc := 0, pkCnt := 0, pko := p }) := by
  by_cases h : s.pkCnt = 0
  · exact .inl ⟨h, by simp [raiseError, flushIgnoring, h]⟩
  · refine .inr ⟨h, (s.pko.byteOut (paddedByte s)).2, ?_, ?_⟩
    · rcases byteOut_cases s.pko (paddedByte s) with ⟨_, e⟩ | ⟨_, e⟩ <;> simp [e]
    · rw [raiseError, flushIgnoring, if_neg h]; rfl

/-- What the error entry leaves and writes, without the case split. -/
theorem raiseError_eq (e : ErrClass) (sub : BitVec 3) (info : BitVec 32) (s : State) :
    raiseError e sub info s =
      { s with
        err := e.code, esub := sub, einfo := info, busy := false
        pkAcc := (raiseError e sub info s).pkAcc, pkCnt := 0, pko := (raiseError e sub info s).pko } ∧
      s.pko.data <+: (raiseError e sub info s).pko.data := by
  rcases raiseError_cases e sub info s with ⟨h, k⟩ | ⟨h, p, hp, k⟩
  · rw [k]; exact ⟨by simp only [h], List.prefix_rfl⟩
  · rw [k]; refine ⟨rfl, ?_⟩
    rcases hp with hp | hp <;> simp only [hp]
    · exact List.prefix_rfl
    · exact List.prefix_append _ _

theorem ErrClass.code_ne (e : ErrClass) : e.code ≠ 0 := by cases e <;> decide

end Sys2Proof.Machine
end

