-- ==== Sys2Proof/Laws/Within.lean ====
section
/-! SUPPORT. What a piece of an operation stays within: one induction per loop, for every relation on states that its single accesses respect. -/

namespace Sys2Proof.Machine

/-- A piece of an operation that starts at `s` stays within the relation `R`: where it goes on, it has
gone from `s` to a state that `R` allows, and where it raises, `R` held up to the error entry and the
error is one of `A`. Where the machine stops, nothing is said. -/
def Within (R : State → State → Prop) (A : ErrClass → BitVec 3 → Prop) {α : Type} (s : State)
    (r : Res α) : Prop :=
  match r with
  | .ok _ t => R s t
  | .raised t => ∃ e sub info u, A e sub ∧ R s u ∧ t = raiseError e sub info u
  | .stop _ => True

variable {R : State → State → Prop} {A : ErrClass → BitVec 3 → Prop} {α β : Type}

/-- Pieces in sequence stay within a transitive relation. -/
theorem Within.andThen {s : State} {r : Res α} {k : α → State → Res β}
    (trans : ∀ {a b c}, R a b → R b c → R a c) (h : Within R A s r)
    (hk : ∀ a t, r = .ok a t → R s t → Within R A t (k a t)) : Within R A s (r.andThen k) := by
  cases r with
  | ok a t =>
    have h : R s t := h
    have := hk a t rfl h
    rw [Res.ok_andThen]
    cases hr : k a t with
    | ok b u => rw [hr] at this; exact trans h this
    | raised u =>
      rw [hr] at this
      obtain ⟨e, sub, info, v, ha, hv, rfl⟩ := this
      exact ⟨e, sub, info, v, ha, trans h hv, rfl⟩
    | stop f => trivial
  | raised t => exact h
  | stop f => trivial

/-- A step before a piece. -/
theorem Within.after {s t : State} {r : Res α} (trans : ∀ {a b c}, R a b → R b c → R a c)
    (h : Within R A t r) (k : R s t) : Within R A s r := by
  cases r with
  | ok a u => exact trans k h
  | raised u =>
    obtain ⟨e, sub, info, v, ha, hv, rfl⟩ := h
    exact ⟨e, sub, info, v, ha, trans k hv, rfl⟩
  | stop f => trivial

theorem Within.raise {s : State} {e : ErrClass} {sub : BitVec 3} {info : BitVec 32} {u : State}
    (ha : A e sub) (hr : R s u) : Within R A s (Res.raised (raiseError e sub info u) : Res α) :=
  ⟨e, sub, info, u, ha, hr, rfl⟩

/-- A whole operation that stays within `R` ends in a state that `R` allows, or in the error entry. -/
theorem Within.next {s t : State} {r : Res α} (h : Within R A s r) (e : r.outcome = .next t) :
    R s t ∨ ∃ e sub info u, A e sub ∧ R s u ∧ t = raiseError e sub info u := by
  cases r with
  | ok a u => cases e; exact .inl h
  | raised u => cases e; exact .inr h
  | stop f => cases e

/-- A relation that every state has with itself and that can be taken step by step. -/
structure Steps (R : State → State → Prop) : Prop where
  refl : ∀ s, R s s
  trans : ∀ {a b c}, R a b → R b c → R a c

/-! ## Packer -/

/-- `R` allows what one `WriteBit` does. -/
structure AllowsPacker (R : State → State → Prop) : Prop extends Steps R where
  shift : ∀ (b : Bool) (s : State), s.pkCnt ≠ 7 →
    R s { s with pkAcc := s.pkAcc.shiftConcat b, pkCnt := s.pkCnt + 1 }
  byte : ∀ (b : Bool) (s : State), s.pkCnt = 7 →
    R s { s with
      pkAcc := 0, pkCnt := 0
      pko := { data := s.pko.data ++ [s.pkAcc.shiftConcat b], oracle := s.pko.oracle.tail } }
  fail : ∀ s : State,
    R s { s with pkAcc := 0, pkCnt := 0, pko := { data := s.pko.data, oracle := s.pko.oracle.tail } }

theorem writeBit_within (h : AllowsPacker R) (ha : A .io 3) (b : Bool) (s : State) :
    Within R A s (writeBit b s) := by
  rcases writeBit_cases b s with ⟨h7, e⟩ | ⟨h7, _, e⟩ | ⟨h7, _, e⟩ <;> rw [e]
  · exact h.shift b s h7
  · exact h.byte b s h7
  · exact ⟨.io, 3, 0, _, ha, h.fail s, by simp [raiseError, flushIgnoring, ErrClass.code]⟩

theorem writeSeq_within (h : AllowsPacker R) (ha : A .io 3) (q : List Bool) (s : State) :
    Within R A s (writeSeq q s) := by
  induction q generalizing s with
  | nil => exact h.refl s
  | cons b q ih => exact (writeBit_within h ha b s).andThen h.trans fun _ t _ _ => ih t

theorem put_within (h : AllowsPacker R) (ha : A .io 3) (fuel : Nat) (n : Index) (s : State) :
    Within R A s (put fuel n s) := by
  induction fuel generalizing n s with
  | zero => trivial
  | succ fuel ih =>
    rw [put]
    cases hr : s.nodeAt? n with
    | none => trivial
    | some r =>
      simp only
      split
      · exact (writeBit_within h ha _ s).andThen h.trans fun _ t _ _ => writeSeq_within h ha _ t
      · exact (writeBit_within h ha _ s).andThen h.trans fun _ t _ _ =>
          (ih _ t).andThen h.trans fun _ u _ _ => ih _ u

theorem flush_within (h : AllowsPacker R) (ha : A .io 3)
    (hf : ∀ s : State, s.pkCnt ≠ 0 → R s { s with
      pkAcc := 0, pkCnt := 0
      pko := { data := s.pko.data ++ [paddedByte s], oracle := s.pko.oracle.tail } }) (s : State) :
    Within R A s (flush s) := by
  rcases flush_cases s with ⟨h0, e⟩ | ⟨h0, _, e⟩ | ⟨h0, _, e⟩ <;> rw [e]
  · exact h.refl s
  · exact hf s h0
  · exact ⟨.io, 3, 0, _, ha, h.fail s, by simp [raiseError, flushIgnoring, ErrClass.code]⟩

/-! ## Unpacker -/

/-- `R` allows what one `ReadBit` does. -/
structure AllowsUnpacker (R : State → State → Prop) : Prop extends Steps R where
  access : ∀ (s : State) (p : InPort), R s { s with upi := p }
  load : ∀ (s : State) (v : Byte), R s { s with upBuf := v, upCnt := 8 }
  shift : ∀ s : State, s.upCnt ≠ 0 → R s { s with upBuf := s.upBuf <<< 1, upCnt := s.upCnt - 1 }

theorem readBit_within (h : AllowsUnpacker R) (ha : A .io 2) (s : State) :
    Within R A s (readBit s) := by
  by_cases h0 : s.upCnt = 0
  · rw [readBit, if_pos h0]
    obtain ⟨p, hp⟩ : ∃ p, s.upi.byteIn.2 = p := ⟨_, rfl⟩
    rw [byteInUpi, hp]
    cases s.upi.byteIn.1 with
    | ioFail => exact .raise ha (h.access s p)
    | endOfStream => exact h.access s p
    | byte v =>
      exact h.trans (h.trans (h.access s p) (h.load { s with upi := p } v))
        (h.shift { s with upi := p, upBuf := v, upCnt := 8 } (show (8 : BitVec 4) ≠ 0 by decide))
  · rw [readBit, if_neg h0]; exact h.shift s h0

theorem readMore_within {n : Nat} (h : AllowsUnpacker R) (ha : A .io 2) (k : Nat) (v : BitVec n)
    (s : State) : Within R A s (readMore k v s) := by
  induction k generalizing v s with
  | zero => exact h.refl s
  | succ k ih =>
    refine (readBit_within h ha s).andThen h.trans fun b t _ _ => ?_
    cases b with
    | none => exact h.refl t
    | some b => exact ih _ t

theorem readBit_nn {s t : State} {b : Option Bool} (h : readBit s = .ok b t) : t.nn = s.nn := by
  have := readBit_within (R := fun a b => b.nn = a.nn) (A := fun _ _ => True)
    ⟨⟨fun _ => rfl, fun p q => q.trans p⟩, fun _ _ => rfl, fun _ _ => rfl, fun _ _ => rfl⟩ trivial s
  rw [h] at this; exact this

/-- `R` allows what `Get` does: also the writes of node records below `NODE[513]` and the allocation. -/
structure AllowsGet (R : State → State → Prop) : Prop extends AllowsUnpacker R where
  alloc : ∀ s : State, s.nn ≠ 513 → R s s.alloc
  record : ∀ (s : State) (n : Index) (leaf : Bool) (x : Symbol) (l r : Index),
    R s (s.setNode n { leaf := leaf, sym := x, left := l, right := r, w := (freeNodeRec s n.toNat).w })

theorem get_within (h : AllowsGet R) (h1 : A .corruptStream 1) (h2 : A .corruptStream 2)
    (h3 : A .corruptStream 3) (ha : A .io 2) (fuel : Nat) (s : State) : Within R A s (get fuel s) := by
  induction fuel generalizing s with
  | zero => trivial
  | succ fuel ih =>
    rw [get]
    by_cases hn : s.nn = 513
    · rw [if_pos hn]; exact .raise h3 (h.refl s)
    rw [if_neg hn]
    refine (readBit_within h.toAllowsUnpacker ha s).andThen h.trans fun b t hb _ => ?_
    cases b with
    | none => exact .raise h1 (h.refl t)
    | some tag =>
      have hnt : t.nn ≠ 513 := by rw [readBit_nn hb]; exact hn
      simp only
      split
      · have hx : Within R A t.alloc (getLeaf t.nn t.alloc) := by
          refine (readMore_within h.toAllowsUnpacker ha 9 0 t.alloc).andThen h.trans fun v u _ _ => ?_
          cases v with
          | none => exact .raise h1 (h.refl u)
          | some v =>
            simp only
            split
            · exact .raise h2 (h.refl u)
            · exact h.record u _ _ _ _ _
        exact hx.after h.trans (h.alloc t hnt)
      · have hx : Within R A t.alloc ((get fuel t.alloc).andThen fun l u => (get fuel u).andThen fun r v =>
            .ok t.nn (setInternal t.nn l r v)) :=
          (ih _).andThen h.trans fun l u _ _ => (ih u).andThen h.trans fun r v _ _ => h.record v _ _ _ _ _
        exact hx.after h.trans (h.alloc t hnt)

/-! ## Encoder, scanner, decoder -/

/-- `R` allows an access of `SRC`. -/
def AllowsSrc (R : State → State → Prop) : Prop := ∀ (s : State) (p : InPort), R s { s with src := p }

theorem emit_within (h : AllowsPacker R) (ha : A .io 3) (h4 : A .internalInvariant 1) (i : SymIdx)
    (s : State) : Within R A s (emit i s) := by
  rw [emit]
  split
  · exact .raise h4 (h.refl s)
  · exact writeSeq_within h ha _ s

theorem encLoop_within (h : AllowsPacker R) (hs : AllowsSrc R) (ha : A .io 3) (h1 : A .io 1)
    (h4 : A .internalInvariant 1) (fuel : Nat) (s : State) : Within R A s (encLoop fuel s) := by
  induction fuel generalizing s with
  | zero => trivial
  | succ fuel ih =>
    rw [encLoop]
    rcases byteIn_cases s.src with ⟨_, e⟩ | ⟨_, _, e⟩ | ⟨_, v, r, _, e, _⟩ <;> simp only [byteInSrc, e]
    · exact .raise h1 (hs s _)
    · exact hs s _
    · exact Within.after h.trans ((emit_within h ha h4 _ _).andThen h.trans fun _ u _ _ => ih u) (hs s _)

/-- `R` allows the increment of a counter below the largest. -/
def AllowsCount (R : State → State → Prop) : Prop :=
  ∀ (s : State) (i : SymIdx), s.count i ≠ s.cfg.maxCount → R s (s.setCount i (s.count i + 1))

theorem countByte_within (h : Steps R) (hc : AllowsCount R) (h6 : A .overflow 1) (b : Byte) (s : State) :
    Within R A s (countByte b s) := by
  rw [countByte]
  split
  · exact .raise h6 (h.refl s)
  · rename_i hne; exact hc s _ hne

theorem scanLoop_within (h : Steps R) (hc : AllowsCount R) (hs : AllowsSrc R) (h1 : A .io 1)
    (h6 : A .overflow 1) (fuel : Nat) (s : State) : Within R A s (scanLoop fuel s) := by
  induction fuel generalizing s with
  | zero => trivial
  | succ fuel ih =>
    rw [scanLoop]
    rcases byteIn_cases s.src with ⟨_, e⟩ | ⟨_, _, e⟩ | ⟨_, v, r, _, e, _⟩ <;> simp only [byteInSrc, e]
    · exact .raise h1 (hs s _)
    · exact hs s _
    · exact Within.after h.trans ((countByte_within h hc h6 _ _).andThen h.trans fun _ u _ _ => ih u) (hs s _)

/-- `R` allows what a turn of `DEC` does. -/
structure AllowsDec (R : State → State → Prop) : Prop extends AllowsUnpacker R where
  cursor : ∀ (s : State) (n : Index), R s (s.setCur n)
  discard : ∀ s : State, R s (discardBits s)
  sink : ∀ (s : State) (v : Byte), R s { s with dst := (s.dst.byteOut v).2 }

theorem decLoop_within (h : AllowsDec R) (ha : A .io 2) (hd : A .io 4) (h4 : A .corruptStream 4)
    (h5 : A .corruptStream 5) (fuel : Nat) (s : State) : Within R A s (decLoop fuel s) := by
  induction fuel generalizing s with
  | zero => trivial
  | succ fuel ih =>
    rw [decLoop]
    refine (readBit_within h.toAllowsUnpacker ha s).andThen h.trans fun b t _ _ => ?_
    cases b with
    | none => exact .raise h4 (h.refl t)
    | some b =>
      have hm : Within R A t (moveCur b t) := by
        rw [moveCur]
        cases t.nodeAt? t.root with
        | none => trivial
        | some top =>
          simp only
          split
          · split
            · exact .raise h5 (h.refl t)
            · exact h.refl t
          · cases t.nodeAt? t.cur with
            | none => trivial
            | some here => exact h.cursor t _
      refine hm.andThen h.trans fun _ u _ _ => ?_
      have hv : Within R A u (arrive u) := by
        rw [arrive]
        cases u.nodeAt? u.cur with
        | none => trivial
        | some r =>
          simp only
          split
          · split
            · exact h.discard u
            · rcases byteOut_cases u.dst (symByte r.sym) with ⟨_, e⟩ | ⟨_, e⟩
              · simp only [byteOutDst, e]
                have := h.sink u (symByte r.sym)
                rw [e] at this
                exact h.trans this (h.cursor _ _)
              · simp only [byteOutDst, e]
                have := h.sink u (symByte r.sym)
                rw [e] at this
                exact .raise hd this
          · exact h.refl u
      refine hv.andThen h.trans fun atEnd w _ _ => ?_
      cases atEnd with
      | true => exact h.refl w
      | false => exact ih w

/-! ## Code table -/

/-- `R` allows the write of a code. -/
def AllowsCodes (R : State → State → Prop) : Prop :=
  ∀ (s : State) (c : Vector CodeRec 257), R s { s with ct := c }

theorem recordCode_within (hc : AllowsCodes R) (x : Symbol) (p : List Bool) (s : State) :
    Within R A s (recordCode x p s) := by
  rw [recordCode]
  cases symIdx? x with
  | none => trivial
  | some i => exact hc s _

theorem walk_within (h : Steps R) (hc : AllowsCodes R) (fuel : Nat) (n : Index) (p : List Bool)
    (s : State) : Within R A s (walk fuel n p s) := by
  induction fuel generalizing n p s with
  | zero => trivial
  | succ fuel ih =>
    rw [walk]
    cases s.nodeAt? n with
    | none => trivial
    | some r =>
      simp only
      split
      · exact recordCode_within hc _ _ s
      · exact (ih _ _ s).andThen h.trans fun _ t _ _ => ih _ _ t

theorem genCodes_within (h : Steps R) (hc : AllowsCodes R) (s : State) :
    Within R A s (genCodes s) := by
  rw [genCodes]
  cases s.nodeAt? s.root with
  | none => trivial
  | some r =>
    simp only
    split
    · exact recordCode_within hc _ _ s
    · exact walk_within h hc _ _ _ s

end Sys2Proof.Machine
end

