-- ==== Sys2Proof/Laws/Exec.lean ====
section
/-! SUPPORT. What every command may change, completed or ended by an error. -/

namespace Sys2Proof.Machine

/-- Only the packer and `PKO` may differ, and `PKO` only grows. -/
def PackerFrame (s t : State) : Prop := PackerOnly s t ∧ s.pko.data <+: t.pko.data
theorem packerFrame_allows : AllowsPacker PackerFrame where
  refl _ := ⟨rfl, List.prefix_rfl⟩
  trans h k := ⟨h.1.trans' k.1, h.2.trans k.2⟩
  shift _ _ _ := ⟨rfl, List.prefix_rfl⟩
  byte _ _ _ := ⟨rfl, List.prefix_append _ _⟩
  fail _ := ⟨rfl, List.prefix_rfl⟩

/-- What each command may have changed up to its end or up to its error entry. -/
def ExecFrame : Instr → State → State → Prop
  | .nop, s, t => t = s
  | .rst, s, t => t = resetEngine s
  | .fclr, s, t | .feof, s, t | .fset _, s, t | .facc _, s, t => t = { s with ft := t.ft }
  | .fscan, s, t => t = { s with ft := t.ft, src := t.src }
  | .build, s, t => t = { s with node := t.node, nn := t.nn, root := t.root, heap := t.heap, hsize := 0, tv := true, cv := false, draws := t.draws } ∨ t = s
  | .gen, s, t => t = { s with ct := t.ct, cv := t.cv, draws := t.draws }
  | .ser, s, t | .wmagic, s, t | .close, s, t => PackerFrame s t
  | .des, s, t => t = { s with node := t.node, nn := t.nn, root := t.root, tv := t.tv, cv := t.cv, upBuf := t.upBuf, upCnt := t.upCnt, upi := t.upi, draws := t.draws }
  | .enc, s, t => t = { s with src := t.src, pkAcc := t.pkAcc, pkCnt := t.pkCnt, pko := t.pko } ∧ s.pko.data <+: t.pko.data
  | .dec, s, t => t = { s with cur := t.cur, upBuf := t.upBuf, upCnt := t.upCnt, upi := t.upi, dst := t.dst } ∧ s.dst.data <+: t.dst.data
  | .rmagic, s, t => UnpackerOnly s t

/-- The errors a command may raise (60_exceptions.md R293). -/
def MayRaise (i : Instr) (e : ErrClass) (sub : BitVec 3) : Prop := (e.code.toNat, sub.toNat) ∈ mayRaise i

theorem unpackerOnly_allows : AllowsUnpacker UnpackerOnly :=
  ⟨⟨fun _ => rfl, fun h k => h.trans' k⟩, fun _ _ => rfl, fun _ _ => rfl, fun _ _ => rfl⟩

/-- What `DES` may change. -/
def DesFrame (s t : State) : Prop := t = { s with node := t.node, nn := t.nn, root := t.root, tv := t.tv, cv := t.cv, upBuf := t.upBuf, upCnt := t.upCnt, upi := t.upi, draws := t.draws }
theorem desFrame_allows : AllowsGet DesFrame where
  refl _ := rfl
  trans h k := by unfold DesFrame at *; rw [h] at k; exact k
  access _ _ := rfl
  load _ _ := rfl
  shift _ _ := rfl
  alloc _ _ := rfl
  record _ _ _ _ _ _ := rfl

/-- What `ENC` may change. -/
def EncFrame (s t : State) : Prop := t = { s with src := t.src, pkAcc := t.pkAcc, pkCnt := t.pkCnt, pko := t.pko } ∧ s.pko.data <+: t.pko.data
theorem encFrame_allows : AllowsPacker EncFrame where
  refl s := ⟨rfl, List.prefix_rfl⟩
  trans h k := ⟨by have h1 := h.1; have k1 := k.1; rw [h1] at k1; exact k1, h.2.trans k.2⟩
  shift b s _ := ⟨rfl, List.prefix_rfl⟩
  byte b s _ := ⟨rfl, List.prefix_append _ _⟩
  fail s := ⟨rfl, List.prefix_rfl⟩
/-- What `DEC` may change. -/
def DecFrame (s t : State) : Prop := t = { s with cur := t.cur, upBuf := t.upBuf, upCnt := t.upCnt, upi := t.upi, dst := t.dst } ∧ s.dst.data <+: t.dst.data
theorem decFrame_allows : AllowsDec DecFrame where
  refl s := ⟨rfl, List.prefix_rfl⟩
  trans h k := ⟨by have h1 := h.1; have k1 := k.1; rw [h1] at k1; exact k1, h.2.trans k.2⟩
  access _ _ := ⟨rfl, List.prefix_rfl⟩
  load _ _ := ⟨rfl, List.prefix_rfl⟩
  shift _ _ := ⟨rfl, List.prefix_rfl⟩
  cursor _ _ := ⟨rfl, List.prefix_rfl⟩
  discard _ := ⟨rfl, List.prefix_rfl⟩
  sink s v := ⟨rfl, by rcases byteOut_cases s.dst v with ⟨_, e⟩ | ⟨_, e⟩ <;> simp [e]⟩

/-- Everything a decoded command can do: it completes within its frame, or it raises one of its errors
after changes within its frame. -/
theorem exec_frame (i : Instr) (hi : i.wellFormed = true) (s t : State) (h : exec i s = .next t) :
    ExecFrame i s t ∨ ∃ e sub info u, MayRaise i e sub ∧ ExecFrame i s u ∧ t = raiseError e sub info u := by
  cases i with
  | nop => cases h; exact .inl rfl
  | rst => cases h; exact .inl rfl
  | fclr => cases h; exact .inl rfl
  | feof => cases h; exact .inl rfl
  | fset x =>
    simp [Instr.wellFormed] at hi
    simp only [exec, execFset, symIdx?_eq hi] at h; cases h; exact .inl rfl
  | facc b =>
    refine (Within.next (R := ExecFrame (.facc b)) (A := MayRaise (.facc b)) (r := countByte b s) ?_ h)
    have S : Steps (ExecFrame (.facc b)) := ⟨fun _ => rfl, fun h k => by simp only [ExecFrame] at *; rw [h] at k; exact k⟩
    exact countByte_within S (fun _ _ _ => rfl) (by simp [MayRaise, mayRaise, ErrClass.code]) b s
  | fscan =>
    have S : Steps (ExecFrame .fscan) := ⟨fun _ => rfl, fun h k => by simp only [ExecFrame] at *; rw [h] at k; exact k⟩
    refine Within.next (R := ExecFrame .fscan) (A := MayRaise .fscan) ?_ h
    refine Within.after S.trans ?_ (show ExecFrame .fscan s (clearTable s) from rfl)
    exact (scanLoop_within S (fun _ _ _ => rfl) (fun _ _ => rfl) (by simp [MayRaise, mayRaise, ErrClass.code]) (by simp [MayRaise, mayRaise, ErrClass.code]) _ _).andThen S.trans fun _ u _ _ => rfl
  | build =>
    simp only [exec, execBuild] at h
    split at h
    · rename_i hne
      cases h
      obtain ⟨T, _, _, _, _, e, _⟩ := buildTree_ok hne
      left
      rw [ExecFrame]; left; rw [e]
    · cases h
      exact .inr ⟨.usage, 3, _, s, by simp [MayRaise, mayRaise, ErrClass.code], .inr rfl, rfl⟩
  | gen =>
    simp only [exec, execGen] at h
    split at h
    · have S : Steps (ExecFrame .gen) := ⟨fun _ => rfl, fun h k => by simp only [ExecFrame] at *; rw [h] at k; exact k⟩
      refine Within.next (R := ExecFrame .gen) (A := MayRaise .gen) ?_ h
      refine Within.after S.trans ?_ (show ExecFrame .gen s (clearCodes s.draw.dropCodes) from rfl)
      exact (genCodes_within S (fun _ _ => rfl) _).andThen S.trans fun _ u _ _ => rfl
    · cases h
      exact .inr ⟨.usage, 3, _, s, by simp [MayRaise, mayRaise, ErrClass.code], rfl, rfl⟩
  | ser =>
    simp only [exec, execSer] at h
    split at h
    · exact Within.next (put_within (A := MayRaise .ser) packerFrame_allows (by simp [MayRaise, mayRaise, ErrClass.code]) _ _ _) h
    · cases h
      exact .inr ⟨.usage, 3, _, s, by simp [MayRaise, mayRaise, ErrClass.code], packerFrame_allows.refl s, rfl⟩
  | des =>
    refine Within.next (R := ExecFrame .des) (A := MayRaise .des) ?_ h
    refine Within.after desFrame_allows.trans ?_ (show DesFrame s s.draw.dropTree.noNodes from rfl)
    exact (get_within desFrame_allows (by simp [MayRaise, mayRaise, ErrClass.code]) (by simp [MayRaise, mayRaise, ErrClass.code]) (by simp [MayRaise, mayRaise, ErrClass.code]) (by simp [MayRaise, mayRaise, ErrClass.code]) _ _).andThen desFrame_allows.trans fun _ _ _ _ => rfl
  | enc =>
    simp only [exec, execEnc] at h
    split at h
    · refine Within.next (R := ExecFrame .enc) (A := MayRaise .enc) ?_ h
      exact (encLoop_within encFrame_allows (fun s p => ⟨rfl, List.prefix_rfl⟩) (by simp [MayRaise, mayRaise, ErrClass.code]) (by simp [MayRaise, mayRaise, ErrClass.code]) (by simp [MayRaise, mayRaise, ErrClass.code]) _ _).andThen encFrame_allows.trans fun _ u _ _ => emit_within encFrame_allows (by simp [MayRaise, mayRaise, ErrClass.code]) (by simp [MayRaise, mayRaise, ErrClass.code]) _ _
    · cases h
      exact .inr ⟨.usage, 3, _, s, by simp [MayRaise, mayRaise, ErrClass.code], encFrame_allows.refl s, rfl⟩
  | dec =>
    simp only [exec, execDec] at h
    split at h
    · refine Within.next (R := ExecFrame .dec) (A := MayRaise .dec) ?_ h
      refine Within.after decFrame_allows.trans ?_ (decFrame_allows.cursor s s.root)
      exact decLoop_within decFrame_allows (by simp [MayRaise, mayRaise, ErrClass.code]) (by simp [MayRaise, mayRaise, ErrClass.code]) (by simp [MayRaise, mayRaise, ErrClass.code]) (by simp [MayRaise, mayRaise, ErrClass.code]) _ _
    · cases h
      exact .inr ⟨.usage, 3, _, s, by simp [MayRaise, mayRaise, ErrClass.code], decFrame_allows.refl s, rfl⟩
  | wmagic => exact Within.next (writeSeq_within (A := MayRaise .wmagic) packerFrame_allows (by simp [MayRaise, mayRaise, ErrClass.code]) _ _) h
  | close =>
    exact Within.next (flush_within (A := MayRaise .close) packerFrame_allows (by simp [MayRaise, mayRaise, ErrClass.code]) (fun s _ => ⟨rfl, List.prefix_append _ _⟩) _) h
  | rmagic =>
    refine Within.next (R := ExecFrame .rmagic) (A := MayRaise .rmagic) ?_ h
    refine (readMore_within unpackerOnly_allows (by simp [MayRaise, mayRaise, ErrClass.code]) 32 0 s).andThen unpackerOnly_allows.trans fun m t _ _ => ?_
    cases m with
    | none => exact .raise (by simp [MayRaise, mayRaise, ErrClass.code]) (unpackerOnly_allows.refl t)
    | some m =>
      simp only [checkMagic]
      split
      · exact unpackerOnly_allows.refl t
      · exact .raise (by simp [MayRaise, mayRaise, ErrClass.code]) (unpackerOnly_allows.refl t)

end Sys2Proof.Machine
end

