-- ==== Sys2Proof/Laws/Optimal.lean ====
section
/-! SUPPORT. The least weighted path length (41_tree_builder.md R174). -/

namespace Sys2Proof.Machine

/-! ## Trees of weights -/

/-- A tree whose leaves are weights. -/
inductive WeightTree where
  | leaf (w : Nat)
  | node (l r : WeightTree)

/-- The weights of the leaves, left to right. -/
def WeightTree.leaves : WeightTree → List Nat
  | .leaf w => [w]
  | .node l r => l.leaves ++ r.leaves

/-- The depths of the leaves, left to right, the root being at depth `d`. -/
def WeightTree.depths : Nat → WeightTree → List Nat
  | d, .leaf _ => [d]
  | d, .node l r => l.depths (d + 1) ++ r.depths (d + 1)

/-- The sum of depth times weight over two lists side by side. -/
def dot : List Nat → List Nat → Nat
  | d :: ds, w :: ws => d * w + dot ds ws
  | _, _ => 0

theorem dot_append {ds ws : List Nat} (es vs : List Nat) (h : ds.length = ws.length) :
    dot (ds ++ es) (ws ++ vs) = dot ds ws + dot es vs := by
  induction ds generalizing ws with
  | nil => cases ws with
    | nil => simp [dot]
    | cons w ws => simp at h
  | cons d ds ih => cases ws with
    | nil => simp at h
    | cons w ws => simp only [List.cons_append, dot, ih (by simpa using h)]; omega

theorem WeightTree.depths_length (t : WeightTree) (d : Nat) : (t.depths d).length = t.leaves.length := by
  induction t generalizing d with
  | leaf w => rfl
  | node l r ihl ihr => simp [WeightTree.depths, WeightTree.leaves, ihl, ihr]

theorem WeightTree.depths_ge (t : WeightTree) (d : Nat) : ∀ e ∈ t.depths d, d ≤ e := by
  induction t generalizing d with
  | leaf w => simp [WeightTree.depths]
  | node l r ihl ihr =>
    intro e he
    rcases List.mem_append.mp he with h | h
    · have := ihl (d + 1) e h; omega
    · have := ihr (d + 1) e h; omega

/-- The same tree with other weights at its leaves. -/
theorem WeightTree.relabel (t : WeightTree) (ws : List Nat) (h : ws.length = t.leaves.length) :
    ∃ u : WeightTree, u.leaves = ws ∧ ∀ d, u.depths d = t.depths d := by
  induction t generalizing ws with
  | leaf w =>
    obtain ⟨x, rfl⟩ := List.length_eq_one_iff.mp (by simpa [WeightTree.leaves] using h)
    exact ⟨.leaf x, rfl, fun _ => rfl⟩
  | node l r ihl ihr =>
    simp only [WeightTree.leaves, List.length_append] at h
    obtain ⟨a, ha, hda⟩ := ihl (ws.take l.leaves.length) (by simp; omega)
    obtain ⟨b, hb, hdb⟩ := ihr (ws.drop l.leaves.length) (by simp; omega)
    exact ⟨.node a b, by simp [WeightTree.leaves, ha, hb], fun d => by simp [WeightTree.depths, hda, hdb]⟩

/-- The tree `node l r` with its root at depth `d` has two leaves at its greatest depth that are the
two children of one node; and there is the tree in which one leaf stands in place of that node. -/
def Deepest (l r : WeightTree) (d : Nat) : Prop :=
  ∃ (e : Nat) (pre post ws vs : List Nat) (x y : Nat), d ≤ e ∧
      (WeightTree.node l r).depths d = pre ++ [e + 1, e + 1] ++ post ∧
      (WeightTree.node l r).leaves = ws ++ [x, y] ++ vs ∧ ws.length = pre.length ∧
      vs.length = post.length ∧ (∀ k ∈ pre ++ post, k ≤ e + 1) ∧
      ∃ u : WeightTree, u.depths d = pre ++ [e] ++ post ∧ ∃ z, u.leaves = ws ++ [z] ++ vs

theorem WeightTree.siblings (l r : WeightTree) (d : Nat) : Deepest l r d := by
  induction h : l.leaves.length + r.leaves.length using Nat.strong_induction_on generalizing l r d with
  | _ n ih =>
    have pos : ∀ t : WeightTree, 1 ≤ t.leaves.length := fun t => by
      induction t with
      | leaf w => simp [WeightTree.leaves]
      | node a b ha hb => simp [WeightTree.leaves]; omega
    -- the left child goes deepest
    have goLeft : ∀ a b : WeightTree, l = .node a b →
        (∀ e pre post, (WeightTree.node a b).depths (d + 1) = pre ++ [e + 1, e + 1] ++ post →
          (∀ k ∈ pre ++ post, k ≤ e + 1) → ∀ k ∈ r.depths (d + 1), k ≤ e + 1) → Deepest l r d := fun a b hl hmax => by
      obtain ⟨e, pre, post, ws, vs, x, y, he, h1, h2, h3, h4, h5, u, h6, z, h7⟩ :=
        ih (a.leaves.length + b.leaves.length) (by rw [← h, hl]; simp [WeightTree.leaves]; have := pos r; omega) a b (d + 1) rfl
      refine ⟨e, pre, post ++ r.depths (d + 1), ws, vs ++ r.leaves, x, y, by omega, ?_, ?_, h3, ?_, ?_,
        .node u r, ?_, z, ?_⟩
      · rw [WeightTree.depths, hl, h1]; simp
      · rw [WeightTree.leaves, hl, h2]; simp
      · simp [h4, WeightTree.depths_length]
      · intro k hk
        rw [← List.append_assoc, List.mem_append] at hk
        rcases hk with hk | hk
        · exact h5 k hk
        · exact hmax e pre post h1 h5 k hk
      · rw [WeightTree.depths, h6]; simp
      · rw [WeightTree.leaves, h7]; simp
    have goRight : ∀ a b : WeightTree, r = .node a b →
        (∀ e pre post, (WeightTree.node a b).depths (d + 1) = pre ++ [e + 1, e + 1] ++ post →
          (∀ k ∈ pre ++ post, k ≤ e + 1) → ∀ k ∈ l.depths (d + 1), k ≤ e + 1) → Deepest l r d := fun a b hr hmax => by
      obtain ⟨e, pre, post, ws, vs, x, y, he, h1, h2, h3, h4, h5, u, h6, z, h7⟩ :=
        ih (a.leaves.length + b.leaves.length) (by rw [← h, hr]; simp [WeightTree.leaves]; have := pos l; omega) a b (d + 1) rfl
      refine ⟨e, l.depths (d + 1) ++ pre, post, l.leaves ++ ws, vs, x, y, by omega, ?_, ?_, ?_, h4, ?_,
        .node l u, ?_, z, ?_⟩
      · rw [WeightTree.depths, hr, h1]; simp
      · rw [WeightTree.leaves, hr, h2]; simp
      · simp [h3, WeightTree.depths_length]
      · intro k hk
        rw [List.append_assoc, List.mem_append] at hk
        rcases hk with hk | hk
        · exact hmax e pre post h1 h5 k hk
        · exact h5 k hk
      · rw [WeightTree.depths, h6]; simp
      · rw [WeightTree.leaves, h7]; simp
    have top : ∀ (e : Nat) (pre post D : List Nat), D = pre ++ [e + 1, e + 1] ++ post →
        (∀ k ∈ pre ++ post, k ≤ e + 1) → (∀ k ∈ D, k ≤ e + 1) ∧ e + 1 ∈ D := fun e pre post D hD hk => by
      subst hD
      refine ⟨fun k hk' => ?_, by simp⟩
      simp only [List.mem_append, List.mem_cons, List.not_mem_nil, or_false] at hk' hk
      rcases hk' with (h | h | h) | h
      · exact hk k (.inl h)
      · omega
      · omega
      · exact hk k (.inr h)
    cases l with
    | leaf x =>
      cases r with
      | leaf y =>
        exact ⟨d, [], [], [], [], x, y, Nat.le_refl _, rfl, rfl, rfl, rfl, by simp, .leaf 0, rfl, 0, rfl⟩
      | node a b =>
        refine goRight a b rfl fun e pre post h1 h5 k hk => ?_
        have := WeightTree.depths_ge (.node a b) (d + 1) (e + 1) (top e pre post _ h1 h5).2
        simp [WeightTree.depths] at hk; omega
    | node a b =>
      cases r with
      | leaf y =>
        refine goLeft a b rfl fun e pre post h1 h5 k hk => ?_
        have := WeightTree.depths_ge (.node a b) (d + 1) (e + 1) (top e pre post _ h1 h5).2
        simp [WeightTree.depths] at hk; omega
      | node a' b' =>
        by_cases hcmp : ∃ e ∈ (WeightTree.node a b).depths (d + 1), ∀ k ∈ (WeightTree.node a' b').depths (d + 1), k ≤ e
        · obtain ⟨m, hm, hm'⟩ := hcmp
          refine goLeft a b rfl fun e pre post h1 h5 k hk => ?_
          have := (top e pre post _ h1 h5).1 m hm
          have := hm' k hk; omega
        · push Not at hcmp
          refine goRight a' b' rfl fun e pre post h1 h5 k hk => ?_
          obtain ⟨m, hm, hlt⟩ := hcmp k hk
          have := (top e pre post _ h1 h5).1 m hm
          omega

/-! ## The exchange -/

/-- Putting the least weight at the greatest depth costs nothing. -/
theorem exchange {D W R : List Nat} {e x a : Nat} (hD : ∀ d ∈ D, d ≤ e) (hl : D.length = W.length)
    (hp : (x :: W).Perm (a :: R)) (ha : ∀ r ∈ R, a ≤ r) :
    ∃ V : List Nat, V.length = W.length ∧ V.Perm R ∧ dot D V + e * a ≤ dot D W + e * x := by
  by_cases hx : x = a
  · subst hx; exact ⟨W, rfl, hp.cons_inv, Nat.le_refl _⟩
  · have haW : a ∈ W := by
      have := hp.mem_iff.mpr (List.mem_cons_self (a := a) (l := R))
      exact (List.mem_cons.mp this).resolve_left (Ne.symm hx)
    have hxR : x ∈ R := by
      have := hp.mem_iff.mp (List.mem_cons_self (a := x) (l := W))
      exact (List.mem_cons.mp this).resolve_left hx
    obtain ⟨W1, W2, rfl⟩ := List.append_of_mem haW
    refine ⟨W1 ++ x :: W2, by simp, ?_, ?_⟩
    · refine List.perm_middle.trans ?_
      have : (a :: x :: (W1 ++ W2)).Perm (a :: R) :=
        (List.Perm.swap x a _).trans ((List.Perm.cons x List.perm_middle.symm).trans hp)
      exact this.cons_inv
    · obtain ⟨D1, D', rfl, h1⟩ : ∃ D1 D', D = D1 ++ D' ∧ D1.length = W1.length :=
        ⟨D.take W1.length, D.drop W1.length, (List.take_append_drop _ _).symm, by simp at hl ⊢; omega⟩
      cases D' with
      | nil => simp at hl; omega
      | cons d D2 =>
        rw [dot_append _ _ h1, dot_append _ _ h1]
        simp only [dot]
        have hd : d ≤ e := hD d (by simp)
        have hax := ha x hxR
        obtain ⟨k, rfl⟩ := Nat.exists_eq_add_of_le hd
        obtain ⟨j, rfl⟩ := Nat.exists_eq_add_of_le hax
        have : d * (a + j) + (d + k) * a ≤ d * a + (d + k) * (a + j) := by nlinarith
        omega

/-- Merging the two least weights of a tree gives a tree cheaper by their sum at least. -/
theorem merge_cheaper {l r : WeightTree} {a b : Nat} {R : List Nat}
    (hp : (WeightTree.node l r).leaves.Perm (a :: b :: R)) (hab : a ≤ b) (hb : ∀ x ∈ R, b ≤ x) :
    ∃ u : WeightTree, u.leaves.Perm ((a + b) :: R) ∧
      dot (u.depths 0) u.leaves + (a + b) ≤
        dot ((WeightTree.node l r).depths 0) (WeightTree.node l r).leaves := by
  obtain ⟨e, pre, post, ws, vs, x, y, _, h1, h2, h3, h4, h5, u, h6, z, h7⟩ := WeightTree.siblings l r 0
  rw [h2] at hp
  have hp1 : (x :: (y :: (ws ++ vs))).Perm (a :: b :: R) := by
    refine List.Perm.trans ?_ hp
    rw [List.append_assoc]
    exact (List.perm_append_comm_assoc [x, y] ws vs)
  obtain ⟨V, hVl, hVp, hVd⟩ := exchange (D := (e + 1) :: (pre ++ post)) (e := e + 1)
    (by intro d hd; rcases List.mem_cons.mp hd with rfl | hd; exacts [Nat.le_refl _, h5 d hd])
    (by simp [h3, h4]) hp1
    (by intro r hr; rcases List.mem_cons.mp hr with rfl | hr; exacts [hab, hab.trans (hb r hr)])
  obtain ⟨y', V', rfl⟩ : ∃ y' V', V = y' :: V' := by
    cases V with
    | nil => simp at hVl
    | cons y' V' => exact ⟨y', V', rfl⟩
  obtain ⟨Q, hQl, hQp, hQd⟩ := exchange (D := pre ++ post) (e := e + 1) h5
    (by simp at hVl ⊢; omega) hVp hb
  simp only [List.length_cons, List.length_append] at hVl
  have hQl' : Q.length = ws.length + vs.length := by omega
  obtain ⟨t, ht, htd⟩ := u.relabel (Q.take ws.length ++ [a + b] ++ Q.drop ws.length) (by
    rw [h7]; simp; omega)
  refine ⟨t, ?_, ?_⟩
  · rw [ht, List.append_assoc]
    refine (List.perm_append_comm_assoc _ [a + b] _).trans ?_
    rw [List.take_append_drop]
    exact hQp.cons (a + b)
  · have hq : dot (pre ++ post) Q = dot pre (Q.take ws.length) + dot post (Q.drop ws.length) := by
      conv_lhs => rw [← List.take_append_drop ws.length Q]
      rw [dot_append _ _ (by simp; omega)]
    rw [htd, h6, ht, h1, h2]
    rw [dot_append _ _ (by simp; omega), dot_append _ _ (by simp; omega),
      dot_append _ _ (by simp; omega), dot_append _ _ (by omega)]
    have hD : dot (pre ++ post) (ws ++ vs) = dot pre ws + dot post vs := dot_append _ _ h3.symm
    simp only [dot] at hVd hQd ⊢
    rw [hq] at hQd
    rw [hD] at hVd
    simp only [Nat.add_mul, Nat.mul_add, Nat.one_mul] at *
    omega

/-! ## `huffman` is optimal -/

/-- The sum of the weights at the leaves. -/
def CodeTree.total (f : Symbol → Nat) : CodeTree → Nat
  | .leaf s => f s
  | .node l r => l.total f + r.total f

theorem CodeTree.pathLength_succ (f : Symbol → Nat) (t : CodeTree) (d : Nat) :
    t.pathLength f (d + 1) = t.pathLength f d + t.total f := by
  induction t generalizing d with
  | leaf s => simp [CodeTree.pathLength, CodeTree.total, Nat.mul_add]
  | node l r ihl ihr => simp only [CodeTree.pathLength, CodeTree.total, ihl, ihr]; omega

/-- The tree of the weights at the leaves. -/
def CodeTree.weights (f : Symbol → Nat) : CodeTree → WeightTree
  | .leaf s => .leaf (f s)
  | .node l r => .node (l.weights f) (r.weights f)

theorem CodeTree.weights_leaves (f : Symbol → Nat) (t : CodeTree) :
    (t.weights f).leaves = t.symbols.map f := by
  induction t with
  | leaf s => rfl
  | node l r ihl ihr => simp [CodeTree.weights, WeightTree.leaves, CodeTree.symbols, ihl, ihr]

theorem CodeTree.pathLength_eq_dot (f : Symbol → Nat) (t : CodeTree) (d : Nat) :
    t.pathLength f d = dot ((t.weights f).depths d) (t.weights f).leaves := by
  induction t generalizing d with
  | leaf s => simp [CodeTree.pathLength, CodeTree.weights, WeightTree.depths, WeightTree.leaves, dot, Nat.mul_comm]
  | node l r ihl ihr =>
    simp only [CodeTree.pathLength, CodeTree.weights, WeightTree.depths, WeightTree.leaves, ihl, ihr]
    rw [dot_append _ _ (WeightTree.depths_length _ _)]

theorem takeLeast_some {l m : List Twig} {a : Twig} (h : takeLeast l = some (a, m)) :
    l.Perm (a :: m) ∧ ∀ x ∈ m, a.weight ≤ x.weight := by
  obtain ⟨a', m', e, hm, rfl, hl⟩ := takeLeast_ok (l := l) (by rintro rfl; cases h)
  rw [e] at h; cases h
  refine ⟨List.perm_cons_erase hm, fun x hx => ?_⟩
  have := hl x (List.mem_of_mem_erase hx)
  simp only [Twig.lt] at this; omega

/-- The cost below the twigs of a list. -/
def below (f : Symbol → Nat) (l : List Twig) : Nat := (l.map fun t => t.tree.pathLength f 0).sum

theorem below_perm {f : Symbol → Nat} {l m : List Twig} (h : l.Perm m) : below f l = below f m :=
  (h.map _).sum_eq

/-- No tree over the weights of the twigs costs less than the one `huffman` makes of them. -/
theorem huffman_optimal {f : Symbol → Nat} {fuel : Nat} {n : Index} {l : List Twig} {T : CodeTree}
    (h : huffman fuel n l = some T) (hw : ∀ t ∈ l, t.weight = t.tree.total f) (u : WeightTree)
    (hu : u.leaves.Perm (l.map Twig.weight)) :
    T.pathLength f 0 ≤ dot (u.depths 0) u.leaves + below f l := by
  induction fuel generalizing n l u with
  | zero => cases h
  | succ fuel ih =>
    rw [huffman] at h
    cases e1 : takeLeast l with
    | none => rw [e1] at h; cases h
    | some p =>
      obtain ⟨a, l1⟩ := p
      obtain ⟨p1, m1⟩ := takeLeast_some e1
      rw [e1] at h
      simp only at h
      cases e2 : takeLeast l1 with
      | none =>
        rw [e2] at h
        cases h
        rw [below_perm p1, below, List.map_cons, List.sum_cons]; omega
      | some q =>
        obtain ⟨b, l2⟩ := q
        obtain ⟨p2, m2⟩ := takeLeast_some e2
        rw [e2] at h
        simp only at h
        have hp : l.Perm (a :: b :: l2) := p1.trans (p2.cons a)
        have hu' := hu.trans (hp.map Twig.weight)
        cases u with
        | leaf w => have := hu'.length_eq; simp [WeightTree.leaves] at this
        | node x y =>
          obtain ⟨v, hv, hc⟩ := merge_cheaper (R := l2.map Twig.weight) hu' (m1 b (p2.mem_iff.mpr (by simp)))
            (by intro x hx; obtain ⟨t, ht, rfl⟩ := List.mem_map.mp hx; exact m2 t ht)
          have ha := hw a (hp.mem_iff.mpr (by simp))
          have hb := hw b (hp.mem_iff.mpr (by simp))
          have := ih h (fun t ht => by
            rcases List.mem_cons.mp ht with rfl | ht
            · show a.weight + b.weight = _; rw [ha, hb]; rfl
            · exact hw t (hp.mem_iff.mpr (by simp [ht]))) v (by simpa using hv)
          rw [below_perm hp]
          simp only [below, List.map_cons, List.sum_cons, CodeTree.pathLength,
            CodeTree.pathLength_succ, ← ha, ← hb] at this ⊢
          omega

end Sys2Proof.Machine
end

