-- ==== Sys2Proof/Laws/PerInstr.lean ====
section
/-! SUPPORT. One lemma per command: the three fields of its word (30_encoding.md R110, R112). -/

namespace Sys2Proof.Laws.EncodeFields

/-- The opcode column of 30_encoding.md R112. -/
def opcode : Instr → BitVec 5
  | .nop => 0x00
  | .rst => 0x01
  | .fclr => 0x02
  | .facc _ => 0x03
  | .feof => 0x04
  | .fset _ => 0x05
  | .fscan => 0x06
  | .build => 0x07
  | .gen => 0x08
  | .ser => 0x09
  | .des => 0x0A
  | .enc => 0x0B
  | .dec => 0x0C
  | .wmagic => 0x0D
  | .rmagic => 0x0E
  | .close => 0x0F

/-- The operand field (30_encoding.md R111). -/
def operand : Instr → BitVec 9
  | .facc imm8 => imm8.setWidth 9
  | .fset sym9 => sym9
  | .nop | .rst | .fclr | .feof | .fscan | .build | .gen | .ser | .des | .enc | .dec | .wmagic
  | .rmagic | .close => 0

/-- The word of a command has its opcode, reserved bits 0 and its operand. -/
def Statement (i : Instr) : Prop :=
  opField (encode i) = opcode i ∧ rsvField (encode i) = 0 ∧ argField (encode i) = operand i

theorem commandWord_bit (op : BitVec 5) (arg : BitVec 9) (i : Nat) : (commandWord op arg).getLsbD i =
    if i < 9 then arg.getLsbD i else if i < 11 then false else op.getLsbD (i - 11) := by
  show ((op ++ (0 : BitVec 2)) ++ arg : BitVec (5 + 2 + 9)).getLsbD i = _
  rw [BitVec.getLsbD_append, BitVec.getLsbD_append]
  by_cases h : i < 9
  · simp [h]
  · by_cases k : i < 11
    · simp [h, k, show i - 9 < 2 by omega]
    · simp [h, k, show ¬ i - 9 < 2 by omega, show i - 9 - 2 = i - 11 by omega]

theorem fields (op : BitVec 5) (arg : BitVec 9) :
    opField (commandWord op arg) = op ∧ rsvField (commandWord op arg) = 0 ∧
      argField (commandWord op arg) = arg := by
  refine ⟨BitVec.eq_of_getLsbD_eq fun i hi => ?_, BitVec.eq_of_getLsbD_eq fun i hi => ?_,
    BitVec.eq_of_getLsbD_eq fun i hi => ?_⟩
  · rw [opField, BitVec.getLsbD_extractLsb', commandWord_bit, if_neg (by omega), if_neg (by omega)]
    simp [hi]
  · rw [rsvField, BitVec.getLsbD_extractLsb', commandWord_bit, if_neg (by omega), if_pos (by omega)]
    simp
  · rw [argField, BitVec.getLsbD_extractLsb', commandWord_bit]
    simp [hi]

/-- A word whose reserved bits are 0 is the word of its opcode and its operand field. -/
theorem commandWord_fields {c : CmdWord} (h : rsvField c = 0) :
    commandWord (opField c) (argField c) = c := by
  refine BitVec.eq_of_getLsbD_eq fun i hi => ?_
  rw [commandWord_bit]
  by_cases h9 : i < 9
  · rw [if_pos h9, argField, BitVec.getLsbD_extractLsb']
    simp [h9]
  · rw [if_neg h9]
    by_cases h11 : i < 11
    · rw [if_pos h11]
      have hr := congrArg (fun v => BitVec.getLsbD v (i - 9)) h
      simp only [rsvField, BitVec.getLsbD_extractLsb', BitVec.ofNat_eq_ofNat, BitVec.getLsbD_zero] at hr
      rw [show 9 + (i - 9) = i by omega] at hr
      simpa [show i - 9 < 2 by omega] using hr.symm
    · rw [if_neg h11, opField, BitVec.getLsbD_extractLsb', show 11 + (i - 11) = i by omega]
      simp [show i - 11 < 5 by omega]

theorem nop : Statement .nop := fields _ _

theorem rst : Statement .rst := fields _ _

theorem fclr : Statement .fclr := fields _ _

theorem facc (imm8 : Byte) : Statement (.facc imm8) := fields _ _

theorem feof : Statement .feof := fields _ _

theorem fset (sym9 : Symbol) : Statement (.fset sym9) := fields _ _

theorem fscan : Statement .fscan := fields _ _

theorem build : Statement .build := fields _ _

theorem gen : Statement .gen := fields _ _

theorem ser : Statement .ser := fields _ _

theorem des : Statement .des := fields _ _

theorem enc : Statement .enc := fields _ _

theorem dec : Statement .dec := fields _ _

theorem wmagic : Statement .wmagic := fields _ _

theorem rmagic : Statement .rmagic := fields _ _

theorem close : Statement .close := fields _ _

end Sys2Proof.Laws.EncodeFields
end

