-- ==== Sys2Proof/Laws/Records.lean ====
section
/-! SUPPORT. `Get` on records that leave the tree open (43_tree_codec.md R203, R206). -/

namespace Sys2Proof.Machine

/-- The records of a tree in preorder. -/
def CodeTree.records : CodeTree → List (Option Symbol)
  | .leaf s => [some s]
  | .node l r => none :: (l.records ++ r.records)

theorem CodeTree.records_length (t : CodeTree) : t.records.length = t.size := by
  induction t with
  | leaf s => rfl
  | node l r ihl ihr => simp [CodeTree.records, CodeTree.size, ihl, ihr]; omega

theorem CodeTree.records_bits (t : CodeTree) : t.records.flatMap recordBits = t.serial := by
  induction t with
  | leaf s => simp [CodeTree.records, CodeTree.serial, recordBits]
  | node l r ihl ihr => simp [CodeTree.records, CodeTree.serial, recordBits, ihl, ihr]

theorem CodeTree.mem_records {t : CodeTree} {x : Symbol} : some x ∈ t.records ↔ x ∈ t.symbols := by
  induction t with
  | leaf s => simp [CodeTree.symbols, CodeTree.records]
  | node l r ihl ihr => simp [CodeTree.symbols, CodeTree.records, ihl, ihr]

theorem pendingTrees_zero (rs : List (Option Symbol)) : pendingTrees 0 rs = 0 := by
  cases rs <;> rfl

/-- A whole tree is one tree less to read. -/
theorem pendingTrees_records (t : CodeTree) (k : Nat) (rs : List (Option Symbol)) :
    pendingTrees (k + 1) (t.records ++ rs) = pendingTrees k rs := by
  induction t generalizing k rs with
  | leaf s => rfl
  | node l r ihl ihr =>
    rw [CodeTree.records, List.cons_append, pendingTrees, List.append_assoc, ihl, ihr]

theorem pendingTrees_mono {k m : Nat} {rs : List (Option Symbol)} (h : 0 < pendingTrees k rs)
    (hk : k ≤ m) : 0 < pendingTrees m rs := by
  induction rs generalizing k m with
  | nil => exact Nat.lt_of_lt_of_le h hk
  | cons o rs ih =>
    cases k with
    | zero => exact absurd h (Nat.lt_irrefl 0)
    | succ k =>
      obtain ⟨m, rfl⟩ : ∃ n, m = n + 1 := ⟨m - 1, by omega⟩
      cases o with
      | none => exact ih (k := k + 2) h (by omega)
      | some x => exact ih (k := k) h (by omega)

/-- Records that complete the trees asked for begin with the records of a whole tree. -/
theorem split_records (n : Nat) {k : Nat} {rs : List (Option Symbol)} (hn : rs.length ≤ n)
    (h : pendingTrees (k + 1) rs = 0) :
    ∃ (t : CodeTree) (l : List (Option Symbol)), rs = t.records ++ l ∧ pendingTrees k l = 0 := by
  induction n generalizing k rs with
  | zero => rw [List.length_eq_zero_iff.mp (Nat.le_zero.mp hn)] at h; cases h
  | succ n ih =>
    match rs, hn, h with
    | some x :: rs, _, h => exact ⟨.leaf x, rs, rfl, h⟩
    | none :: rs, hn, h =>
      simp only [List.length_cons] at hn
      obtain ⟨a, l, rfl, hl⟩ := ih (k := k + 1) (rs := rs) (by omega) h
      simp only [List.length_append] at hn
      obtain ⟨b, m, rfl, hm⟩ := ih (k := k) (rs := l) (by have := a.records_length; have := a.size_eq; have := a.leaves_pos; omega) hl
      exact ⟨.node a b, m, by simp [CodeTree.records], hm⟩

/-- The bits of a tree cut short are whole records that leave the tree open, and a part of the next one. -/
theorem serial_cut {t : CodeTree} {p q : List Bool} (hx : ∀ x ∈ t.symbols, x.toNat ≤ 256) (hq : q ≠ [])
    (h : t.serial = p ++ q) :
    ∃ (rs : List (Option Symbol)) (p' : List Bool), Unfinished rs ∧ rs.length < t.size ∧
      (p' = [] ∨ ∃ q, p' = true :: q ∧ q.length < 9) ∧ p = rs.flatMap recordBits ++ p' := by
  have hnil : Unfinished [] := ⟨by decide, by simp⟩
  induction t generalizing p q with
  | leaf x =>
    refine ⟨[], p, hnil, by simp [CodeTree.size], ?_, rfl⟩
    cases p with
    | nil => exact .inl rfl
    | cons b p =>
      simp only [CodeTree.serial, List.cons_append, List.cons.injEq] at h
      have hl := congrArg List.length h.2
      have := List.length_pos_iff.mpr hq
      simp only [bitsOf_length, List.length_append] at hl
      exact .inr ⟨p, by rw [← h.1], by omega⟩
  | node a b iha ihb =>
    cases p with
    | nil => exact ⟨[], [], hnil, by simp [CodeTree.size], .inl rfl, rfl⟩
    | cons c p =>
      simp only [CodeTree.symbols, List.mem_append] at hx
      simp only [CodeTree.serial, List.cons_append, List.cons.injEq] at h
      obtain ⟨rfl, h⟩ := h
      have hcut : (∃ m, p = a.serial ++ m ∧ b.serial = m ++ q) ∨ ∃ m, m ≠ [] ∧ a.serial = p ++ m := by
        rcases List.append_eq_append_iff.mp h with ⟨m, e, e'⟩ | ⟨m, e, e'⟩
        · exact .inl ⟨m, e, e'⟩
        · by_cases hm : m = []
          · exact .inl ⟨[], by simpa [hm] using e.symm, by simpa [hm] using e'.symm⟩
          · exact .inr ⟨m, hm, e⟩
      rcases hcut with ⟨m, rfl, hb⟩ | ⟨m, hm, ha⟩
      · obtain ⟨rs, p', ⟨ho, hr⟩, hl, hp', rfl⟩ := ihb (fun x h => hx x (.inr h)) hq hb
        refine ⟨none :: (a.records ++ rs), p', ⟨?_, ?_⟩, ?_, hp', ?_⟩
        · rw [pendingTrees, pendingTrees_records]; exact ho
        · intro o hm x hxo
          rcases List.mem_cons.mp hm with rfl | hm
          · cases hxo
          · rcases List.mem_append.mp hm with hm | hm
            · obtain rfl := Option.mem_def.mp hxo
              exact hx x (.inl (CodeTree.mem_records.mp hm))
            · exact hr o hm x hxo
        · simp only [List.length_cons, List.length_append, a.records_length, CodeTree.size]; omega
        · simp [recordBits, a.records_bits]
      · obtain ⟨rs, p', ⟨ho, hr⟩, hl, hp', rfl⟩ := iha (fun x h => hx x (.inl h)) hm ha
        refine ⟨none :: rs, p', ⟨?_, ?_⟩, ?_, hp', by simp [recordBits]⟩
        · rw [pendingTrees]; exact pendingTrees_mono ho (by omega)
        · intro o hm x hxo
          rcases List.mem_cons.mp hm with rfl | hm
          · cases hxo
          · exact hr o hm x hxo
        · simp only [List.length_cons, CodeTree.size]; omega

/-- `Get` on records that leave the tree open has read and allocated exactly them, and raises what the
call for the next record raises (43_tree_codec.md R203, R206). -/
theorem get_open (n : Nat) {rs : List (Option Symbol)} {s : State} {r : List Bool} {fuel : Nat}
    (hl : rs.length ≤ n) (hr : Unfinished rs) (hn : s.nn.toNat + rs.length ≤ 513)
    (hf : 514 ≤ fuel + s.nn.toNat) (h8 : s.upCnt.toNat ≤ 8) (ho : NoFail s.upi.oracle)
    (hu : unread s = rs.flatMap recordBits ++ r) :
    ∃ u fuel', unread u = r ∧ u.nn.toNat = s.nn.toNat + rs.length ∧ 514 ≤ fuel' + u.nn.toNat ∧
      u.upCnt.toNat ≤ 8 ∧ NoFail u.upi.oracle ∧ GetOnly s u ∧
      ∀ t, get fuel' u = .raised t → get fuel s = .raised t := by
  induction n generalizing rs s r fuel with
  | zero =>
    rw [List.length_eq_zero_iff.mp (Nat.le_zero.mp hl)] at hu ⊢
    exact ⟨s, fuel, hu, rfl, hf, h8, ho, rfl, fun _ => id⟩
  | succ n ih =>
    obtain ⟨hopen, hx⟩ := hr
    match rs, hl, hopen, hx, hn, hu with
    | [], _, _, _, _, hu => exact ⟨s, fuel, hu, rfl, hf, h8, ho, rfl, fun _ => id⟩
    | some x :: rs, _, hopen, _, _, _ =>
      rw [pendingTrees, pendingTrees_zero] at hopen; omega
    | none :: rs, hl, hopen, hx, hn, hu =>
      simp only [List.length_cons] at hl hn ⊢
      rw [pendingTrees] at hopen
      have hlt : s.nn.toNat < 513 := by omega
      have hne : s.nn ≠ 513 := fun e => by rw [e] at hlt; simp at hlt
      obtain ⟨fuel, rfl⟩ : ∃ k, fuel = k + 1 := ⟨fuel - 1, by omega⟩
      obtain ⟨v, hv, huv, hsv, hcv, hov, _⟩ := readBit_some (q := rs.flatMap recordBits ++ r) h8 ho
        (by simpa [recordBits] using hu)
      have hv1 : v.alloc.nn.toNat = s.nn.toNat + 1 := by rw [alloc_nn, hsv.nn, nn_succ hlt]
      have hx' : ∀ o ∈ rs, ∀ x ∈ o, x.toNat ≤ 256 := fun o h => hx o (by simp [h])
      rw [get, if_neg hne, hv]
      simp only [Res.ok_andThen, Bool.false_eq_true, if_false]
      by_cases h1 : pendingTrees 1 rs = 0
      · -- the left subtree is complete: the open one is on the right
        obtain ⟨a, l, rfl, -⟩ := split_records _ (Nat.le_refl _) h1
        rw [pendingTrees_records] at hopen
        rw [List.length_append, a.records_length] at hl hn ⊢
        obtain ⟨w, hw, _, hnw, huw, hcw, how, _, hsw, _⟩ := get_ok (t := a) (s := v.alloc)
          (r := l.flatMap recordBits ++ r) fuel
          (by have := a.depth_lt_leaves; have := a.size_eq; have := a.leaves_pos; omega)
          (fun x h => hx' _ (List.mem_append_left _ (CodeTree.mem_records.mpr h)) x rfl)
          (by omega) (by show v.upCnt.toNat ≤ 8; omega) hov
          (by rw [← a.records_bits, ← List.append_assoc, ← List.flatMap_append]; exact huv)
        obtain ⟨u, fuel', h1, h2, h3, h4, h5, h6, h7⟩ := ih (rs := l) (s := w) (fuel := fuel) (r := r)
          (by have := a.size_eq; have := a.leaves_pos; omega)
          ⟨hopen, fun o h => hx' o (List.mem_append_right _ h)⟩ (by omega) (by omega) hcw how huw
        refine ⟨u, fuel', h1, by omega, h3, h4, h5, (hsv.getOnly.alloc.trans' hsw).trans' h6, fun t ht => ?_⟩
        rw [hw]; simp only [Res.ok_andThen]; rw [h7 t ht]; rfl
      · obtain ⟨u, fuel', h1, h2, h3, h4, h5, h6, h7⟩ := ih (rs := rs) (s := v.alloc) (fuel := fuel) (r := r)
          (by omega) ⟨by omega, hx'⟩ (by omega) (by omega) (by show v.upCnt.toNat ≤ 8; omega) hov huv
        exact ⟨u, fuel', h1, by omega, h3, h4, h5, hsv.getOnly.alloc.trans' h6,
          fun t ht => by rw [h7 t ht]; rfl⟩

/-- A call of `Get` with a record left, at a Leaf whose field is above 256 (43_tree_codec.md R203). -/
theorem get_badLeaf {s : State} {v : BitVec 9} {r : List Bool} {fuel : Nat} (hn : s.nn.toNat < 513)
    (hf : 1 ≤ fuel) (hv : 256 < v.toNat) (h8 : s.upCnt.toNat ≤ 8) (ho : NoFail s.upi.oracle)
    (hu : unread s = true :: (bitsOf v ++ r)) :
    ∃ u, get fuel s = .raised (raiseError .corruptStream 2 (zext32 v) u) ∧ unread u = r ∧ GetOnly s u := by
  obtain ⟨fuel, rfl⟩ : ∃ k, fuel = k + 1 := ⟨fuel - 1, by omega⟩
  obtain ⟨w, hw, huw, hsw, hcw, how, _⟩ := readBit_some h8 ho hu
  obtain ⟨x, hx, hux, hsx, _⟩ := readBits_some v (s := w.alloc) (r := r)
    (by show w.upCnt.toNat ≤ 8; omega) how huw
  refine ⟨x, ?_, hux, hsw.getOnly.alloc.trans' hsx.getOnly⟩
  rw [get, if_neg (fun e => by rw [e] at hn; simp at hn), hw]
  simp only [Res.ok_andThen, if_true, getLeaf, hx, if_pos hv]

/-- A call of `Get` with a record left, on too few bits for a record (43_tree_codec.md R203). -/
theorem get_truncated {s : State} {p : List Bool} {fuel : Nat} (hn : s.nn.toNat < 513)
    (hf : 1 ≤ fuel) (h8 : s.upCnt.toNat ≤ 8) (ho : NoFail s.upi.oracle)
    (hp : p = [] ∨ ∃ q, p = true :: q ∧ q.length < 9) (hu : unread s = p) :
    ∃ u, get fuel s = .raised (raiseError .corruptStream 1 0 u) ∧ unread u = [] ∧ GetOnly s u := by
  obtain ⟨fuel, rfl⟩ : ∃ k, fuel = k + 1 := ⟨fuel - 1, by omega⟩
  rw [get, if_neg (fun e => by rw [e] at hn; simp at hn)]
  rcases hp with rfl | ⟨q, rfl, hq⟩
  · rw [readBit_none h8 ho hu]
    exact ⟨_, rfl, hu, rfl⟩
  · obtain ⟨w, hw, huw, hsw, hcw, how, _⟩ := readBit_some h8 ho hu
    obtain ⟨x, hx, hux, hsx, _⟩ := readMore_none 9 (v := (0 : BitVec 9)) (s := w.alloc)
      (by show w.upCnt.toNat ≤ 8; omega) how
      (by rw [show unread w.alloc = q from huw]; exact hq)
    refine ⟨x, ?_, hux, hsw.getOnly.alloc.trans' hsx.getOnly⟩
    rw [hw]
    simp only [Res.ok_andThen, if_true, getLeaf, readBits, hx]

/-- A call of `Get` with no record left reads nothing (43_tree_codec.md R203). -/
theorem get_full {s : State} {fuel : Nat} (hn : s.nn.toNat = 513) (hf : 1 ≤ fuel) :
    get fuel s = .raised (raiseError .corruptStream 3 0 s) := by
  obtain ⟨fuel, rfl⟩ : ∃ k, fuel = k + 1 := ⟨fuel - 1, by omega⟩
  rw [get, if_pos (BitVec.eq_of_toNat_eq hn)]

end Sys2Proof.Machine
end

