-- ==== Sys2Proof/Tests/Slice0.lean ====
section
/-! SUPPORT. The model's own tests, their expected results from the spec's encoding table
(30_encoding.md R112) and from its vectors (95_test_vectors.md), and the witnesses that the hypotheses of
the statements can be met. -/

namespace Sys2Proof.Tests

set_option Elab.async false

open Sys2Proof.Machine

/-! ## Small states -/

/-- The engine right after reset, with the magic number the vectors assume (95_test_vectors.md). -/
def demo : State := { State.reset with cfg := { cntW := 32, magic := 0x00000736 } }

/-- `s` with these counters. -/
def counting (l : List (SymIdx × Nat)) (s : State) : State := l.foldl (fun s p => s.setCount p.1 p.2) s

/-- The record of a Leaf. -/
def leafRec (x : Symbol) : NodeRec := { leaf := true, sym := x, left := 0, right := 0, w := 0 }

/-- The record of an Internal node. -/
def nodeRec (l r : Index) : NodeRec := { leaf := false, sym := 0, left := l, right := r, w := 0 }

/-- `s` with these records, the first of them the root, as its valid tree. -/
def holding (l : List NodeRec) (s : State) : State :=
  { s with
    node := l.zipIdx.foldl (fun v e => v.setIfInBounds e.2 e.1) s.node
    nn := BitVec.ofNat 10 l.length, root := 0, tv := true }

/-- `s` with these codes in a valid code table. -/
def coding (l : List (SymIdx × List Bool)) (s : State) : State :=
  { l.foldl (fun s p => s.setCode p.1 p.2) s with cv := true }

/-- `s` with these bytes on `SRC`. -/
def reading (bytes : List Byte) (s : State) : State := { s with src := s.src.arm bytes 0 }

/-- `s` with these bytes on `UPI`. -/
def unpacking (bytes : List Byte) (s : State) : State := { s with upi := s.upi.arm bytes 0 }

/-- `s` with these bits in the packer. -/
def packing (acc : BitVec 8) (k : BitVec 3) (s : State) : State := { s with pkAcc := acc, pkCnt := k }

/-- `s` with a host about to do this. -/
def facing (a : HostAction) (s : State) : State := { s with host := [a] }

/-- The next state passes a check. -/
def after (o : Host.Outcome State Fault Refusal) (p : State → Bool) : Bool :=
  match o with
  | .next t => p t
  | .fault _ => false
  | .refused _ => false

theorem after_elim {o : Host.Outcome State Fault Refusal} {p : State → Bool} (h : after o p = true) :
    ∃ t, o = .next t ∧ p t = true := by
  cases o with
  | next t => exact ⟨t, rfl, h⟩
  | fault f => cases h
  | refused r => cases h

/-- The error registers of a state: class, sub-code, information word. -/
def errorOf (s : State) : Nat × Nat × Nat := (s.err.toNat, s.esub.toNat, s.einfo.toNat)

/-- The table of "AAAB": 3 × `0x41`, 1 × `0x42`, 1 × EOF (V1). -/
def aaab : State := counting [(0x41, 3), (0x42, 1), (256, 1)] demo

/-- The table of "abracadabra" (V5). -/
def abra : State := counting [(0x61, 5), (0x62, 2), (0x63, 1), (0x64, 1), (0x72, 2), (256, 1)] demo

/-- The single Leaf of EOF (V2). -/
def oneLeaf : State := holding [leafRec 256] demo

/-- The tree `I(L(0x41), L(EOF))`. -/
def twoLeaves : State := holding [nodeRec 1 2, leafRec 0x41, leafRec 256] demo

/-- The term of `twoLeaves`. -/
def twoTree : CodeTree := .node (.leaf 0x41) (.leaf 256)

/-- `twoLeaves` with its code table. -/
def twoCodes : State := coding [(0x41, [false]), (256, [true])] twoLeaves

/-! ## Well-formedness -/

theorem test_fset_above_256_is_ill_formed : Instr.wellFormed (.fset 257) = false := by decide

theorem test_fset_300_is_ill_formed : Instr.wellFormed (.fset 300) = false := by decide

theorem test_ill_formed_word_is_refused : decode (encode (.fset 300)) = .badOperand := by decide

/-! ## Decoding: the words written out bit by bit from the table of 30_encoding.md R112, in the order
`op` (5 bits), `rsv` (2 bits), `arg` (9 bits) -/

theorem test_decode_nop : decode 0b00000_00_000000000 = .instr .nop := by decide

theorem test_decode_rst : decode 0b00001_00_000000000 = .instr .rst := by decide

theorem test_decode_fclr : decode 0b00010_00_000000000 = .instr .fclr := by decide

theorem test_decode_facc : decode 0b00011_00_011111111 = .instr (.facc 255) := by decide

theorem test_decode_facc_second : decode 0b00011_00_001000001 = .instr (.facc 0x41) := by decide

theorem test_decode_feof : decode 0b00100_00_000000000 = .instr .feof := by decide

theorem test_decode_fset : decode 0b00101_00_100000000 = .instr (.fset 256) := by decide

theorem test_decode_fset_second : decode 0b00101_00_001000010 = .instr (.fset 0x42) := by decide

theorem test_decode_fscan : decode 0b00110_00_000000000 = .instr .fscan := by decide

theorem test_decode_build : decode 0b00111_00_000000000 = .instr .build := by decide

theorem test_decode_gen : decode 0b01000_00_000000000 = .instr .gen := by decide

theorem test_decode_ser : decode 0b01001_00_000000000 = .instr .ser := by decide

theorem test_decode_des : decode 0b01010_00_000000000 = .instr .des := by decide

theorem test_decode_enc : decode 0b01011_00_000000000 = .instr .enc := by decide

theorem test_decode_dec : decode 0b01100_00_000000000 = .instr .dec := by decide

theorem test_decode_wmagic : decode 0b01101_00_000000000 = .instr .wmagic := by decide

theorem test_decode_rmagic : decode 0b01110_00_000000000 = .instr .rmagic := by decide

theorem test_decode_close : decode 0b01111_00_000000000 = .instr .close := by decide

/-- The rows of V16 that the decoder refuses. -/
theorem test_decode_refusals :
    decode 0x8000 = .illegalOpcode ∧ decode 0xFFFF = .illegalOpcode ∧ decode 0x0200 = .badOperand ∧
    decode 0x0001 = .badOperand ∧ decode 0x1900 = .badOperand ∧ decode 0x2901 = .badOperand ∧
    decode 0x2C00 = .badOperand ∧ decode 0x3801 = .badOperand ∧ decode 0x0801 = .badOperand := by
  decide

/-- A command placed for the fetch is the one the next step runs (V16: `FACC 0xFF`). -/
theorem test_step_runs_a_placed_word :
    after (step (demo.withFetchWord 16 0x18FF)) (fun t => t.count 255 == 1) = true := by
  decide +kernel

/-! ## One step of each command, from the vectors -/

/-- V16: `NOP` changes nothing. -/
theorem test_nop : exec .nop aaab = .next aaab := rfl

/-- V16: `RST` in the error state. -/
theorem test_rst :
    after (step (facing (.write 0 0x0800) { aaab with err := 5, esub := 3, einfo := 0x3800, din := 7 }))
      (fun t => t.status == 0 && t.einfo == 0 && t.count 0x41 == 0 && t.din == 0) = true := by
  decide +kernel

/-- V16: in the error state other words are ignored. -/
theorem test_error_state_ignores :
    after (step (facing (.write 0 0x0801) { demo with err := 5, esub := 3, einfo := 0x3800 }))
      (fun t => t.status == 0x0350 && t.einfo == 0x3800) = true := by
  decide +kernel

/-- V8f: `FCLR` leaves `TV` and `CV`. -/
theorem test_fclr :
    after (exec .fclr { aaab with tv := true, cv := true })
      (fun t => t.count 0x41 == 0 && t.count 256 == 0 && t.tv && t.cv) = true := by
  decide +kernel

/-- V8b: `FACC 0x00` from reset. -/
theorem test_facc : after (exec (.facc 0x00) demo) (fun t => t.count 0 == 1 && t.count 1 == 0) = true := by
  decide +kernel

/-- V8g: `FACC` at the largest count. -/
theorem test_facc_overflow :
    after (exec (.facc 0x41) (counting [(0x41, 0xFFFFFFFF)] demo))
      (fun t => errorOf t == (6, 1, 0x41) && t.count 0x41 == 0xFFFFFFFF) = true := by
  decide +kernel

/-- V8c: `FEOF` on a counter of 9. -/
theorem test_feof : after (exec .feof (counting [(256, 9)] demo)) (fun t => t.count 256 == 1) = true := by
  decide +kernel

/-- V8d: `FSET 0x42` with `DIN = 5`, and with 0. -/
theorem test_fset :
    after (exec (.fset 0x42) { demo with din := 5 }) (fun t => t.count 0x42 == 5 && t.din == 5) = true ∧
    after (exec (.fset 0x42) aaab) (fun t => t.count 0x42 == 0) = true := by
  decide +kernel

/-- V1 and V8e: `FSCAN` clears first, then counts. -/
theorem test_fscan :
    after (exec .fscan (reading [0x41, 0x41, 0x41, 0x42] (counting [(0x43, 8)] demo)))
      (fun t => t.count 0x41 == 3 && t.count 0x42 == 1 && t.count 0x43 == 0 && t.count 256 == 1 &&
        t.src.pos == 4) = true := by
  decide +kernel

/-- V8g: `FSCAN` overflows at `CNT_W = 2`. -/
theorem test_fscan_overflow :
    after (exec .fscan (reading [0x41, 0x41, 0x41, 0x41] { demo with cfg := { cntW := 2, magic := 0x736 } }))
      (fun t => errorOf t == (6, 1, 0x41) && t.count 0x41 == 3 && t.count 256 == 0 && t.src.pos == 4)
      = true := by
  decide +kernel

/-- V1: the records and `TREE` after `BUILD` of "AAAB". -/
theorem test_build :
    after (exec .build aaab)
      (fun t => t.treeReg == 0x00001404 && t.status == 0x0002 && t.weight 3 == 2 && t.weight 4 == 5 &&
        (t.nodeAt? 0).any (fun r => r.leaf && r.sym == 0x41 && r.w == 3) &&
        (t.nodeAt? 3).any (fun r => !r.leaf && r.left == 1 && r.right == 2) &&
        (t.nodeAt? 4).any (fun r => !r.leaf && r.left == 3 && r.right == 0)) = true := by
  decide +kernel

/-- V7i: `BUILD` of an empty table. -/
theorem test_build_empty :
    after (exec .build { demo with tv := true, cv := true })
      (fun t => errorOf t == (5, 3, 0x3800) && t.tv && t.cv) = true := by
  decide +kernel

/-- V1: the codes of the tree `I(I(L(0x42), L(EOF)), L(0x41))`. -/
theorem test_gen :
    after (exec .gen (holding [nodeRec 1 4, nodeRec 2 3, leafRec 0x42, leafRec 256, leafRec 0x41] demo))
      (fun t => (t.codeAt 0x41).code == [true] && (t.codeAt 0x42).code == [false, false] &&
        (t.codeAt 256).code == [false, true] && (t.codeAt 0).len == 0 && t.status == 0x0006) = true := by
  decide +kernel

/-- V12e: of two leaves with one symbol the later in preorder gives the code. -/
theorem test_gen_duplicate :
    after (exec .gen (holding [nodeRec 1 2, leafRec 0x41, nodeRec 3 4, leafRec 0x41, leafRec 256] demo))
      (fun t => (t.codeAt 0x41).code == [true, false] && (t.codeAt 256).code == [true, true]) = true := by
  decide +kernel

/-- V1: the serialized tree of "AAAB". -/
theorem test_ser :
    after (exec .ser (holding [nodeRec 1 4, nodeRec 2 3, leafRec 0x42, leafRec 256, leafRec 0x41] demo))
      (fun t => t.pko.data == [0x24, 0x2C, 0x02, 0x41] && t.pkCnt == 0) = true := by
  decide +kernel

/-- V12h: `SER` without a tree, as a command word. -/
theorem test_ser_without_tree :
    after (step (facing (.write 0 0x4800) demo))
      (fun t => t.status == 0x0350 && t.einfo == 0x4800) = true := by
  decide +kernel

/-- V1: the records `DES` makes of the bits of "AAAB". -/
theorem test_des :
    after (exec .des (unpacking [0x24, 0x2C, 0x02, 0x41, 0xE2] demo))
      (fun t => t.treeReg == 0x00001400 && t.tv && t.upi.pos == 4 && t.upCnt == 0 &&
        (t.nodeAt? 0).any (fun r => !r.leaf && r.left == 1 && r.right == 4) &&
        (t.nodeAt? 1).any (fun r => !r.leaf && r.left == 2 && r.right == 3) &&
        (t.nodeAt? 4).any (fun r => r.leaf && r.sym == 0x41)) = true := by
  decide +kernel

/-- V12c: a Leaf field of 257. -/
theorem test_des_bad_symbol :
    after (exec .des (unpacking [0xC0, 0x40] { demo with tv := true, cv := true }))
      (fun t => errorOf t == (2, 2, 257) && !t.tv && !t.cv) = true := by
  decide +kernel

/-- V1: the payload of "AAAB" stays in the packer. -/
theorem test_enc :
    after (exec .enc (reading [0x41, 0x41, 0x41, 0x42]
        (coding [(0x41, [true]), (0x42, [false, false]), (256, [false, true])] demo)))
      (fun t => t.pkAcc == 0b1110001 && t.pkCnt == 7 && t.pko.data == [] && t.src.pos == 4) = true := by
  decide +kernel

/-- V17c: a byte without a code. -/
theorem test_enc_missing_code :
    after (exec .enc (reading [0x41, 0x42, 0x41] twoCodes))
      (fun t => errorOf t == (4, 1, 0x42) && t.src.pos == 2 && t.pko.data == [0x00] &&
        t.status == 0x0146) = true := by
  decide +kernel

/-- V1: the payload byte `E2` decodes to "AAAB". -/
theorem test_dec :
    after (exec .dec (unpacking [0xE2]
        (holding [nodeRec 1 4, nodeRec 2 3, leafRec 0x42, leafRec 256, leafRec 0x41] demo)))
      (fun t => t.dst.data == [0x41, 0x41, 0x41, 0x42] && t.cur == 3 && t.upCnt == 0 &&
        t.status == 0x0002) = true := by
  decide +kernel

/-- V14f: the altered byte `E0`. -/
theorem test_dec_exhausted :
    after (exec .dec (unpacking [0xE0]
        (holding [nodeRec 1 4, nodeRec 2 3, leafRec 0x42, leafRec 256, leafRec 0x41] demo)))
      (fun t => errorOf t == (2, 4, 1) && t.dst.data == [0x41, 0x41, 0x41, 0x42, 0x42]) = true := by
  decide +kernel

/-- V15e: `WMAGIC` from a packer that holds one bit. -/
theorem test_wmagic :
    after (exec .wmagic (packing 1 1 demo))
      (fun t => t.pko.data == [0x80, 0x00, 0x03, 0x9B] && t.pkCnt == 1 && t.pkAcc == 0) = true := by
  decide +kernel

/-- V15a and V15b: `RMAGIC` on the magic number and on another value. -/
theorem test_rmagic :
    after (exec .rmagic (unpacking [0x00, 0x00, 0x07, 0x36, 0xC0] demo))
      (fun t => t.status == 0 && t.upi.pos == 4) = true ∧
    after (exec .rmagic (unpacking [0x00, 0x00, 0x07, 0x37] demo))
      (fun t => errorOf t == (1, 1, 0x737) && t.status == 0x0110) = true := by
  decide +kernel

/-- V15c: fewer than 32 bits. -/
theorem test_rmagic_short :
    after (exec .rmagic (unpacking [0x00, 0x00, 0x07] demo))
      (fun t => errorOf t == (1, 2, 0) && t.upi.pos == 3) = true := by
  decide +kernel

/-- V1: `CLOSE` pads `1110001` with one zero. -/
theorem test_close :
    after (exec .close (packing 0b1110001 7 demo)) (fun t => t.pko.data == [0xE2] && t.pkCnt == 0) = true := by
  decide +kernel

/-- V16: `CLOSE` on an empty packer changes nothing. -/
theorem test_close_empty : exec .close aaab = .next aaab := rfl

/-! ## Bits, heap and registers -/

/-- V11f and V11g: the unpacker hands out the most significant bit first. -/
theorem test_read_bits :
    (match readBits 9 (unpacking [0x80, 0x80] demo) with
      | .ok v t => v == some 257 && t.upCnt == 7 && t.upBuf == 0x00 && t.upi.pos == 2
      | .raised _ => false
      | .stop _ => false) = true := by
  decide +kernel

/-- V10, "abracadabra": the heap after the six insertions is `[2,3,5,0,4,1]`. -/
theorem test_heap_layout : queue ((presentSymbols abra).foldl addLeaf abra) = [2, 3, 5, 0, 4, 1] := by
  decide +kernel

/-- 10_state.md R37: `DIN` keeps the low `CNT_W` bits. -/
theorem test_din_is_cut :
    after (step (facing (.write 1 0x1_0000_0005) demo)) (fun t => t.din == 5) = true := by
  decide +kernel

/-! ## Witnesses: the hypotheses of the statements can be met -/

theorem demo_count (i : SymIdx) : demo.count i = 0 := by simp [demo, State.reset, State.count]

theorem witness_demo_regInv : demo.RegInv where
  width := by decide
  counts := fun i => by rw [demo_count]; decide
  operand := by decide
  records := by decide
  queueEmpty := rfl
  packer := by decide
  unpackerCount := by decide
  unpacker := fun i _ => by simp [demo, State.reset]
  errClass := by decide
  noError := fun _ => ⟨rfl, rfl⟩
  idle := rfl

theorem witness_oneLeaf_tree : oneLeaf.tv = true ∧ oneLeaf.HasTree (.leaf 256) ∧ (CodeTree.leaf 256).Legal :=
  ⟨rfl, ⟨[0], ⟨rfl, leafRec 256, by decide +kernel, rfl, rfl⟩, by decide⟩, by decide⟩

theorem witness_twoLeaves_holds : Holds twoLeaves.node twoTree 0 [0, 1, 2] :=
  ⟨nodeRec 1 2, [1], [2], by decide +kernel, rfl,
    ⟨rfl, leafRec 0x41, by decide +kernel, rfl, rfl⟩,
    ⟨rfl, leafRec 256, by decide +kernel, rfl, rfl⟩, rfl⟩

theorem witness_twoLeaves_tree : twoLeaves.tv = true ∧ twoLeaves.HasTree twoTree ∧ twoTree.Legal :=
  ⟨rfl, ⟨[0, 1, 2], witness_twoLeaves_holds, by decide⟩, by decide⟩

theorem witness_twoCodes_codes : twoCodes.cv = true ∧ twoCodes.HasCodes twoTree := by
  refine ⟨rfl, ?_⟩
  unfold State.HasCodes
  decide +kernel

theorem witness_twoCodes_inv : twoCodes.RegInv ∧ twoCodes.TreeInv := by
  refine ⟨⟨by decide,
    fun i => by
      simp [twoCodes, coding, twoLeaves, holding, demo, State.reset, State.setCode, State.count],
    by decide, by decide, rfl, by decide, by decide,
    fun i _ => by simp [twoCodes, coding, twoLeaves, holding, demo, State.reset, State.setCode], by decide,
    fun _ => ⟨rfl, rfl⟩, rfl⟩, fun _ => ⟨twoTree, witness_twoLeaves_tree.2.2, ?_⟩, fun _ => ⟨rfl, fun t h => ?_⟩⟩
  · exact witness_twoLeaves_tree.2.1
  · rw [HasTree.unique h witness_twoLeaves_tree.2.1]; exact witness_twoCodes_codes.2

theorem witness_DecodeEncode : (Instr.fset 256).wellFormed = true ∧ (Instr.facc 255).wellFormed = true := by
  decide

theorem witness_EncodeDecode : decode 0x2900 = .instr (.fset 256) ∧ decode 0x7800 = .instr .close := by
  decide

/-- A word on either side of every limit of 30_encoding.md R113. -/
theorem witness_DecodeRefuses :
    decode 0x7800 = .instr .close ∧ decode 0x8000 = .illegalOpcode ∧ decode 0x7A00 = .badOperand ∧
    decode 0x7801 = .badOperand ∧ decode 0x18FF = .instr (.facc 255) ∧ decode 0x1900 = .badOperand ∧
    decode 0x2900 = .instr (.fset 256) ∧ decode 0x2901 = .badOperand := by
  decide

theorem witness_StepRunsDecodedInstruction :
    ∃ s : State, s.host = .write 0 (0x2900 : CmdWord).toNat :: [] ∧ s.busy = false ∧ s.err = 0 ∧
      decode 0x2900 = .instr (.fset 256) :=
  ⟨facing (.write 0 0x2900) demo, rfl, rfl, rfl, by decide⟩

theorem witness_DecodeErrorsRaise :
    ∃ s : State, s.busy = false ∧ s.err = 0 ∧
      (facing (.write 0 0x8000) s).host = .write 0 (0x8000 : CmdWord).toNat :: [] ∧
      decode 0x8000 = .illegalOpcode ∧
      (facing (.write 0 0x2901) s).host = .write 0 (0x2901 : CmdWord).toNat :: [] ∧
      decode 0x2901 = .badOperand :=
  ⟨demo, rfl, rfl, rfl, by decide, rfl, by decide⟩

theorem witness_PreconditionsRaise :
    (∀ i : SymIdx, demo.count i = 0) ∧ demo.tv = false ∧ demo.cv = false ∧
      twoLeaves.tv = true ∧ twoLeaves.cv = false :=
  ⟨demo_count, rfl, rfl, rfl, rfl⟩

theorem witness_ErrorEntry :
    demo.pkCnt = 0 ∧ (packing 1 1 demo).pkCnt ≠ 0 ∧ (packing 0x7F 7 demo).pkCnt ≠ 0 := by
  decide

theorem witness_ErrorStateIgnores :
    ∃ s : State, s.err ≠ 0 ∧ s.busy = false ∧
      (facing (.write 0 0x0801) s).host = .write 0 (0x0801 : CmdWord).toNat :: [] ∧
      (0x0801 : CmdWord) ≠ 0x0800 ∧ (facing (.write 0 0x0800) s).host = .write 0 0x0800 :: [] ∧
      (facing (.read 2) s).host = .read 2 :: [] ∧
      (facing (.inspect .ft 256) s).host = .inspect .ft 256 :: [] ∧ inspect .ft 256 s = some (.word 0) :=
  ⟨{ demo with err := 6 }, by decide, rfl, rfl, by decide, rfl, rfl, rfl, by decide +kernel⟩

theorem witness_StatusRegister :
    (facing (.read 2) demo).host = .read 2 :: [] ∧ (facing (.write 2 1) demo).host = .write 2 1 :: [] :=
  ⟨rfl, rfl⟩

theorem witness_EinfoAndTreeRegisters :
    (∀ a, (facing a demo).RegInv) ∧ demo.err = 0 ∧
      (facing (.read 3) demo).host = .read 3 :: [] ∧ (facing (.read 4) demo).host = .read 4 :: [] ∧
      (facing (.write 4 1) demo).host = .write 4 1 :: [] := by
  refine ⟨fun a => ?_, rfl, rfl, rfl, rfl⟩
  obtain ⟨h1, h2, h3, h4, h5, h6, h7, h8, h9, h10, h11⟩ := witness_demo_regInv
  exact ⟨h1, h2, h3, h4, h5, h6, h7, h8, h9, h10, h11⟩

theorem witness_DinRegister :
    (∃ s : State, s.host = .write 1 (2 ^ 32) :: [] ∧ s.busy = false) ∧
    (∃ s : State, s.host = .write 1 1 :: [] ∧ s.busy = true) ∧ (∃ s : State, s.host = .read 1 :: []) ∧
    (∃ t, exec .nop demo = .next t) ∧ ∃ t, exec .rst demo = .next t :=
  ⟨⟨facing (.write 1 (2 ^ 32)) demo, rfl, rfl⟩, ⟨facing (.write 1 1) { demo with busy := true }, rfl, rfl⟩,
    ⟨facing (.read 1) demo, rfl⟩, ⟨_, rfl⟩, ⟨_, rfl⟩⟩

theorem witness_OtherHostAccesses :
    (∃ s : State, s.host = .read 0 :: []) ∧ (∃ s : State, 5 ≤ 5 ∧ s.host = .read 5 :: []) ∧
    (∃ s : State, 5 ≤ 5 ∧ s.host = .write 5 1 :: []) ∧
    (∃ s : State, s.host = .write 0 0x0800 :: [] ∧ s.busy = true) ∧ ∃ s : State, s.host = [] :=
  ⟨⟨facing (.read 0) demo, rfl⟩, ⟨facing (.read 5) demo, by decide, rfl⟩,
    ⟨facing (.write 5 1) demo, by decide, rfl⟩, ⟨facing (.write 0 0x0800) { demo with busy := true }, rfl, rfl⟩,
    ⟨demo, rfl⟩⟩

theorem witness_InspectionReads :
    demo.busy = false ∧ (facing (.inspect .ft 256) demo).host = .inspect .ft 256 :: [] ∧
      (facing (.inspect .node 512) demo).host = .inspect .node 512 :: [] ∧
      (facing (.inspect .heap 256) demo).host = .inspect .heap 256 :: [] ∧
      (facing (.inspect .ct 256) demo).host = .inspect .ct 256 :: [] ∧
      (facing (.inspect .cur 0) demo).host = .inspect .cur 0 :: [] :=
  ⟨rfl, rfl, rfl, rfl, rfl, rfl⟩

theorem witness_HostOwnsPorts :
    demo.busy = false ∧ (facing (.armSrc [1] 1) demo).host = .armSrc [1] 1 :: [] ∧
      (facing (.armUpi [1] 0) demo).host = .armUpi [1] 0 :: [] ∧
      (facing (.trimPko 0 0) demo).host = .trimPko 0 0 :: [] ∧
      (facing (.trimDst 1 0) demo).host = .trimDst 1 0 :: [] :=
  ⟨rfl, rfl, rfl, rfl, rfl⟩

theorem witness_ResetValues : (facing .hardwareReset demo).host = .hardwareReset :: [] := rfl

/-- `DES` of a legal tree, as a command word: `TV` is set by a step from a state that meets both
invariants. -/
theorem witness_steps_from_the_invariants :
    ∃ s t : State, s.RegInv ∧ s.TreeInv ∧ (∀ n : Fin 513, s.node[n].w < 2 ^ (s.cfg.cntW + 9)) ∧
      s.cv = true ∧ step s = .next t ∧ t.tv = true ∧ t.cv = false := by
  have h : after (step (facing (.write 0 0x5000) (unpacking [0xC0, 0x00] twoCodes)))
      (fun t => t.tv && !t.cv) = true := by decide +kernel
  obtain ⟨t, ht, hp⟩ := after_elim h
  obtain ⟨⟨h1, h2, h3, h4, h5, h6, h7, h8, h9, h10, h11⟩, k1, k2⟩ := witness_twoCodes_inv
  refine ⟨facing (.write 0 0x5000) (unpacking [0xC0, 0x00] twoCodes), t,
    ⟨h1, h2, h3, h4, h5, h6, h7, h8, h9, h10, h11⟩, ⟨k1, k2⟩, fun n => ?_, rfl, ht, ?_⟩
  · have h : twoLeaves.node.toList.all (fun r => r.w == 0) = true := by decide +kernel
    have hn := List.all_eq_true.mp h twoLeaves.node[n] (by simp)
    show twoLeaves.node[n].w < 2 ^ 41
    rw [eq_of_beq hn]; decide
  · simpa using hp

theorem witness_WhoWritesWhat :
    (∃ t, exec .close demo = .next t ∧ t.err = 0) ∧ (∃ t, exec .nop demo = .next t ∧ t.err = 0) ∧
      ∃ t, exec .rst demo = .next t ∧ t.err = 0 :=
  ⟨⟨_, rfl, rfl⟩, ⟨_, rfl, rfl⟩, ⟨_, rfl, rfl⟩⟩

theorem witness_WhichErrorsCanBeRaised :
    ∃ s t : State, s.host = .write 0 (0x3800 : CmdWord).toNat :: [] ∧ s.busy = false ∧ s.err = 0 ∧ step s = .next t ∧
      t.err ≠ 0 := by
  have h : after (step (facing (.write 0 0x3800) demo)) (fun t => t.err != 0) = true := by decide +kernel
  obtain ⟨t, ht, hp⟩ := after_elim h
  exact ⟨_, t, rfl, rfl, rfl, ht, by simpa using hp⟩

theorem witness_BytesNeverWithdrawn :
    (∃ p : OutPort, p.oracle.head? = some true) ∧ (∃ p : OutPort, p.oracle.head? ≠ some true) ∧
      ∃ t, exec .close (packing 1 1 demo) = .next t ∧ t.pko.data = [0x80] :=
  ⟨⟨{ data := [], oracle := [true] }, rfl⟩, ⟨{ data := [], oracle := [] }, by decide⟩, ⟨_, rfl, by decide +kernel⟩⟩

theorem witness_ByteInAnswers :
    (∃ p : InPort, p.oracle.head? = some true) ∧
    (∃ p : InPort, p.oracle.head? ≠ some true ∧ p.data.length ≤ p.pos) ∧
    ∃ p : InPort, p.oracle.head? ≠ some true ∧ p.pos < p.data.length :=
  ⟨⟨{ data := [], pos := 0, oracle := [true] }, rfl⟩, ⟨{ data := [7], pos := 1, oracle := [] }, by decide⟩,
    ⟨{ data := [7], pos := 0, oracle := [false] }, by decide⟩⟩

/-- Every port of `demo` fails its next access. -/
def failing (s : State) : State :=
  { s with
    src := { s.src with oracle := [true] }, upi := { s.upi with oracle := [true] }
    pko := { s.pko with oracle := [true] }, dst := { s.dst with oracle := [true] } }

theorem witness_FailedAccessRaises :
    ((failing demo).upCnt = 0 ∧ (failing demo).upi.oracle.head? = some true) ∧
    ((failing (packing 1 7 demo)).pkCnt = 7 ∧ (failing (packing 1 7 demo)).pko.oracle.head? = some true) ∧
    ((failing { twoLeaves with cur := 1 }).nodeAt? 1 = some (leafRec 0x41) ∧ (leafRec 0x41).leaf = true ∧
      (leafRec 0x41).sym ≠ 256 ∧ (failing twoLeaves).dst.oracle.head? = some true) ∧
    (failing twoCodes).cv = true ∧ (failing twoCodes).src.oracle.head? = some true := by
  decide +kernel

/-- `SRC` holds `data` and its second access fails. -/
def failingSecond (data : List Byte) (s : State) : State :=
  { s with src := { data := data, pos := 0, oracle := [false, true] } }

/-- The clause on `ENC` behind a byte: a byte is left, or none. -/
theorem witness_FailedAccessRaises_enc :
    ∀ r ∈ [[(0x42 : Byte)], []], ∃ s : State, s.cv = true ∧ s.src.rest = [0x41] ++ r ∧
      s.src.oracle = List.replicate ([0x41] : List Byte).length false ++ true :: [] ∧
      NoFail s.pko.oracle ∧ ∀ b ∈ ([0x41] : List Byte), (s.codeAt (byteIdx b)).code ≠ [] :=
  fun r hr => ⟨failingSecond (0x41 :: r) twoCodes, by revert r; decide +kernel⟩

theorem witness_PackerLaw : demo.pkCnt = 0 ∧ NoFail demo.pko.oracle := ⟨rfl, by decide⟩

theorem witness_ReadBitsValue :
    (demo.upCnt.toNat ≤ 8 ∧ NoFail demo.upi.oracle ∧ (unread demo).length < 1) ∧
    unread (unpacking [0x80] demo) = bitsOf (1 : BitVec 1) ++ [false, false, false, false, false, false, false] ∧
    unread (unpacking [0, 0, 7, 0x36] demo) = bitsOf (0x736 : BitVec 32) ++ [] ∧
    (unread (unpacking [0, 0, 7] demo)).length < 32 := by
  decide +kernel

theorem witness_UnpackerIsLazy :
    NoFail (unpacking [0x80] demo).upi.oracle ∧ (unpacking [0x80] demo).upCnt = 0 ∧
      8 ≤ 8 * (unpacking [0x80] demo).upi.rest.length ∧ 0 ≤ 8 * demo.upi.rest.length := by
  decide +kernel

theorem witness_FaccCountsOneByte :
    demo.count (byteIdx 0x41) ≠ 2 ^ demo.cfg.cntW - 1 ∧
    (counting [(0x41, 2 ^ 32 - 2)] demo).count (byteIdx 0x41) ≠ 2 ^ demo.cfg.cntW - 1 ∧
    (counting [(0x41, 2 ^ 32 - 1)] demo).count (byteIdx 0x41) = 2 ^ demo.cfg.cntW - 1 := by
  decide +kernel

theorem witness_FsetLoadsCounter : (256 : Symbol).toNat < 257 ∧ 257 ≤ (257 : Symbol).toNat := by decide

theorem witness_FscanCountsSource :
    (reading [0x41, 0x41] demo).src.rest = [0x41, 0x41] ∧ NoFail (reading [0x41, 0x41] demo).src.oracle ∧
      ∀ b, ([0x41, 0x41] : List Byte).count b < 2 ^ demo.cfg.cntW :=
  ⟨rfl, by decide, fun b => Nat.lt_of_le_of_lt List.count_le_length (by decide)⟩

/-- The engine with one-bit counters. -/
def narrow : State := { demo with cfg := { cntW := 1, magic := 0x736 } }

theorem witness_FscanStopsEarly :
    (∀ b, ([0x41] : List Byte).count b < 2 ^ narrow.cfg.cntW) ∧
    ((reading [0x41, 0x41] narrow).src.rest = [0x41] ++ 0x41 :: [] ∧
      NoFail (reading [0x41, 0x41] narrow).src.oracle ∧
      ([0x41] : List Byte).count 0x41 = 2 ^ narrow.cfg.cntW - 1) ∧
    ∃ s : State, s.cfg = narrow.cfg ∧ s.src.rest = [0x41] ++ [] ∧
      s.src.oracle = List.replicate 1 false ++ true :: [] :=
  ⟨fun b => Nat.lt_of_le_of_lt List.count_le_length (by decide), ⟨rfl, by decide, by decide⟩,
    ⟨{ narrow with src := { data := [0x41], pos := 0, oracle := [false, true] } }, rfl, rfl, rfl⟩⟩

/-- A queue of one entry. -/
def oneEntry : State := { demo with heap := demo.heap.set 0 5, hsize := 1 }

theorem witness_QueueIsASet :
    (HeapOk demo ∧ demo.hsize.toNat < 257 ∧ (0 : Index) ∉ queue demo) ∧
    HeapOk oneEntry ∧ 1 ≤ oneEntry.hsize.toNat ∧ ∃ t, pqExtractMin oneEntry = (5, t) := by
  refine ⟨⟨⟨by decide, by decide +kernel, fun i _ h => ?_⟩, by decide, by decide +kernel⟩,
    ⟨by decide, by decide +kernel, fun i a h => ?_⟩, by decide, (pqExtractMin oneEntry).2, ?_⟩
  · simp [demo, State.reset] at h
  · simp only [oneEntry, BitVec.reduceToNat] at h; omega
  · exact Prod.ext (by decide +kernel) rfl

theorem witness_tableNonEmpty :
    aaab.tableNonEmpty = true ∧ (counting [(256, 1)] demo).tableNonEmpty = true ∧
      aaab.ft = { aaab with din := 1 }.ft :=
  ⟨by decide +kernel, by decide +kernel, rfl⟩

theorem witness_BuildIsOptimal :
    ∃ f : Symbol → Nat, aaab.tableNonEmpty = true ∧ ∀ i : SymIdx, f (idxSymbol i) = aaab.count i :=
  ⟨fun x => if h : x.toNat < 257 then aaab.count ⟨x.toNat, h⟩ else 0, by decide +kernel,
    fun i => by simp [idxSymbol_toNat]⟩

theorem witness_GenDerivesCodes :
    demo.tv = false ∧ (oneLeaf.tv = true ∧ oneLeaf.HasTree (.leaf 256) ∧ (CodeTree.leaf 256).Legal) ∧
      twoLeaves.tv = true ∧ twoLeaves.HasTree twoTree ∧ twoTree.Legal :=
  ⟨rfl, witness_oneLeaf_tree, witness_twoLeaves_tree⟩

theorem witness_SerWritesTree :
    twoLeaves.tv = true ∧ twoLeaves.HasTree twoTree ∧ twoTree.Legal ∧ NoFail twoLeaves.pko.oracle :=
  ⟨rfl, witness_twoLeaves_tree.2.1, witness_twoLeaves_tree.2.2, by decide⟩

theorem witness_DesStoresTree :
    (CodeTree.leaf 256).Legal ∧ (unpacking [0xC0, 0x00] demo).upCnt.toNat ≤ 8 ∧
      NoFail (unpacking [0xC0, 0x00] demo).upi.oracle ∧
      unread (unpacking [0xC0, 0x00] demo) = (CodeTree.leaf 256).serial ++ List.replicate 6 false := by
  decide +kernel

theorem witness_DesReadsOneTree :
    ∃ s t : State, s.upCnt.toNat ≤ 8 ∧ s.err = 0 ∧ exec .des s = .next t ∧ t.err = 0 ∧
      NoFail t.pko.oracle := by
  have h : after (exec .des (unpacking [0xC0, 0x00] demo)) (fun t => t.err == 0 && t.pko.oracle == []) = true := by
    decide +kernel
  obtain ⟨t, ht, hp⟩ := after_elim h
  simp only [Bool.and_eq_true, beq_iff_eq] at hp
  exact ⟨_, t, by decide, rfl, ht, hp.1, by rw [hp.2]; decide⟩

theorem witness_TreeRoundTrip :
    (twoLeaves.tv = true ∧ twoLeaves.HasTree twoTree ∧ twoTree.Legal ∧ NoFail twoLeaves.pko.oracle) ∧
      (unpacking [0x48, 0x38, 0x00] demo).upCnt.toNat ≤ 8 ∧
      NoFail (unpacking [0x48, 0x38, 0x00] demo).upi.oracle ∧
      unread (unpacking [0x48, 0x38, 0x00] demo) = twoTree.serial ++ List.replicate 3 false :=
  ⟨witness_SerWritesTree, by decide +kernel⟩

theorem witness_DesRejects :
    demo.upCnt.toNat ≤ 8 ∧ NoFail demo.upi.oracle ∧ (CodeTree.leaf 256).Legal ∧
      (CodeTree.leaf 256).serial = unread demo ++ (CodeTree.leaf 256).serial ∧
      (CodeTree.leaf 256).serial = unread (unpacking [0xC0] demo) ++ [false, false] := by
  decide +kernel

/-- Bits that end before a record, and inside the field of a Leaf behind `0`, `1 001000001`. -/
theorem witness_DesRejects_truncated :
    (Unfinished [] ∧ unread demo = ([] : List (Option Symbol)).flatMap recordBits ++ []) ∧
    Unfinished [none, some 0x41] ∧
      unread (unpacking [0x48, 0x30] demo) =
        [none, some 0x41].flatMap recordBits ++ true :: List.replicate 4 false := by
  decide +kernel

/-- A Leaf with the field 257 as the first record, and as the right child of the root. -/
theorem witness_DesRejects_badLeaf :
    256 < (257 : BitVec 9).toNat ∧
    (Unfinished [] ∧ unread (unpacking [0xC0, 0x40] demo) =
      ([] : List (Option Symbol)).flatMap recordBits ++ true :: (bitsOf (257 : BitVec 9) ++ List.replicate 6 false)) ∧
    Unfinished [none, some 0x41] ∧
      unread (unpacking [0x48, 0x38, 0x08] demo) =
        [none, some 0x41].flatMap recordBits ++ true :: (bitsOf (257 : BitVec 9) ++ List.replicate 3 false) := by
  decide +kernel

/-- 513 records that leave the tree open: all Internal, and with a Leaf for the root's left child. -/
theorem witness_DesRejects_full :
    (Unfinished (List.replicate 513 none) ∧ unread (unpacking (List.replicate 65 0) demo) =
      (List.replicate 513 none).flatMap recordBits ++ List.replicate 7 false) ∧
    Unfinished (none :: some 0 :: List.replicate 511 none) ∧
      (none :: some 0 :: List.replicate 511 (none : Option Symbol)).length = 513 ∧
      unread (unpacking (0x40 :: List.replicate 65 0) demo) =
        (none :: some 0 :: List.replicate 511 none).flatMap recordBits ++ List.replicate 6 false := by
  decide +kernel

theorem witness_EncWritesPayload :
    (twoCodes.cv = true ∧ (reading [0x41] twoCodes).src.rest = [0x41] ∧ NoFail (reading [0x41] twoCodes).src.oracle ∧
      NoFail twoCodes.pko.oracle ∧
      (∀ b ∈ ([0x41] : List Byte), (twoCodes.codeAt (byteIdx b)).code ≠ []) ∧
      (twoCodes.codeAt eofIdx).code ≠ []) ∧
    twoCodes.err = 0 ∧ ∃ t, exec .enc twoCodes = .next t ∧ t.err = 0 := by
  refine ⟨by decide +kernel, rfl, ?_⟩
  have h : after (exec .enc twoCodes) (fun t => t.err == 0) = true := by decide +kernel
  obtain ⟨t, ht, hp⟩ := after_elim h
  exact ⟨t, ht, by simpa using hp⟩

theorem witness_EncMissingCodeRaises :
    (twoCodes.cv = true ∧ NoFail (reading [0x41, 0x42] twoCodes).src.oracle ∧ NoFail twoCodes.pko.oracle ∧
      (∀ b ∈ ([0x41] : List Byte), (twoCodes.codeAt (byteIdx b)).code ≠ []) ∧
      (reading [0x41, 0x42] twoCodes).src.rest = [0x41] ++ 0x42 :: [] ∧
      (twoCodes.codeAt (byteIdx 0x42)).code = []) ∧
    (coding [(0x41, [false])] demo).cv = true ∧ (coding [(0x41, [false])] demo).src.rest = [] ∧
      ((coding [(0x41, [false])] demo).codeAt eofIdx).code = [] := by
  decide +kernel

theorem witness_DecWritesBytes :
    twoLeaves.tv = true ∧ twoLeaves.HasTree twoTree ∧ (unpacking [0x40] twoLeaves).upCnt.toNat ≤ 8 ∧
      NoFail (unpacking [0x40] twoLeaves).upi.oracle ∧ NoFail twoLeaves.dst.oracle ∧
      (∀ b ∈ ([0x41] : List Byte), twoTree.codeOf (idxSymbol (byteIdx b)) ≠ []) ∧ twoTree.codeOf 256 ≠ [] ∧
      unread (unpacking [0x40] twoLeaves) =
        ([0x41] : List Byte).flatMap (fun b => twoTree.codeOf (idxSymbol (byteIdx b))) ++ twoTree.codeOf 256 ++
          List.replicate 6 false :=
  ⟨rfl, witness_twoLeaves_tree.2.1, by decide +kernel⟩

/-- Both cases of the last hypothesis: nothing is left, and the bits end inside a code. -/
theorem witness_DecExhaustionRaises :
    twoLeaves.tv = true ∧ twoLeaves.HasTree twoTree ∧ twoLeaves.upCnt.toNat ≤ 8 ∧
      NoFail twoLeaves.upi.oracle ∧ NoFail twoLeaves.dst.oracle ∧
      unread twoLeaves = ([] : List Byte).flatMap (fun b => twoTree.codeOf (idxSymbol (byteIdx b))) ++ [] ∧
      twoTree.Inside [] ∧ (CodeTree.node (.leaf 1) twoTree).Inside [true] :=
  ⟨rfl, witness_twoLeaves_tree.2.1, by decide, by decide, by decide, rfl,
    ⟨256, [true], by decide, by decide⟩, ⟨256, [true], by decide, by decide⟩⟩

theorem witness_DecAtASingleLeaf :
    (oneLeaf.tv = true ∧ oneLeaf.HasTree (.leaf 256) ∧ oneLeaf.upCnt.toNat ≤ 8 ∧ NoFail oneLeaf.upi.oracle ∧
      NoFail oneLeaf.dst.oracle) ∧
    unread (unpacking [0x80] oneLeaf) = List.replicate 0 false ++ true :: List.replicate 7 false ∧
    unread oneLeaf = List.replicate 0 false ∧
    unread (unpacking [0x00] oneLeaf) = false :: List.replicate 7 false :=
  ⟨⟨rfl, witness_oneLeaf_tree.2.1, by decide, by decide, by decide⟩, by decide +kernel, by decide +kernel,
    by decide +kernel⟩

/-- The single Leaf of a literal: two literals and the bit 1 (the bits of V14d), and eight literals. -/
theorem witness_DecAtASingleLeaf_literal :
    ∃ s : State, s.tv = true ∧ s.HasTree (.leaf 0x41) ∧ s.upCnt.toNat ≤ 8 ∧ NoFail s.upi.oracle ∧
      NoFail s.dst.oracle ∧ (0x41 : Symbol) ≠ 256 ∧
      unread (unpacking [0x20] s) = List.replicate 2 false ++ true :: List.replicate 5 false ∧
      unread (unpacking [0x00] s) = List.replicate 8 false :=
  ⟨holding [leafRec 0x41] demo, rfl,
    ⟨[0], ⟨rfl, leafRec 0x41, by decide +kernel, rfl, rfl⟩, by decide⟩, by decide, by decide, by decide,
    by decide, by decide +kernel, by decide +kernel⟩

theorem witness_WmagicWritesMagic : NoFail demo.pko.oracle ∧ demo.pkCnt = 0 := ⟨by decide, rfl⟩

theorem witness_RmagicChecksMagic :
    demo.upCnt.toNat ≤ 8 ∧ NoFail demo.upi.oracle ∧
    unread (unpacking [0, 0, 7, 0x36] demo) = bitsOf demo.cfg.magic ++ [] ∧
    ((0x737 : BitVec 32) ≠ demo.cfg.magic ∧
      unread (unpacking [0, 0, 7, 0x37] demo) = bitsOf (0x737 : BitVec 32) ++ []) ∧
    (unread (unpacking [0, 0, 7] demo)).length < 32 := by
  decide +kernel

theorem witness_ClosePadsAndEmits :
    demo.pkCnt = 0 ∧ (packing 1 1 demo).pkCnt ≠ 0 ∧ (packing 1 1 demo).pko.oracle.head? ≠ some true ∧
      (failing (packing 0x7F 7 demo)).pkCnt ≠ 0 ∧
      (failing (packing 0x7F 7 demo)).pko.oracle.head? = some true := by
  decide

theorem witness_DecodeFailsFast :
    demo.busy = false ∧ NoFail demo.upi.oracle ∧ 4 ≤ ([0, 0, 7, 0x37] : List Byte).length ∧
      streamBits (([0, 0, 7, 0x37] : List Byte).take 4) ≠ bitsOf demo.cfg.magic := by
  decide +kernel

theorem witness_EncodeMakesContainer :
    1 ≤ narrow.cfg.cntW ∧ ([0x41] : List Byte).length < 2 ^ narrow.cfg.cntW ∧ narrow.busy = false ∧
      NoFail narrow.src.oracle ∧ NoFail narrow.pko.oracle := by
  decide

theorem witness_FileRoundTrip :
    narrow.busy = false ∧ 1 ≤ narrow.cfg.cntW ∧ ([0x41] : List Byte).length < 2 ^ narrow.cfg.cntW ∧
      NoFail narrow.src.oracle ∧ NoFail narrow.pko.oracle ∧ NoFail narrow.upi.oracle ∧
      NoFail narrow.dst.oracle := by
  decide

end Sys2Proof.Tests
end

section
/-! What every command may change, completed or ended by an error: the error entry field by field, and
the frame of each command (O22). -/

namespace Sys2Proof.Machine

/-! The error entry writes the error registers, `BUSY`, the packer and `PKO`, and leaves the rest
(60_exceptions.md R288). -/

section
variable (e : ErrClass) (sub : BitVec 3) (info : BitVec 32) (s : State)

@[simp] theorem raiseError_ft : (raiseError e sub info s).ft = s.ft := by rw [(raiseError_eq e sub info s).1]
@[simp] theorem raiseError_node : (raiseError e sub info s).node = s.node := by rw [(raiseError_eq e sub info s).1]
@[simp] theorem raiseError_nn : (raiseError e sub info s).nn = s.nn := by rw [(raiseError_eq e sub info s).1]
@[simp] theorem raiseError_root : (raiseError e sub info s).root = s.root := by rw [(raiseError_eq e sub info s).1]
@[simp] theorem raiseError_heap : (raiseError e sub info s).heap = s.heap := by rw [(raiseError_eq e sub info s).1]
@[simp] theorem raiseError_hsize : (raiseError e sub info s).hsize = s.hsize := by rw [(raiseError_eq e sub info s).1]
@[simp] theorem raiseError_ct : (raiseError e sub info s).ct = s.ct := by rw [(raiseError_eq e sub info s).1]
@[simp] theorem raiseError_tv : (raiseError e sub info s).tv = s.tv := by rw [(raiseError_eq e sub info s).1]
@[simp] theorem raiseError_cv : (raiseError e sub info s).cv = s.cv := by rw [(raiseError_eq e sub info s).1]
@[simp] theorem raiseError_cur : (raiseError e sub info s).cur = s.cur := by rw [(raiseError_eq e sub info s).1]
@[simp] theorem raiseError_upBuf : (raiseError e sub info s).upBuf = s.upBuf := by rw [(raiseError_eq e sub info s).1]
@[simp] theorem raiseError_upCnt : (raiseError e sub info s).upCnt = s.upCnt := by rw [(raiseError_eq e sub info s).1]
@[simp] theorem raiseError_err : (raiseError e sub info s).err = e.code := by rw [(raiseError_eq e sub info s).1]
@[simp] theorem raiseError_busy : (raiseError e sub info s).busy = false := by rw [(raiseError_eq e sub info s).1]
@[simp] theorem raiseError_din : (raiseError e sub info s).din = s.din := by rw [(raiseError_eq e sub info s).1]
@[simp] theorem raiseError_cfg : (raiseError e sub info s).cfg = s.cfg := by rw [(raiseError_eq e sub info s).1]
@[simp] theorem raiseError_src : (raiseError e sub info s).src = s.src := by rw [(raiseError_eq e sub info s).1]
@[simp] theorem raiseError_upi : (raiseError e sub info s).upi = s.upi := by rw [(raiseError_eq e sub info s).1]
@[simp] theorem raiseError_dst : (raiseError e sub info s).dst = s.dst := by rw [(raiseError_eq e sub info s).1]
@[simp] theorem raiseError_host : (raiseError e sub info s).host = s.host := by rw [(raiseError_eq e sub info s).1]
@[simp] theorem raiseError_hostSaw : (raiseError e sub info s).hostSaw = s.hostSaw := by rw [(raiseError_eq e sub info s).1]

end

/-- Everything a command can do, an `FSET` of a symbol that no word stands for included: it changes no
more than its frame allows, and then completes or takes an error. -/
theorem exec_cases {i : Instr} {s t : State} (h : exec i s = .next t) :
    ∃ u, ExecFrame i s u ∧ (t = u ∨ ∃ e sub info, t = raiseError e sub info u) := by
  by_cases hi : i.wellFormed = true
  · rcases exec_frame i hi s t h with hf | ⟨e, sub, info, u, _, hf, ht⟩
    · exact ⟨t, hf, .inl rfl⟩
    · exact ⟨u, hf, .inr ⟨e, sub, info, ht⟩⟩
  · cases i with
    | fset x =>
      have hx : ¬ x.toNat < 257 := by
        simp only [Instr.wellFormed, decide_eq_true_eq] at hi; omega
      simp only [exec, execFset, symIdx?, dif_neg hx] at h
      cases h
      exact ⟨s, rfl, .inr ⟨_, _, _, rfl⟩⟩
    | _ => exact absurd rfl hi

/-- The pieces of state that a command leaves up to its end or its error entry: each is written by the
commands named, and by no other (10_state.md R23 to R33, R37, R42; 20_memory.md R63, R84; 40_freq.md
R143). -/
structure WrittenBy (i : Instr) (s t : State) : Prop where
  ft : i ∉ [.rst, .fclr, .feof, .fscan] → (∀ b, i ≠ .facc b) → (∀ x, i ≠ .fset x) → t.ft = s.ft
  tree : i ∉ [.rst, .build, .des] → t.node = s.node ∧ t.nn = s.nn ∧ t.root = s.root ∧ t.tv = s.tv
  heap : i ∉ [.rst, .build] → t.heap = s.heap ∧ t.hsize = s.hsize
  ct : i ∉ [.rst, .gen] → t.ct = s.ct
  cv : i ∉ [.rst, .build, .des, .gen] → t.cv = s.cv
  cur : i ∉ [.rst, .dec] → t.cur = s.cur
  unpacker : i ∉ [.rst, .des, .dec, .rmagic] → t.upBuf = s.upBuf ∧ t.upCnt = s.upCnt
  upi : i ∉ [.des, .dec, .rmagic] → t.upi = s.upi
  src : i ∉ [.fscan, .enc] → t.src = s.src
  dst : i ∉ [.dec] → t.dst = s.dst
  pko : i ∉ [.wmagic, .ser, .enc, .close] → t.pko = s.pko
  packer : i ∉ [.rst, .wmagic, .ser, .enc, .close] → t.pkAcc = s.pkAcc ∧ t.pkCnt = s.pkCnt
  errors : i ≠ .rst → t.err = s.err ∧ t.esub = s.esub ∧ t.einfo = s.einfo ∧ t.busy = s.busy
  din : i ≠ .rst → t.din = s.din
  outside : t.cfg = s.cfg ∧ t.host = s.host ∧ t.hostSaw = s.hostSaw

theorem ExecFrame.writtenBy {i : Instr} {s t : State} (h : ExecFrame i s t) : WrittenBy i s t := by
  cases i with
  | build =>
    rcases h with h | rfl
    · rw [h]; constructor <;> simp
    · constructor <;> simp
  | ser | wmagic | close | enc | dec =>
    obtain ⟨h, _⟩ := h
    rw [h]; constructor <;> simp
  | nop | rst | fclr | facc | feof | fset | fscan | gen | des | rmagic =>
    rw [show t = _ from h]; constructor <;> simp

/-- Settles O22: up to its error entry a command changes no more than its frame, and the error entry
leaves `ERR` set. -/
theorem whoWritesWhat : Obligations.WhoWritesWhat := by
  unfold Obligations.WhoWritesWhat
  intro s t i h
  obtain ⟨u, hu, ht⟩ := exec_cases h
  have w := hu.writtenBy
  rcases ht with rfl | ⟨e, sub, info, rfl⟩
  · exact ⟨w.ft, w.tree, w.heap, w.ct, w.cv, w.cur, w.unpacker, w.upi, w.src, w.dst, fun hi _ => w.pko hi,
      fun hi _ => w.packer hi, fun hi h0 => by
        obtain ⟨herr, hrest⟩ := w.errors hi
        exact ⟨herr ▸ h0, hrest⟩, w.din, w.outside⟩
  · simp only [raiseError_ft, raiseError_node, raiseError_nn, raiseError_root, raiseError_heap,
      raiseError_hsize, raiseError_ct, raiseError_tv, raiseError_cv, raiseError_cur, raiseError_upBuf,
      raiseError_upCnt, raiseError_upi, raiseError_src, raiseError_dst, raiseError_err, raiseError_din,
      raiseError_cfg, raiseError_host, raiseError_hostSaw, e.code_ne, false_implies, implies_true, true_and]
    exact ⟨w.ft, w.tree, w.heap, w.ct, w.cv, w.cur, w.unpacker, w.upi, w.src, w.dst, w.din, w.outside⟩

end Sys2Proof.Machine
end

section
/-! The host registers (O5, O10 to O13) and reset (O16). -/

namespace Sys2Proof.Machine

/-! ## The host port (10_state.md R35 to R43) -/

/-- A step performs the host's next action. -/
theorem step_action {s : State} {a : HostAction} {rest : List HostAction} (h : s.host = a :: rest) :
    step s = hostAct a { s with host := rest } := by
  rw [step, stepHost, h]

/-- A write of a register numbered 2 or above is ignored (10_state.md R35). -/
theorem writeReg_ignored {reg : Nat} (h : 2 ≤ reg) (v : Nat) (s : State) : writeReg reg v s = .next s := by
  match reg, h with
  | _ + 2, _ => rfl

theorem step_write_ignored {s : State} {reg v : Nat} {rest : List HostAction} (hr : 2 ≤ reg)
    (h : s.host = .write reg v :: rest) : step s = .next { s with host := rest } := by
  rw [step_action h]
  exact writeReg_ignored hr v _

theorem step_writeDin {s : State} {v : Nat} {rest : List HostAction} (h : s.host = .write 1 v :: rest) :
    step s = .next (writeDin v { s with host := rest }) := step_action h

/-- A read shows the register's value and changes nothing else; no register depends on what the host is
about to do. -/
theorem step_read {s : State} {reg : Nat} {rest : List HostAction} (h : s.host = .read reg :: rest) :
    step s = .next { s with host := rest, hostSaw := .word (readReg reg s) } := by
  rw [step_action h, hostAct]
  match reg with
  | 0 | 1 | 2 | 3 | 4 | _ + 5 => rfl

theorem readReg_unlisted {reg : Nat} (h : 5 ≤ reg) (s : State) : readReg reg s = 0 := by
  match reg, h with
  | _ + 5, _ => rfl

/-- Settles O5: an idle engine without an error accepts the word and runs its command. -/
theorem stepRunsDecodedInstruction : Obligations.StepRunsDecodedInstruction := by
  unfold Obligations.StepRunsDecodedInstruction
  intro s c rest i h hb he hd
  have hrun : step s = runCommand c { s with host := rest, busy := true } := by
    rw [step_writeCmd h, BitVec.ofNat_toNat, BitVec.setWidth_eq]
    rcases writeCmd_cases c { s with host := rest } with ⟨hbusy, _⟩ | ⟨_, herr, _⟩ | ⟨_, _, e⟩
    · exact absurd hb (by simp [show s.busy = true from hbusy])
    · exact absurd he herr
    · exact e
  rw [hrun, runCommand, hd]
  show complete (exec i { s with host := rest, busy := true }) = _
  cases exec i { s with host := rest, busy := true } <;> rfl

/-- The fields of `STATUS`, from the top: five zeros, `ESUB`, a zero, `ERR`, a zero, `CV`, `TV`, `BUSY`
(10_state.md R38). -/
theorem status_fields (s : State) :
    s.status.getLsbD 0 = s.busy ∧ s.status.getLsbD 1 = s.tv ∧ s.status.getLsbD 2 = s.cv ∧
      s.status.getLsbD 3 = false ∧ s.status.extractLsb' 4 3 = s.err ∧ s.status.getLsbD 7 = false ∧
      s.status.extractLsb' 8 3 = s.esub ∧ s.status.extractLsb' 11 5 = 0 := by
  have hbit (i : Nat) : s.status.getLsbD i =
      ((0 : BitVec 5) ++ s.esub ++ (0 : BitVec 1) ++ s.err ++ (0 : BitVec 1) ++ BitVec.ofBool s.cv
        ++ BitVec.ofBool s.tv ++ BitVec.ofBool s.busy).getLsbD i := rfl
  have hfield (i n : Nat) : s.status.extractLsb' i n =
      ((0 : BitVec 5) ++ s.esub ++ (0 : BitVec 1) ++ s.err ++ (0 : BitVec 1) ++ BitVec.ofBool s.cv
        ++ BitVec.ofBool s.tv ++ BitVec.ofBool s.busy).extractLsb' i n := rfl
  simp only [hbit, hfield, BitVec.getLsbD_append, BitVec.extractLsb'_append_eq_of_le, Nat.reduceLeDiff,
    Nat.reduceSub, Nat.reduceLT, if_true, if_false]
  exact ⟨by simp, by simp, by simp, by simp, BitVec.extractLsb'_append_eq_right, by simp,
    BitVec.extractLsb'_append_eq_right, by simp⟩

/-- The fields of `TREE`, from the top: twelve zeros, `nn`, `root` (10_state.md R40). -/
theorem treeReg_fields (s : State) :
    s.treeReg.extractLsb' 0 10 = s.root ∧ s.treeReg.extractLsb' 10 10 = s.nn ∧
      s.treeReg.extractLsb' 20 12 = 0 := by
  have hfield (i n : Nat) : s.treeReg.extractLsb' i n =
      ((0 : BitVec 12) ++ s.nn ++ s.root).extractLsb' i n := rfl
  simp only [hfield, BitVec.extractLsb'_append_eq_of_le, Nat.reduceLeDiff, Nat.reduceSub]
  exact ⟨BitVec.extractLsb'_append_eq_right, BitVec.extractLsb'_append_eq_right, by simp⟩

/-- Settles O10: a read of `STATUS` shows its fields, and a write of it is ignored. -/
theorem statusRegister : Obligations.StatusRegister := by
  unfold Obligations.StatusRegister
  exact fun s rest => ⟨status_fields s, step_read, fun v h => step_write_ignored (by omega) h⟩

/-- Settles O11: reads of `EINFO` and `TREE` show the registers, and writes of both are ignored. -/
theorem einfoAndTreeRegisters : Obligations.EinfoAndTreeRegisters := by
  unfold Obligations.EinfoAndTreeRegisters
  exact fun s rest hs => ⟨step_read, fun h => (hs.noError h).2, step_read, treeReg_fields s,
    fun reg v hr h => step_write_ignored (by omega) h⟩

/-- Settles O12: what a command leaves in `DIN` is its frame. -/
theorem dinRegister : Obligations.DinRegister := by
  unfold Obligations.DinRegister
  intro s
  refine ⟨fun v rest h hb => ?_, fun v rest h hb => ?_, fun rest h => step_read h, fun i t h => ⟨fun hi => ?_, ?_⟩⟩
  · rw [step_writeDin h, writeDin, if_neg (by simp [hb]), cutTo]
  · rw [step_writeDin h, writeDin, if_pos hb]
  · obtain ⟨u, hu, rfl | ⟨e, sub, info, rfl⟩⟩ := exec_cases h
    · exact hu.writtenBy.din hi
    · rw [raiseError_din]; exact hu.writtenBy.din hi
  · rintro rfl
    cases h
    rfl

/-- Settles O13: the remaining reads show 0, the remaining writes are ignored, and without an action of the
host nothing happens. -/
theorem otherHostAccesses : Obligations.OtherHostAccesses := by
  unfold Obligations.OtherHostAccesses
  intro s
  refine ⟨fun rest h => step_read h, fun reg rest hr h => ?_, fun reg v rest hr h => step_write_ignored (by omega) h,
    fun v rest h hb => ?_, fun h => by rw [step, stepHost, h]⟩
  · rw [step_read h, readReg_unlisted hr]
  · rw [step_writeCmd h, writeCmd, if_pos hb]

/-! ## Reset (10_state.md R43, 47_system.md R266) -/

/-- Reset gives every register the value of 10_state.md R43. -/
theorem resetEngine_atReset (s : State) : (resetEngine s).AtReset :=
  ⟨fun i => by simp [State.count], rfl, rfl, rfl, rfl, rfl, rfl, rfl, rfl, rfl, rfl, rfl, rfl, rfl, rfl, rfl⟩

theorem reset_atReset : State.reset.AtReset :=
  ⟨fun i => by simp [State.count, State.reset], rfl, rfl, rfl, rfl, rfl, rfl, rfl, rfl, rfl, rfl, rfl, rfl, rfl, rfl,
    rfl⟩

/-- Registers at their reset values are in their ranges, whatever the width of a counter. -/
theorem regInv_of_atReset {s : State} (h : s.AtReset) (hw : 1 ≤ s.cfg.cntW) : s.RegInv where
  width := hw
  counts i := by rw [h.ft]; exact Nat.two_pow_pos _
  operand := by rw [h.din]; exact Nat.two_pow_pos _
  records := by simp [h.nn]
  queueEmpty := h.hsize
  packer := by simp [h.pkAcc]
  unpackerCount := by simp [h.upCnt]
  unpacker i _ := by simp [h.upBuf]
  errClass := by simp [h.err]
  noError _ := ⟨h.esub, h.einfo⟩
  idle := h.busy

/-- Settles O16: `RST` and hardware reset are one operation, which writes the engine's registers and
arrays alone. -/
theorem resetValues : Obligations.ResetValues := by
  unfold Obligations.ResetValues
  exact ⟨by decide, reset_atReset, fun s => ⟨resetEngine s, rfl, resetEngine_atReset s, rfl⟩,
    fun s rest h => ⟨resetEngine { s with host := rest }, step_action h, rfl⟩⟩

end Sys2Proof.Machine
end

section
/-! The register ranges during an operation (10_state.md R23 to R37, 60_exceptions.md R281). -/

namespace Sys2Proof.Machine

/-- The registers are in their ranges but for `BUSY`, which is set while an operation runs
(10_state.md R33). -/
def InRange (s : State) : Prop := State.RegInv { s with busy := false }

/-- A step keeps `P`: the relation under which an invariant goes through the loops of `Within`. -/
def Keeps (P : State → Prop) (s t : State) : Prop := P s → P t

theorem Keeps.steps (P : State → Prop) : Steps (Keeps P) where
  refl _ h := h
  trans h k p := k (h p)

namespace InRange
variable {s : State}

/-- The largest value of a register of `CNT_W` bits is at least 1 (00_scope.md R7). -/
theorem one_lt (h : InRange s) : 1 < 2 ^ s.cfg.cntW := Nat.one_lt_two_pow (Nat.pos_iff_ne_zero.mp h.width)

/-- A counter written with a value of `CNT_W` bits (10_state.md R23). -/
theorem setCount (h : InRange s) (i : SymIdx) {c : Nat} (hc : c < 2 ^ s.cfg.cntW) :
    InRange (s.setCount i c) where
  __ := h
  counts j := by
    show (s.setCount i c).count j < _
    rw [count_setCount]
    split
    · exact hc
    · exact h.counts j

theorem clearTable (h : InRange s) : InRange (clearTable s) where
  __ := h
  counts j := by
    show (Machine.clearTable s).count j < _
    rw [clearTable_count]
    exact Nat.two_pow_pos _

theorem emptyPacker (h : InRange s) (p : OutPort) : InRange { s with pkAcc := 0, pkCnt := 0, pko := p } where
  __ := h
  packer := by show (0 : BitVec 8).toNat < 2 ^ (0 : BitVec 3).toNat; decide

theorem discardBits (h : InRange s) : InRange (discardBits s) where
  __ := h
  unpackerCount := by show (0 : BitVec 4).toNat ≤ 8; decide
  unpacker i _ := by show (0 : BitVec 8).getLsbD i = false; simp

/-- The error entry leaves the packer empty and latches a class of 1 to 6 (60_exceptions.md R281,
R288). -/
theorem raiseError (h : InRange s) (e : ErrClass) (sub : BitVec 3) (info : BitVec 32) :
    (raiseError e sub info s).RegInv := by
  have he : e.code.toNat ≤ 6 := by cases e <;> decide
  rcases raiseError_cases e sub info s with ⟨_, k⟩ | ⟨_, p, _, k⟩ <;> rw [k]
  · exact { h with errClass := he, noError := fun h0 => absurd h0 e.code_ne }
  · exact { h.emptyPacker p with errClass := he, noError := fun h0 => absurd h0 e.code_ne }

/-- A bit shifted into the packer: one more bit is in use (10_state.md R30, 20_memory.md R66). -/
theorem shiftIn (h : InRange s) (b : Bool) (h7 : s.pkCnt ≠ 7) :
    InRange { s with pkAcc := s.pkAcc.shiftConcat b, pkCnt := s.pkCnt + 1 } where
  __ := h
  packer := by
    show (s.pkAcc.shiftConcat b).toNat < 2 ^ (s.pkCnt + 1).toNat
    have hlt : s.pkCnt.toNat < 7 := by bv_omega
    rw [show (s.pkCnt + 1).toNat = s.pkCnt.toNat + 1 by bv_omega]
    exact BitVec.toNat_shiftConcat_lt_of_lt (by omega) h.packer

/-- A bit taken from the unpacker: one bit less is unread, and a zero stands in its place
(10_state.md R31, 20_memory.md R70). -/
theorem shiftOut (h : InRange s) (h0 : s.upCnt ≠ 0) :
    InRange { s with upBuf := s.upBuf <<< 1, upCnt := s.upCnt - 1 } := by
  have h8 : s.upCnt.toNat ≤ 8 := h.unpackerCount
  have hc : (s.upCnt - 1).toNat = s.upCnt.toNat - 1 := by bv_omega
  refine { h with unpackerCount := ?_, unpacker := fun i hi => ?_ }
  · show (s.upCnt - 1).toNat ≤ 8
    omega
  · replace hi : i < 8 - (s.upCnt - 1).toNat := hi
    show (s.upBuf <<< 1).getLsbD i = false
    rw [BitVec.getLsbD_shiftLeft]
    by_cases hz : i < 1
    · simp [hz]
    · rw [h.unpacker (i - 1) (by show i - 1 < 8 - s.upCnt.toNat; have := s.upCnt.isLt; bv_omega), Bool.and_false]

/-- A record allocated below the limit (10_state.md R25). -/
theorem alloc (h : InRange s) (hn : s.nn ≠ 513) : InRange s.alloc where
  __ := h
  records := by
    show (s.nn + 1).toNat ≤ 513
    have hle : s.nn.toNat ≤ 513 := h.records
    bv_omega

end InRange

/-! Every loop of a command keeps the ranges. -/

theorem keepsInRange_packer : AllowsPacker (Keeps InRange) where
  __ := Keeps.steps InRange
  shift b _ h7 h := h.shiftIn b h7
  byte _ _ _ h := h.emptyPacker _
  fail _ h := h.emptyPacker _

theorem keepsInRange_get : AllowsGet (Keeps InRange) where
  __ := Keeps.steps InRange
  access _ _ h := { h with }
  load s v h := { h with
    unpackerCount := by show (8 : BitVec 4).toNat ≤ 8; decide
    unpacker := fun i hi => absurd (show i < 8 - (8 : BitVec 4).toNat from hi) (by simp) }
  shift _ h0 h := h.shiftOut h0
  alloc _ hn h := h.alloc hn
  record _ _ _ _ _ _ h := { h with }

theorem keepsInRange_dec : AllowsDec (Keeps InRange) where
  __ := keepsInRange_get.toAllowsUnpacker
  cursor _ _ h := { h with }
  discard _ h := h.discardBits
  sink _ _ h := { h with }

theorem keepsInRange_src : AllowsSrc (Keeps InRange) := fun _ _ h => { h with }

theorem keepsInRange_codes : AllowsCodes (Keeps InRange) := fun _ _ h => { h with }

theorem keepsInRange_count : AllowsCount (Keeps InRange) := fun s i hi h => by
  have hlt : s.count i < 2 ^ s.cfg.cntW := h.counts i
  rw [Config.maxCount] at hi
  exact h.setCount i (by omega)

/-- A whole operation whose pieces keep the ranges keeps them, completed or ended by an error. -/
theorem InRange.outcome {α : Type} {s t : State} {r : Res α} (hs : InRange s)
    (hr : Within (Keeps InRange) (fun _ _ => True) s r) (h : r.outcome = .next t) : InRange t := by
  rcases hr.next h with ht | ⟨e, sub, info, u, _, hu, rfl⟩
  · exact ht hs
  · exact { (hu hs).raiseError e sub info with idle := rfl }

end Sys2Proof.Machine
end

section
/-! The register ranges after every step (O18), with all that a step can do. -/

namespace Sys2Proof.Machine

theorem InRange.usageError {s : State} (h : InRange s) (sub : BitVec 3) (c : CmdWord) :
    InRange (usageError sub c s) := { h.raiseError .usage sub (zext32 c) with idle := rfl }

/-- `BUILD` allocates at most 513 records and leaves the queue empty (41_tree_builder.md R170, R171). -/
theorem InRange.buildTree {s : State} (h : InRange s) (hne : s.tableNonEmpty = true) : InRange (buildTree s) := by
  obtain ⟨_, _, _, hnn, _, hbt, _⟩ := buildTree_ok hne
  have hlen := presentSymbols_length s
  have hle : (Machine.buildTree s).nn.toNat ≤ 513 := by omega
  generalize Machine.buildTree s = t at hbt hle
  rw [hbt]
  exact { h with queueEmpty := rfl, records := hle }

/-- Every command keeps the ranges, completed or ended by an error. -/
theorem exec_inRange {i : Instr} {s t : State} (hs : InRange s) (h : exec i s = .next t) : InRange t := by
  have S := Keeps.steps InRange
  cases i with
  | nop => cases h; exact hs
  | rst => cases h; exact regInv_of_atReset (resetEngine_atReset s) hs.width
  | fclr => cases h; exact hs.clearTable
  | facc b => exact hs.outcome (countByte_within S keepsInRange_count trivial b s) h
  | feof => cases h; exact hs.setCount _ hs.one_lt
  | fset x =>
    simp only [exec, execFset] at h
    split at h <;> cases h
    · exact hs.setCount _ hs.operand
    · exact hs.usageError 2 _
  | fscan =>
    refine hs.clearTable.outcome ?_ h
    exact (scanLoop_within S keepsInRange_count keepsInRange_src trivial trivial _ _).andThen S.trans
      fun _ u _ _ hu => hu.setCount _ hu.one_lt
  | build =>
    simp only [exec, execBuild] at h
    split at h <;> cases h
    · exact hs.buildTree ‹_›
    · exact hs.usageError 3 _
  | gen =>
    simp only [exec, execGen] at h
    split at h
    · have hd : InRange (clearCodes s.draw.dropCodes) := by
        unfold clearCodes
        exact keepsInRange_codes s.draw.dropCodes _ { hs with }
      refine hd.outcome ?_ h
      exact (genCodes_within S keepsInRange_codes _).andThen S.trans fun _ _ _ _ hu => { hu with }
    · cases h; exact hs.usageError 3 _
  | ser =>
    simp only [exec, execSer] at h
    split at h
    · exact hs.outcome (put_within keepsInRange_packer trivial _ _ _) h
    · cases h; exact hs.usageError 3 _
  | des =>
    have hd : InRange s.draw.dropTree.noNodes := { hs with records := by show (0 : Index).toNat ≤ 513; decide }
    refine hd.outcome ?_ h
    exact (get_within keepsInRange_get trivial trivial trivial trivial _ _).andThen S.trans
      fun _ _ _ _ hu => { hu with }
  | enc =>
    simp only [exec, execEnc] at h
    split at h
    · exact hs.outcome ((encLoop_within keepsInRange_packer keepsInRange_src trivial trivial trivial _ _).andThen
        S.trans fun _ u _ _ => emit_within keepsInRange_packer trivial trivial _ u) h
    · cases h; exact hs.usageError 3 _
  | dec =>
    simp only [exec, execDec] at h
    split at h
    · have hd : InRange (s.setCur s.root) := { hs with }
      exact hd.outcome (decLoop_within keepsInRange_dec trivial trivial trivial trivial _ _) h
    · cases h; exact hs.usageError 3 _
  | wmagic => exact hs.outcome (writeSeq_within keepsInRange_packer trivial _ s) h
  | rmagic =>
    refine hs.outcome ?_ h
    refine (readMore_within keepsInRange_get.toAllowsUnpacker trivial 32 0 s).andThen S.trans fun m t _ _ => ?_
    cases m with
    | none => exact .raise trivial (S.refl t)
    | some m =>
      simp only [checkMagic]
      split
      · exact S.refl t
      · exact .raise trivial (S.refl t)
  | close => exact hs.outcome (flush_within keepsInRange_packer trivial (fun _ _ h => h.emptyPacker _) s) h

/-! ## What a step can do -/

/-- Only what belongs to the environment may differ: the ports, the host's actions and what the host saw
(10_state.md R42). -/
def EnvironmentOnly (s t : State) : Prop :=
  t = { s with src := t.src, upi := t.upi, pko := t.pko, dst := t.dst, host := t.host, hostSaw := t.hostSaw }

theorem portAction_next {s t u : State} (h : portAction t s = .next u) : u = t := by
  simp only [portAction] at h
  split at h <;> cases h
  rfl

theorem hostInspect_next {space : Space} {i : Nat} {s t : State} (h : hostInspect space i s = .next t) :
    ∃ v, t = { s with hostSaw := v } := by
  simp only [hostInspect] at h
  split at h
  · cases h
  · split at h <;> cases h
    exact ⟨_, rfl⟩

theorem setOracle_environmentOnly (p : Port) (answers : List Bool) (s : State) :
    EnvironmentOnly s (setOracle p answers s) := by cases p <;> rfl

theorem complete_next {o : Host.Outcome State Fault Refusal} {t : State} (h : complete o = .next t) :
    ∃ u, o = .next u ∧ t = { u with busy := false } := by
  cases o <;> cases h
  exact ⟨_, rfl, rfl⟩

/-- Everything a step can come to (60_exceptions.md R299): the environment changes, `DIN` is written, the
engine is reset, a command runs with `BUSY` set, or the decoder refuses its word. -/
inductive StepTo (s : State) : State → Prop
  | environment {t : State} (h : EnvironmentOnly s t) : StepTo s t
  | din (v : Nat) (rest : List HostAction) : StepTo s { s with host := rest, din := cutTo s.cfg.cntW v }
  | reset (rest : List HostAction) : StepTo s (resetEngine { s with host := rest })
  | command {i : Instr} {u : State} (rest : List HostAction)
      (h : exec i { s with host := rest, busy := true } = .next u) : StepTo s { u with busy := false }
  | refused (sub : BitVec 3) (c : CmdWord) (rest : List HostAction) :
      StepTo s (usageError sub c { s with host := rest, busy := true })

theorem stepTo_of_step {s t : State} (h : step s = .next t) : StepTo s t := by
  cases hh : s.host with
  | nil =>
    rw [step, stepHost, hh] at h; cases h
    exact .environment rfl
  | cons a rest =>
    rw [step_action hh] at h
    cases a with
    | write reg v =>
      match reg with
      | 0 =>
        replace h : writeCmd (BitVec.ofNat 16 v) { s with host := rest } = .next t := h
        rcases writeCmd_cases (BitVec.ofNat 16 v) { s with host := rest } with ⟨_, e⟩ | ⟨_, _, _, e⟩ | ⟨_, _, e⟩
        · rw [e] at h; cases h; exact .environment rfl
        · rw [e] at h; cases h; exact .environment rfl
        · rw [e] at h
          rcases runCommand_cases (BitVec.ofNat 16 v) { s with host := rest, busy := true } with
            ⟨_, k⟩ | ⟨_, k⟩ | ⟨i, _, k⟩
          · rw [k] at h; cases h; exact .refused _ _ rest
          · rw [k] at h; cases h; exact .refused _ _ rest
          · rw [k] at h
            obtain ⟨u, hu, rfl⟩ := complete_next h
            exact .command rest hu
      | 1 =>
        cases h
        simp only [writeDin]
        split
        · exact .environment rfl
        · exact .din v rest
      | _ + 2 => cases h; exact .environment rfl
    | read reg => cases h; exact .environment rfl
    | inspect space i =>
      obtain ⟨v, rfl⟩ := hostInspect_next h
      exact .environment rfl
    | armSrc bytes pos => cases portAction_next h; exact .environment rfl
    | armUpi bytes pos => cases portAction_next h; exact .environment rfl
    | trimPko taken kept => cases portAction_next h; exact .environment rfl
    | trimDst taken kept => cases portAction_next h; exact .environment rfl
    | oracle p answers =>
      cases h
      exact .environment (setOracle_environmentOnly p answers { s with host := rest })
    | hardwareReset => cases h; exact .reset rest

/-- Settles O18: every command keeps the ranges while it runs, and every other step keeps the registers,
resets them or writes `DIN` cut to its width. -/
theorem registersStayInRange : Obligations.RegistersStayInRange := by
  unfold Obligations.RegistersStayInRange
  intro s t hs h
  have hr (rest : List HostAction) : InRange { s with host := rest, busy := true } := { hs with idle := rfl }
  cases stepTo_of_step h with
  | environment e => rw [e]; exact { hs with }
  | din v rest => exact { hs with operand := Nat.mod_lt _ (Nat.two_pow_pos _) }
  | reset rest => exact regInv_of_atReset (resetEngine_atReset _) hs.width
  | command rest hu => exact exec_inRange (hr rest) hu
  | refused sub c rest => exact (hr rest).raiseError _ _ _

end Sys2Proof.Machine
end

section
/-! What the validity flags promise (10_state.md R28, R45, R46): O17, O19. -/

namespace Sys2Proof.Machine

/-- The flags and all that they speak of are the same in both states. -/
structure SameTree (s t : State) : Prop where
  node : t.node = s.node
  nn : t.nn = s.nn
  root : t.root = s.root
  ct : t.ct = s.ct
  tv : t.tv = s.tv
  cv : t.cv = s.cv

theorem hasTree_congr {s t : State} (hnode : t.node = s.node) (hnn : t.nn = s.nn) (hroot : t.root = s.root)
    (T : CodeTree) : t.HasTree T ↔ s.HasTree T := by
  rw [State.HasTree, State.HasTree, hnode, hnn, hroot]

theorem hasCodes_congr {s t : State} (h : t.ct = s.ct) (T : CodeTree) : t.HasCodes T ↔ s.HasCodes T := by
  rw [State.HasCodes, State.HasCodes]
  simp only [State.codeAt, h]

theorem SameTree.treeInv {s t : State} (h : SameTree s t) (hs : s.TreeInv) : t.TreeInv := by
  have hT := hasTree_congr h.node h.nn h.root
  have hC := hasCodes_congr h.ct
  refine ⟨fun htv => ?_, fun hcv => ?_⟩
  · simpa only [hT] using hs.tree (h.tv ▸ htv)
  · obtain ⟨htv, hcodes⟩ := hs.codes (h.cv ▸ hcv)
    exact ⟨h.tv ▸ htv, fun T hHas => (hC T).mpr (hcodes T ((hT T).mp hHas))⟩

theorem raiseError_sameTree (e : ErrClass) (sub : BitVec 3) (info : BitVec 32) (s : State) :
    SameTree s (raiseError e sub info s) := by constructor <;> simp

/-- While `TV` is clear and `CV` too, nothing is promised. -/
theorem treeInv_of_clear {s : State} (htv : s.tv = false) (hcv : s.cv = false) : s.TreeInv :=
  ⟨fun h => absurd h (by simp [htv]), fun h => absurd h (by simp [hcv])⟩

/-- A legal tree without a code table keeps the promise. -/
theorem treeInv_of_tree {s : State} {T : CodeTree} (hl : T.Legal) (hT : s.HasTree T) (hcv : s.cv = false) :
    s.TreeInv :=
  ⟨fun _ => ⟨T, hl, hT⟩, fun h => absurd h (by simp [hcv])⟩

/-- A legal tree with its own code table keeps the promise: a state holds at most one tree. -/
theorem treeInv_of_codes {s : State} {T : CodeTree} (hl : T.Legal) (hT : s.HasTree T) (hC : s.HasCodes T)
    (htv : s.tv = true) : s.TreeInv :=
  ⟨fun _ => ⟨T, hl, hT⟩, fun _ => ⟨htv, fun _ hU => HasTree.unique hT hU ▸ hC⟩⟩

/-- `GEN` with a valid tree makes that tree's code table (42_code_table.md R192, R193). -/
theorem execGen_ok {s : State} {T : CodeTree} (htv : s.tv = true) (hT : s.HasTree T) (hl : T.Legal) :
    ∃ t, exec .gen s = .next t ∧ t.HasCodes T ∧ t = { s with ct := t.ct, cv := true, draws := s.draws + 1 } := by
  obtain ⟨ns, hH, _⟩ := hT
  obtain ⟨u, hu, hc, hcodes⟩ := genCodes_ok (s := clearCodes s.draw.dropCodes) (by simpa using hH) hl
    (emptyCodes_code _)
  refine ⟨u.codesMade, ?_, hcodes, ?_⟩
  · simp only [exec, execGen, htv, if_true, hu]
    rfl
  · unfold clearCodes at hc
    rw [hc]
    rfl

theorem getOnly_allows : AllowsGet GetOnly where
  refl _ := rfl
  trans h k := h.trans' k
  access _ _ := rfl
  load _ _ := rfl
  shift _ _ := rfl
  alloc _ _ := rfl
  record _ _ _ _ _ _ := rfl

/-- A `DES` that completes has stored a legal tree, and one that raised has left `TV` clear
(43_tree_codec.md R204). -/
theorem execDes_treeInv {s t : State} (h8 : s.upCnt.toNat ≤ 8) (h : exec .des s = .next t) : t.TreeInv := by
  have hget := get_within (A := fun _ _ => True) getOnly_allows trivial trivial trivial trivial 514
    s.draw.dropTree.noNodes
  simp only [exec, execDes] at h
  cases hr : get 514 s.draw.dropTree.noNodes with
  | ok n u =>
    rw [hr] at h hget
    cases h
    obtain ⟨T, hn, hsym, _, hH, hnn, hle, _⟩ := get_inv (s := s.draw.dropTree.noNodes) 514 (by simp) h8 hr
    have h0 : (0 : Index).toNat = 0 := rfl
    rw [noNodes_nn, h0, ← List.range_eq_range'] at hH
    rw [noNodes_nn, h0, Nat.zero_add] at hnn
    have hsize := T.size_eq
    refine treeInv_of_tree (T := T) ⟨by omega, hsym⟩ ⟨List.range T.size, ?_, ?_⟩ ?_
    · rw [treeMade_node, treeMade_root, setRoot_node, setRoot_root, hn]; exact hH
    · rw [treeMade_nn, setRoot_nn, hnn]
    · rw [treeMade_cv, setRoot_cv, show u = _ from hget]; rfl
  | raised u =>
    rw [hr] at h hget
    cases h
    obtain ⟨e, sub, info, v, _, hv, rfl⟩ := hget
    refine treeInv_of_clear ?_ ?_
    · rw [raiseError_tv, show v = _ from hv]; rfl
    · rw [raiseError_cv, show v = _ from hv]; rfl
  | stop f => rw [hr] at h; cases h

/-- Every command keeps the promise of the flags: `BUILD`, `DES` and `GEN` make good on what they set,
`RST` clears both flags, and no other command writes what they speak of. -/
theorem exec_treeInv {i : Instr} {s t : State} (h8 : s.upCnt.toNat ≤ 8) (hs : s.TreeInv)
    (h : exec i s = .next t) : t.TreeInv := by
  by_cases hi : i ∈ [Instr.rst, .build, .des, .gen]
  · simp only [List.mem_cons, List.not_mem_nil, or_false] at hi
    rcases hi with rfl | rfl | rfl | rfl
    · cases h; exact treeInv_of_clear rfl rfl
    · simp only [exec, execBuild] at h
      split at h <;> cases h
      · obtain ⟨T, _, hT, _, _, hbt, _⟩ := buildTree_ok ‹_›
        exact treeInv_of_tree (buildTree_legal ‹_› hT) hT (congrArg State.cv hbt)
      · exact (raiseError_sameTree _ _ _ s).treeInv hs
    · exact execDes_treeInv h8 h
    · cases htv : s.tv with
      | true =>
        obtain ⟨T, hl, hT⟩ := hs.tree htv
        obtain ⟨u, hu, hC, e⟩ := execGen_ok htv hT hl
        cases h.symm.trans hu
        rw [e] at hC ⊢
        exact treeInv_of_codes hl hT hC htv
      | false =>
        simp only [exec, execGen, htv] at h
        cases h
        exact (raiseError_sameTree _ _ _ s).treeInv hs
  · obtain ⟨u, hu, ht⟩ := exec_cases h
    have w := hu.writtenBy
    simp only [List.mem_cons, List.not_mem_nil, or_false, not_or] at hi
    obtain ⟨hrst, hbuild, hdes, hgen⟩ := hi
    obtain ⟨hnode, hnn, hroot, htv⟩ := w.tree (by simp [hrst, hbuild, hdes])
    have hu : u.TreeInv := SameTree.treeInv
      ⟨hnode, hnn, hroot, w.ct (by simp [hrst, hgen]), htv, w.cv (by simp [hrst, hbuild, hdes, hgen])⟩ hs
    rcases ht with rfl | ⟨e, sub, info, rfl⟩
    · exact hu
    · exact (raiseError_sameTree e sub info u).treeInv hu

/-- Settles O19: a command keeps the promise, and every other step writes nothing that it speaks of or
clears both flags. -/
theorem flagsStayTrue : Obligations.FlagsStayTrue := by
  unfold Obligations.FlagsStayTrue
  intro s t hr hs h
  cases stepTo_of_step h with
  | environment e => rw [e]; exact { hs with }
  | din v rest => exact { hs with }
  | reset rest => exact treeInv_of_clear rfl rfl
  | command rest hu =>
    exact { exec_treeInv (s := { s with host := rest, busy := true }) hr.unpackerCount { hs with } hu with }
  | refused sub c rest => exact (raiseError_sameTree _ _ _ _).treeInv { hs with }

/-- Settles O17: at reset the registers are in range and no flag promises anything. -/
theorem invariantsHoldAtReset : Obligations.InvariantsHoldAtReset := by
  unfold Obligations.InvariantsHoldAtReset
  exact ⟨regInv_of_atReset reset_atReset (by decide), treeInv_of_clear rfl rfl⟩

end Sys2Proof.Machine
end

section
/-! The codes of `GEN` (O44) and the node numbers of `BUILD` (O38). -/

namespace Sys2Proof.Machine

/-! ## Codes of a tree (42_code_table.md R195) -/

theorem CodeTree.mem_symbols_iff {t : CodeTree} {x : Symbol} : x ∈ t.symbols ↔ ∃ p, (x, p) ∈ t.paths := by
  induction t with
  | leaf y => simp [CodeTree.symbols, CodeTree.paths]
  | node l r ihl ihr =>
    simp only [CodeTree.symbols, CodeTree.paths, List.mem_append, List.mem_map, Prod.mk.injEq, ihl, ihr]
    constructor
    · rintro (⟨p, h⟩ | ⟨p, h⟩)
      · exact ⟨_, .inl ⟨_, h, rfl, rfl⟩⟩
      · exact ⟨_, .inr ⟨_, h, rfl, rfl⟩⟩
    · rintro ⟨_, ⟨⟨_, p⟩, h, rfl, _⟩ | ⟨⟨_, p⟩, h, rfl, _⟩⟩
      · exact .inl ⟨p, h⟩
      · exact .inr ⟨p, h⟩

/-- A path is no longer than the tree is deep. -/
theorem CodeTree.path_length_le {t : CodeTree} {x : Symbol} {p : List Bool} (h : (x, p) ∈ t.paths) :
    p.length ≤ t.depth := by
  induction t generalizing p with
  | leaf y => simp only [CodeTree.paths, List.mem_singleton, Prod.mk.injEq] at h; simp [h.2]
  | node l r ihl ihr =>
    simp only [CodeTree.paths, List.mem_append, List.mem_map, Prod.mk.injEq] at h
    rcases h with ⟨⟨_, q⟩, h, rfl, rfl⟩ | ⟨⟨_, q⟩, h, rfl, rfl⟩
    · have := ihl h; simp only [List.length_cons, CodeTree.depth]; omega
    · have := ihr h; simp only [List.length_cons, CodeTree.depth]; omega

/-- Where one path begins another, both lead to the same leaf: two paths part at some Internal node. -/
theorem CodeTree.paths_prefix {t : CodeTree} {x y : Symbol} {p q : List Bool} (hx : (x, p) ∈ t.paths)
    (hy : (y, q) ∈ t.paths) (h : p <+: q) : x = y := by
  induction t generalizing p q with
  | leaf z =>
    simp only [CodeTree.paths, List.mem_singleton, Prod.mk.injEq] at hx hy
    rw [hx.1, hy.1]
  | node l r ihl ihr =>
    simp only [CodeTree.paths, List.mem_append, List.mem_map, Prod.mk.injEq] at hx hy
    rcases hx with ⟨⟨_, p⟩, hx, rfl, rfl⟩ | ⟨⟨_, p⟩, hx, rfl, rfl⟩ <;>
      rcases hy with ⟨⟨_, q⟩, hy, rfl, rfl⟩ | ⟨⟨_, q⟩, hy, rfl, rfl⟩ <;>
      obtain ⟨hb, h⟩ := List.cons_prefix_cons.mp h
    · exact ihl hx hy h
    · cases hb
    · cases hb
    · exact ihr hx hy h

theorem lastFor_concat (x : Symbol) (l : List (Symbol × List Bool)) (e : Symbol × List Bool) :
    lastFor x (l ++ [e]) = if e.1 = x then e.2 else lastFor x l := by simp [lastFor]

/-- Where every code of `x` in a list has a bit and there is one, so has the last. -/
theorem lastFor_ne_nil {x : Symbol} {l : List (Symbol × List Bool)} (hne : ∀ p, (x, p) ∈ l → p ≠ [])
    {p : List Bool} (h : (x, p) ∈ l) : lastFor x l ≠ [] := by
  induction l using List.reverseRecOn with
  | nil => simp at h
  | append_singleton l e ih =>
    rw [lastFor_concat]
    split
    · rename_i he
      exact hne e.2 (by simp [← he])
    · rename_i he
      have hl : (x, p) ∈ l := by
        rcases List.mem_append.mp h with hl | hl
        · exact hl
        · exact absurd (by rw [← List.mem_singleton.mp hl]) he
      exact ih (fun q hq => hne q (List.mem_append_left _ hq)) hl

/-- A symbol has a code exactly when it is a leaf. -/
theorem CodeTree.codeOf_ne_nil_iff (t : CodeTree) (x : Symbol) : t.codeOf x ≠ [] ↔ x ∈ t.symbols := by
  cases t with
  | leaf y => simp [CodeTree.codeOf, CodeTree.symbols, eq_comm]
  | node l r =>
    rw [CodeTree.mem_symbols_iff]
    exact ⟨fun h => ⟨_, lastFor_mem h⟩, fun ⟨_, h⟩ => lastFor_ne_nil (fun _ => CodeTree.paths_ne_nil) h⟩

/-- No code of a tree with at most 257 leaves is longer than 256 bits. -/
theorem CodeTree.codeOf_length_le {t : CodeTree} (h : t.leaves ≤ 257) (x : Symbol) :
    (t.codeOf x).length ≤ 256 := by
  cases t with
  | leaf y => simp only [CodeTree.codeOf]; split <;> simp
  | node l r =>
    by_cases hc : lastFor x (CodeTree.node l r).paths = []
    · simp [CodeTree.codeOf, hc]
    · have hlen := CodeTree.path_length_le (lastFor_mem hc)
      have hdepth := (CodeTree.node l r).depth_lt_leaves
      show (lastFor x (CodeTree.node l r).paths).length ≤ 256
      omega

/-- A code that begins another belongs to the same symbol. -/
theorem CodeTree.codeOf_prefix {t : CodeTree} {x y : Symbol} (hx : t.codeOf x ≠ []) (hy : t.codeOf y ≠ [])
    (h : t.codeOf x <+: t.codeOf y) : x = y := by
  cases t with
  | leaf z =>
    simp only [CodeTree.codeOf_ne_nil_iff, CodeTree.symbols, List.mem_singleton] at hx hy
    rw [hx, hy]
  | node l r => exact CodeTree.paths_prefix (lastFor_mem hx) (lastFor_mem hy) h

theorem idxSymbol_injective : Function.Injective idxSymbol := fun i j h =>
  Fin.ext (by rw [← idxSymbol_toNat, h, idxSymbol_toNat])

/-- Settles O44: `GEN` makes the tree's codes, and two paths of a tree part at an Internal node. -/
theorem codesArePrefixFree : Obligations.CodesArePrefixFree := by
  unfold Obligations.CodesArePrefixFree
  intro s T htv hT hl
  obtain ⟨t, ht, hC, _⟩ := execGen_ok htv hT hl
  have hlen (i : SymIdx) : 1 ≤ (t.codeAt i).len ↔ T.codeOf (idxSymbol i) ≠ [] := by
    rw [CodeRec.len, hC i, ← List.length_pos_iff]; exact Iff.rfl
  refine ⟨t, ht, fun i => ⟨(hlen i).trans (T.codeOf_ne_nil_iff _), ?_, fun j hij hi hj hp => ?_⟩⟩
  · rw [CodeRec.len, hC i]
    exact CodeTree.codeOf_length_le hl.1 _
  · rw [hC i, hC j] at hp
    exact hij (idxSymbol_injective (CodeTree.codeOf_prefix ((hlen i).mp hi) ((hlen j).mp hj) hp))

/-! ## The records of `BUILD` (41_tree_builder.md R170, R171) -/

/-- Settles O38, from what `BUILD` leaves of a non-empty table. -/
theorem buildNumbersNodes : Obligations.BuildNumbersNodes := by
  unfold Obligations.BuildNumbersNodes
  refine ⟨by decide, fun s hne => ?_⟩
  obtain ⟨_, _, _, hnn, hroot, hbt, habove, hleaves, hinternal, _⟩ := buildTree_ok hne
  have hlen := presentSymbols_length s
  refine ⟨buildTree s, by rw [exec, execBuild, if_pos hne], by omega, by omega, hleaves, fun k hk hk' => ?_,
    habove, hbt⟩
  have hkn : (BitVec.ofNat 10 k).toNat = k := by rw [BitVec.toNat_ofNat]; omega
  obtain ⟨r, hr, hleaf, hleft, hright, _⟩ := hinternal (BitVec.ofNat 10 k) (by omega) (by omega)
  rw [State.nodeAt?, hkn] at hr
  rw [hkn] at hleft hright
  exact ⟨r, hr, hleaf, hleft, hright⟩

end Sys2Proof.Machine
end

section
/-! The bit packer and the magic number (O27, O55): a byte sequence is known by its bits. -/

namespace Sys2Proof.Machine

/-! ## Bits of byte sequences (20_memory.md R75) -/

theorem bitsOf_append {m n : Nat} (v : BitVec m) (w : BitVec n) :
    bitsOf (v ++ w) = bitsOf v ++ bitsOf w := by
  refine List.ext_getElem (by simp) fun i h _ => ?_
  simp only [bitsOf_length] at h
  rw [bitsOf_getElem, List.getElem_append, BitVec.getLsbD_append]
  by_cases hi : i < m
  · rw [dif_pos (by simpa using hi), bitsOf_getElem, if_neg (by omega)]
    congr 1; omega
  · rw [dif_neg (by simpa using hi), bitsOf_getElem, if_pos (by omega), bitsOf_length]
    congr 1; omega

/-- A byte sequence is known by its bits. -/
theorem streamBits_injective : Function.Injective streamBits := by
  intro a b h
  have hlen : a.length = b.length := by
    have := congrArg List.length h
    rw [streamBits_length, streamBits_length] at this
    omega
  induction a generalizing b with
  | nil => exact (List.length_eq_zero_iff.mp hlen.symm).symm
  | cons v a ih =>
    obtain ⟨w, b, rfl⟩ := List.exists_cons_of_length_eq_add_one hlen.symm
    obtain ⟨hv, hab⟩ := List.append_inj (by simpa using h) (by simp)
    rw [bitsOf_injective hv, ih hab (by simpa using hlen)]

/-- The bits of a 32-bit word are those of its four bytes, the most significant first. -/
theorem bitsOf_eq_streamBits_bytes (m : BitVec 32) :
    bitsOf m = streamBits [m.extractLsb' 24 8, m.extractLsb' 16 8, m.extractLsb' 8 8, m.extractLsb' 0 8] := by
  have join (start k len : Nat) (hk : k = start + 8) :
      bitsOf (m.extractLsb' start (len + 8)) = bitsOf (m.extractLsb' k len) ++ bitsOf (m.extractLsb' start 8) := by
    rw [← BitVec.extractLsb'_append_extractLsb'_eq_extractLsb' hk, bitsOf_append]
  calc bitsOf m = bitsOf (m.extractLsb' 0 32) := by rw [BitVec.extractLsb'_eq_self]
    _ = _ := by
      rw [join 0 8 24 rfl, join 8 16 16 rfl, join 16 24 8 rfl]
      simp

/-! ## The packer (20_memory.md R66 to R69) -/

/-- A packer operation that completes has only appended to `PKO` (20_memory.md R62). -/
theorem writeSeq_prefix {q : List Bool} {s t : State} (h : writeSeq q s = .ok () t) :
    s.pko.data <+: t.pko.data := by
  have := writeSeq_within (A := fun _ _ => True) packerFrame_allows trivial q s
  rw [h] at this
  exact this.2

theorem flush_prefix {s t : State} (h : flush s = .ok () t) : s.pko.data <+: t.pko.data := by
  have := flush_within (A := fun _ _ => True) packerFrame_allows trivial
    (fun _ _ => ⟨rfl, List.prefix_append _ _⟩) s
  rw [h] at this
  exact this.2

theorem written_length (s : State) : (written s).length = 8 * s.pko.data.length + s.pkCnt.toNat := by
  simp [written, streamBits_length, pending_length]

theorem written_of_empty {s : State} (h : s.pkCnt = 0) : written s = streamBits s.pko.data := by
  rw [written, pending_of_empty h, List.append_nil]

/-- Whole bytes before a sequence do not change its padding. -/
theorem padding_bytes_add (k n : Nat) : padding (8 * k + n) = padding n := by
  rw [padding, padding, Nat.mul_add_mod]

/-- Settles O27: the flush leaves the bits written and their padding on `PKO`, behind what stood there. -/
theorem packerLaw : Obligations.PackerLaw := by
  unfold Obligations.PackerLaw
  intro q s h0 ho
  obtain ⟨t, ht⟩ := writeSeq_progress (q := q) ho
  obtain ⟨hw, _, n, hn⟩ := writeSeq_ok ht
  obtain ⟨u, hu⟩ := flush_progress (noFail_of_packerOnly hn ho)
  obtain ⟨hbits, _⟩ := flush_ok hu
  obtain ⟨bytes, hbytes⟩ := (writeSeq_prefix ht).trans (flush_prefix hu)
  have hstream : streamBits bytes = q ++ padding q.length := by
    rw [hw, written_of_empty h0, List.length_append, streamBits_length, padding_bytes_add, ← hbytes,
      streamBits_append, List.append_assoc] at hbits
    exact List.append_cancel_left hbits
  have hlen := congrArg List.length hstream
  rw [streamBits_length, padding, List.length_append, List.length_replicate] at hlen
  exact ⟨t, u, ht, hu, bytes, hbytes.symm, by omega, hstream⟩

/-- Settles O55: `WMAGIC` writes the bits of `MAGIC`, which from a byte boundary are four whole bytes. -/
theorem wmagicWritesMagic : Obligations.WmagicWritesMagic := by
  unfold Obligations.WmagicWritesMagic
  refine ⟨by decide, fun s ho => ?_⟩
  obtain ⟨t, ht⟩ := writeSeq_progress (q := bitsOf s.cfg.magic) ho
  obtain ⟨hw, hp, _⟩ := writeSeq_ok ht
  refine ⟨t, by rw [exec, execWmagic, writeBits, ht, Res.outcome], hw, hp, fun h0 => ?_⟩
  have ht0 : t.pkCnt = 0 := by
    have hz : s.pkCnt.toNat = 0 := by simp [h0]
    have hlen := congrArg List.length hw
    rw [List.length_append, written_length, written_length, bitsOf_length] at hlen
    bv_omega
  refine ⟨ht0, streamBits_injective ?_⟩
  rw [streamBits_append, ← bitsOf_eq_streamBits_bytes, ← written_of_empty ht0, ← written_of_empty h0, hw]

end Sys2Proof.Machine
end

section
/-! The bit unpacker (O28, O29): the value of `ReadBits`, and how many bytes of `UPI` it takes. -/

namespace Sys2Proof.Machine

/-- Settles O28, by the two laws of `ReadBits`: enough bits are left, or too few. -/
theorem readBitsValue : Obligations.ReadBitsValue := by
  unfold Obligations.ReadBitsValue
  intro n s _ _ h8 ho
  refine ⟨fun w r hu => ?_, fun hlt => ?_⟩
  · obtain ⟨t, e, hr, hs, _⟩ := readBits_some w h8 ho hu
    exact ⟨t, e, hr, hs⟩
  · obtain ⟨t, e, hr, hs, _⟩ := readMore_none n (v := (0 : BitVec n)) h8 ho hlt
    exact ⟨t, e, hr, hs⟩

/-- A bit read moves the stream position `8 × pos − up_cnt` by one, and at most seven bits stay buffered
(20_memory.md R70). -/
theorem readBit_position {s t : State} {b : Bool} (h : readBit s = .ok (some b) t)
    (h7 : s.upCnt.toNat ≤ 7) :
    8 * t.upi.pos + s.upCnt.toNat = 8 * s.upi.pos + t.upCnt.toNat + 1 ∧ t.upCnt.toNat ≤ 7 := by
  by_cases h0 : s.upCnt = 0
  · rw [readBit, if_pos h0] at h
    rcases byteIn_cases s.upi with ⟨_, e⟩ | ⟨_, _, e⟩ | ⟨_, v, r, _, e, _⟩ <;>
      simp only [byteInUpi, e] at h <;> cases h
    have hz : s.upCnt.toNat = 0 := by simp [h0]
    have hdec : ((8 : BitVec 4) - 1).toNat = 7 := rfl
    exact ⟨by simp only; omega, by simp only; omega⟩
  · rw [readBit, if_neg h0] at h
    cases h
    have hdec : (s.upCnt - 1).toNat + 1 = s.upCnt.toNat := by bv_omega
    exact ⟨by simp only; omega, by simp only; omega⟩

theorem readMore_position {n k : Nat} {v x : BitVec n} {s t : State} (h : readMore k v s = .ok (some x) t)
    (h7 : s.upCnt.toNat ≤ 7) :
    8 * t.upi.pos + s.upCnt.toNat = 8 * s.upi.pos + t.upCnt.toNat + k ∧ t.upCnt.toNat ≤ 7 := by
  induction k generalizing v s with
  | zero => cases h; exact ⟨rfl, h7⟩
  | succ k ih =>
    obtain ⟨b, u, hb, hk⟩ := Res.andThen_ok h
    cases b with
    | none => cases hk
    | some b =>
      obtain ⟨hpos, hu7⟩ := readBit_position hb h7
      obtain ⟨hpos', ht7⟩ := ih hk hu7
      exact ⟨by omega, ht7⟩

theorem InPort.rest_eq_nil_iff (p : InPort) : p.rest = [] ↔ p.data.length ≤ p.pos :=
  List.drop_eq_nil_iff

theorem unread_of_empty {s : State} (h : s.upCnt = 0) : unread s = streamBits s.upi.rest := by
  simp [unread, buffered, h]

/-- `ReadBit` answers the end only where no bit is buffered (20_memory.md R70). -/
theorem upCnt_of_readBit_none {s t : State} (h : readBit s = .ok none t) : s.upCnt = 0 := by
  by_contra h0
  rw [readBit, if_neg h0] at h
  cases h

/-- Settles O29: the stream position gives the bytes fetched, and an empty unpacker meets the end exactly
where `UPI` has no byte left. -/
theorem unpackerIsLazy : Obligations.UnpackerIsLazy := by
  unfold Obligations.UnpackerIsLazy
  refine fun s ho => ⟨fun k v h0 hk => ?_, fun ⟨t, h⟩ => ?_, fun ⟨h0, hend⟩ => ?_⟩
  · have hz : s.upCnt.toNat = 0 := by simp [h0]
    have hu := unread_of_empty h0
    have htake : ((unread s).take k).length = k := by
      rw [List.length_take, hu, streamBits_length]
      exact Nat.min_eq_left hk
    obtain ⟨x, t, e, _, hr, _⟩ := readMore_some ((unread s).take k) (v := v) (by omega) ho
      (List.take_append_drop k _).symm
    rw [htake] at e
    obtain ⟨hpos, h7⟩ := readMore_position e (by omega)
    exact ⟨x, t, e, by omega, by rw [hr, hu]⟩
  · have h0 := upCnt_of_readBit_none h
    obtain ⟨hu, _⟩ := readBit_ok_none (by simp [h0]) h
    rw [unread_of_empty h0, ← List.length_eq_zero_iff, streamBits_length] at hu
    exact ⟨h0, (InPort.rest_eq_nil_iff _).mp (List.length_eq_zero_iff.mp (by omega))⟩
  · refine ⟨_, readBit_none (by simp [h0]) ho ?_⟩
    rw [unread_of_empty h0, (InPort.rest_eq_nil_iff _).mpr hend, streamBits_nil]

end Sys2Proof.Machine
end

section
/-! The byte ports (O15, O24, O25, O26): the host's liberties, the answers, the bytes that stay, and the
errors of a failed access. -/

namespace Sys2Proof.Machine

/-- Settles O15: an idle engine lets the host act on a port. -/
theorem hostOwnsPorts : Obligations.HostOwnsPorts := by
  unfold Obligations.HostOwnsPorts
  intro s rest hb
  have hport (t : State) : portAction t { s with host := rest } = .next t := if_neg (by simp [hb])
  refine ⟨fun b p h => ?_, fun b p h => ?_, fun m n h => ?_, fun m n h => ?_⟩ <;>
    exact (step_action h).trans (hport _)

/-- An access does not fail where the oracle's next answer is not `IOFail` (20_memory.md R65). -/
theorem headD_eq_false_iff (o : List Bool) : o.headD false = false ↔ o.head? ≠ some true := by
  rw [Ne, ← headD_eq_true_iff, Bool.not_eq_true]

/-- Up to its end or its error entry a command only appends to the output ports (20_memory.md R62). -/
theorem ExecFrame.outputs_prefix {i : Instr} {s t : State} (h : ExecFrame i s t) :
    s.pko.data <+: t.pko.data ∧ s.dst.data <+: t.dst.data := by
  have w := h.writtenBy
  constructor
  · by_cases hi : i ∈ [.wmagic, .ser, .enc, .close]
    · simp only [List.mem_cons, List.not_mem_nil, or_false] at hi
      rcases hi with rfl | rfl | rfl | rfl <;> exact h.2
    · rw [w.pko hi]
  · by_cases hi : i ∈ [.dec]
    · obtain rfl := List.mem_singleton.mp hi
      exact h.2
    · rw [w.dst hi]

/-- Settles O24: what a command appends up to its end or its error entry stays, and the error entry itself
only appends. -/
theorem bytesNeverWithdrawn : Obligations.BytesNeverWithdrawn := by
  unfold Obligations.BytesNeverWithdrawn
  refine ⟨fun p v => ⟨fun h => byteOut_fail v ((headD_eq_true_iff _).mpr h),
    fun h => byteOut_ok v ((headD_eq_false_iff _).mpr h)⟩, fun s t i h => ?_⟩
  obtain ⟨u, hu, rfl | ⟨e, sub, info, rfl⟩⟩ := exec_cases h
  · exact hu.outputs_prefix
  · obtain ⟨hpko, hdst⟩ := hu.outputs_prefix
    exact ⟨hpko.trans (raiseError_eq e sub info u).2, by rwa [raiseError_dst]⟩

/-- Settles O25: the three cases of `ByteIn`. -/
theorem byteInAnswers : Obligations.ByteInAnswers := by
  unfold Obligations.ByteInAnswers
  intro p
  rcases byteIn_cases p with ⟨ho, e⟩ | ⟨ho, hr, e⟩ | ⟨ho, v, r, hr, e, _⟩
  · have ho := (headD_eq_true_iff _).mp ho
    exact ⟨fun _ => e, fun h => absurd ho h, fun _ h => absurd ho h⟩
  · have ho := (headD_eq_false_iff _).mp ho
    have hend := (InPort.rest_eq_nil_iff p).mp hr
    exact ⟨fun h => absurd h ho, fun _ _ => e, fun h => absurd hend (by omega)⟩
  · have ho := (headD_eq_false_iff _).mp ho
    have hlt : p.pos < p.data.length := by
      by_contra hge
      rw [(InPort.rest_eq_nil_iff p).mpr (by omega)] at hr
      cases hr
    rw [InPort.rest, List.drop_eq_getElem_cons hlt] at hr
    obtain ⟨rfl, _⟩ := List.cons.inj hr
    exact ⟨fun h => absurd h ho, fun _ h => absurd h (by omega), fun _ _ => e⟩

theorem byteOutPko_fail {s : State} (v : Byte) (h : s.pko.oracle.headD false = true) :
    byteOutPko v s = (.ioFail, { s with pko := { s.pko with oracle := s.pko.oracle.tail } }) := by
  rw [byteOutPko, byteOut_fail v h]

theorem byteOutDst_fail {s : State} (v : Byte) (h : s.dst.oracle.headD false = true) :
    byteOutDst v s = (.ioFail, { s with dst := { s.dst with oracle := s.dst.oracle.tail } }) := by
  rw [byteOutDst, byteOut_fail v h]

theorem byteInUpi_fail {s : State} (h : s.upi.oracle.headD false = true) :
    byteInUpi s = (.ioFail, { s with upi := { s.upi with oracle := s.upi.oracle.tail } }) := by
  rcases byteIn_cases s.upi with ⟨_, e⟩ | ⟨ho, _⟩ | ⟨ho, _⟩
  · rw [byteInUpi, e]
  all_goals rw [h] at ho; cases ho

/-- `ENC` behind bytes whose accesses of `SRC` do not fail, at one that does (44_stream_encoder.md R221). -/
theorem execEnc_fail {p r : List Byte} {o : List Bool} {s : State} (hcv : s.cv = true)
    (hr : s.src.rest = p ++ r) (hs : s.src.oracle = List.replicate p.length false ++ true :: o)
    (hp : NoFail s.pko.oracle) (hc : ∀ b ∈ p, (s.codeAt (byteIdx b)).code ≠ []) :
    ∃ u, exec .enc s = .next (raiseError .io 1 0 u) ∧
      written u = written s ++ p.flatMap (fun b => (s.codeAt (byteIdx b)).code) ∧
      u = { s with
        src := { data := s.src.data, pos := s.src.pos + p.length, oracle := o }
        pkAcc := u.pkAcc, pkCnt := u.pkCnt, pko := u.pko } := by
  have hlen : p.length ≤ s.src.left := by
    rw [← InPort.rest_length, hr, List.length_append]
    omega
  have hdrop : s.src.oracle.drop p.length = true :: o := by rw [hs, List.drop_left' (by simp)]
  have htake : s.src.oracle.take p.length = List.replicate p.length false := by
    rw [hs, List.take_left' (by simp)]
  obtain ⟨u, e, hw, hu⟩ := encLoop_fail (s.src.left + 1) hr (by omega)
    (by rw [htake]; exact fun b hb => List.eq_of_mem_replicate hb) (by rw [hdrop]; rfl) hp hc
  refine ⟨u, ?_, hw, ?_⟩
  · rw [exec, execEnc, if_pos hcv, e]; rfl
  · rw [← List.drop_drop, hdrop] at hu
    exact hu

/-- Settles O26, by the failing access of each port. -/
theorem failedAccessRaises : Obligations.FailedAccessRaises := by
  unfold Obligations.FailedAccessRaises
  simp only [← headD_eq_true_iff]
  refine fun s => ⟨fun h0 ho => ?_, fun b h7 ho => ?_, fun r hr hl hx ho => ?_, fun hcv ho => ?_,
    fun p r o hcv hr hs hp hc => execEnc_fail hcv hr hs hp hc, fun ho => ?_⟩
  · rw [readBit, if_pos h0, byteInUpi_fail ho]
  · rw [writeBit, if_pos h7, byteOutPko_fail _ ho]; rfl
  · rw [arrive, hr]
    simp only [hl, if_true]
    rw [if_neg hx, byteOutDst_fail _ ho]
  · rw [exec, execEnc, if_pos hcv, encLoop, byteInSrc_fail ho]; rfl
  · rw [exec, execFscan, scanLoop, byteInSrc_fail (s := clearTable s) ho]; rfl

end Sys2Proof.Machine
end

section
/-! Command words (O1 to O4): the decoder and the encoder agree on every word (30_encoding.md R110 to
R113). -/

namespace Sys2Proof
open Laws.EncodeFields

/-! ## The fields of a word as numbers (30_encoding.md R110) -/

theorem opField_toNat (c : CmdWord) : (opField c).toNat = c.toNat / 2048 := by
  have := c.isLt
  rw [opField, BitVec.extractLsb'_toNat, Nat.shiftRight_eq_div_pow]
  omega

theorem rsvField_eq_zero_iff (c : CmdWord) : rsvField c = 0 ↔ c.toNat / 512 % 4 = 0 := by
  rw [← BitVec.toNat_inj, rsvField, BitVec.extractLsb'_toNat, Nat.shiftRight_eq_div_pow]
  rfl

theorem argField_toNat (c : CmdWord) : (argField c).toNat = c.toNat % 512 := by
  rw [argField, BitVec.extractLsb'_toNat, Nat.shiftRight_zero]

/-! ## The formats (30_encoding.md R111, R112) -/

/-- Bit 8 is the top bit of an operand field. -/
theorem getLsbD_eight_iff (arg : BitVec 9) : arg.getLsbD 8 = true ↔ 256 ≤ arg.toNat := by
  rw [show arg.getLsbD 8 = arg.msb from (BitVec.msb_eq_getLsbD_last arg).symm, BitVec.msb_eq_decide,
    decide_eq_true_iff]

theorem formatOf_eq_none_iff (op : BitVec 5) : formatOf op = none ↔ 16 ≤ op.toNat := by
  revert op
  decide

theorem lt_of_formatOf_eq_some {op : BitVec 5} {f : Format} (h : formatOf op = some f) : op.toNat < 16 := by
  rw [← not_le, ← formatOf_eq_none_iff, h]
  exact nofun

/-- What an assigned opcode stands for: a command without operand, `FACC` (opcode 3) or `FSET`
(opcode 5). -/
theorem formatOf_cases {op : BitVec 5} {f : Format} (h : formatOf op = some f) :
    (op.toNat ≠ 3 ∧ op.toNat ≠ 5 ∧ ∃ i, f = .none i ∧ i.wellFormed = true ∧ encode i = commandWord op 0) ∨
    (op = 3 ∧ f = .byte .facc) ∨ (op = 5 ∧ f = .symbol .fset) := by
  have hop {n : Nat} (e : op.toNat = n) : op = BitVec.ofNat 5 n := by
    rw [← e, BitVec.ofNat_toNat, BitVec.setWidth_eq]
  unfold formatOf at h
  split at h
  case h_4 e => cases h; exact .inr (.inl ⟨hop e, rfl⟩)
  case h_6 e => cases h; exact .inr (.inr ⟨hop e, rfl⟩)
  case h_17 => cases h
  all_goals
    rename_i e
    cases h
    exact .inl ⟨by omega, by omega, _, rfl, rfl, by rw [hop e]; rfl⟩

theorem operandOf_none_eq (i : Instr) (arg : BitVec 9) :
    operandOf (.none i) arg = if arg.toNat = 0 then .instr i else .badOperand :=
  if_congr BitVec.toNat_eq rfl rfl

theorem operandOf_byte_eq (mk : Byte → Instr) (arg : BitVec 9) : operandOf (.byte mk) arg =
    if 256 ≤ arg.toNat then .badOperand else .instr (mk (arg.setWidth 8)) := by
  simp only [operandOf, getLsbD_eight_iff]

theorem operandOf_symbol_eq (mk : Symbol → Instr) (arg : BitVec 9) :
    operandOf (.symbol mk) arg = if arg.toNat ≤ 256 then .instr (mk arg) else .badOperand := rfl

/-! ## The decoder (30_encoding.md R113) -/

/-- Steps (1) and (2): the opcode first, then the reserved bits and the operand. -/
theorem decode_cases (c : CmdWord) :
    (formatOf (opField c) = none ∧ decode c = .illegalOpcode) ∨
    ∃ f, formatOf (opField c) = some f ∧
      ((rsvField c ≠ 0 ∧ decode c = .badOperand) ∨ (rsvField c = 0 ∧ decode c = operandOf f (argField c))) := by
  rw [decode]
  cases formatOf (opField c) with
  | none => exact .inl ⟨rfl, rfl⟩
  | some f =>
    refine .inr ⟨f, rfl, ?_⟩
    by_cases hr : rsvField c = 0
    · exact .inr ⟨hr, if_pos hr⟩
    · exact .inl ⟨hr, if_neg hr⟩

theorem decode_commandWord {op : BitVec 5} {f : Format} (h : formatOf op = some f) (arg : BitVec 9) :
    decode (commandWord op arg) = operandOf f arg := by
  obtain ⟨hop, hrsv, harg⟩ := fields op arg
  rcases decode_cases (commandWord op arg) with ⟨hf, _⟩ | ⟨g, hg, ⟨hr, _⟩ | ⟨_, hd⟩⟩
  · rw [hop, h] at hf; cases hf
  · exact absurd hrsv hr
  · rw [hop, h] at hg
    cases hg
    rw [hd, harg]

/-- A format that accepts its operand gives the command whose word has that operand. -/
theorem encode_of_operandOf {op : BitVec 5} {f : Format} {arg : BitVec 9} {i : Instr}
    (h : formatOf op = some f) (hi : operandOf f arg = .instr i) :
    i.wellFormed = true ∧ encode i = commandWord op arg := by
  rcases formatOf_cases h with ⟨_, _, j, rfl, hw, he⟩ | ⟨rfl, rfl⟩ | ⟨rfl, rfl⟩
  · rw [operandOf_none_eq] at hi
    split at hi <;> cases hi
    rw [BitVec.eq_of_toNat_eq (y := 0) ‹arg.toNat = 0›]
    exact ⟨hw, he⟩
  · rw [operandOf_byte_eq] at hi
    split at hi <;> cases hi
    refine ⟨rfl, congrArg (commandWord 3) (BitVec.eq_of_toNat_eq ?_)⟩
    simp only [BitVec.toNat_setWidth]
    omega
  · rw [operandOf_symbol_eq] at hi
    split at hi <;> cases hi
    exact ⟨decide_eq_true ‹_›, rfl⟩

/-- Which operand fields the format of an assigned opcode refuses. -/
theorem operandOf_refuses {op : BitVec 5} {f : Format} (h : formatOf op = some f) (arg : BitVec 9) :
    operandOf f arg ≠ .illegalOpcode ∧
      (operandOf f arg = .badOperand ↔ (op.toNat ≠ 3 ∧ op.toNat ≠ 5 ∧ arg.toNat ≠ 0) ∨
        (op.toNat = 3 ∧ 256 ≤ arg.toNat) ∨ (op.toNat = 5 ∧ 256 < arg.toNat)) := by
  rcases formatOf_cases h with ⟨h3, h5, i, rfl, _⟩ | ⟨rfl, rfl⟩ | ⟨rfl, rfl⟩
  · rw [operandOf_none_eq]
    split
    · exact ⟨nofun, iff_of_false nofun (by omega)⟩
    · exact ⟨nofun, iff_of_true rfl (by omega)⟩
  · have h3 : (3 : BitVec 5).toNat = 3 := rfl
    rw [operandOf_byte_eq]
    split
    · exact ⟨nofun, iff_of_true rfl (by omega)⟩
    · exact ⟨nofun, iff_of_false nofun (by omega)⟩
  · have h5 : (5 : BitVec 5).toNat = 5 := rfl
    rw [operandOf_symbol_eq]
    split
    · exact ⟨nofun, iff_of_false nofun (by omega)⟩
    · exact ⟨nofun, iff_of_true rfl (by omega)⟩

/-! ## The obligations -/

/-- Settles O1: each word is decoded. -/
theorem decodeWrittenOutWords : Obligations.DecodeWrittenOutWords := by
  unfold Obligations.DecodeWrittenOutWords
  decide

/-- Settles O2, by the format of each command. -/
theorem decodeEncode : Obligations.DecodeEncode := by
  unfold Obligations.DecodeEncode
  intro i hi
  cases i with
  | facc b =>
    have hb := b.isLt
    rw [encode, decode_commandWord (f := .byte .facc) rfl, operandOf_byte_eq, if_neg (by simp; omega),
      BitVec.setWidth_setWidth_of_le b (by omega), BitVec.setWidth_eq]
  | fset x =>
    rw [encode, decode_commandWord (f := .symbol .fset) rfl, operandOf_symbol_eq, if_pos (of_decide_eq_true hi)]
  | nop | rst | fclr | feof | fscan | build | gen | ser | des | enc | dec | wmagic | rmagic | close =>
    rw [encode]
    exact decode_commandWord (f := .none _) rfl 0

/-- Settles O3: a decoded word has its reserved bits clear, and its opcode and operand field are those of
its command. -/
theorem encodeDecode : Obligations.EncodeDecode := by
  unfold Obligations.EncodeDecode
  intro c i h
  rcases decode_cases c with ⟨_, hd⟩ | ⟨f, hf, ⟨_, hd⟩ | ⟨hr, hd⟩⟩ <;> rw [hd] at h
  · cases h
  · cases h
  · rw [← commandWord_fields hr]
    exact encode_of_operandOf hf h

/-- Settles O4: an opcode without a format is illegal; with one, the reserved bits and the format decide. -/
theorem decodeRefuses : Obligations.DecodeRefuses := by
  unfold Obligations.DecodeRefuses
  intro c
  rw [← opField_toNat, ← argField_toNat, Ne, ← rsvField_eq_zero_iff]
  rcases decode_cases c with ⟨hf, hd⟩ | ⟨f, hf, ⟨hr, hd⟩ | ⟨hr, hd⟩⟩
  · have h16 := (formatOf_eq_none_iff _).mp hf
    exact ⟨iff_of_true hd h16, iff_of_false (by simp [hd]) (by omega)⟩
  · have h16 := not_le.mpr (lt_of_formatOf_eq_some hf)
    exact ⟨iff_of_false (by simp [hd]) h16, iff_of_true hd ⟨by omega, .inl hr⟩⟩
  · have h16 := not_le.mpr (lt_of_formatOf_eq_some hf)
    obtain ⟨hill, hbad⟩ := operandOf_refuses hf (argField c)
    refine ⟨iff_of_false (hd ▸ hill) h16, ?_⟩
    rw [hd, hbad]
    exact ⟨fun h => ⟨by omega, .inr h⟩, fun h => h.2.resolve_left (not_not_intro hr)⟩

end Sys2Proof
end

section
/-! Refused words and unmet preconditions (O6, O7): `UsageError` with the command word (30_encoding.md R113
to R115). -/

namespace Sys2Proof.Machine

/-- An idle engine without an error accepts every command word (10_state.md R36). -/
theorem writeCmd_accepted {s : State} (c : CmdWord) (hb : s.busy = false) (he : s.err = 0) :
    writeCmd c s = runCommand c { s with busy := true } := by
  rcases writeCmd_cases c s with ⟨hbusy, _⟩ | ⟨_, herr, _⟩ | ⟨_, _, e⟩
  · rw [hb] at hbusy; cases hbusy
  · exact absurd he herr
  · exact e

/-- Settles O6: the accepted word goes to the decoder first. -/
theorem decodeErrorsRaise : Obligations.DecodeErrorsRaise := by
  unfold Obligations.DecodeErrorsRaise
  intro s c rest h hb he
  have hstep : step s = runCommand c { s with host := rest, busy := true } := by
    rw [step_writeCmd h, BitVec.ofNat_toNat, BitVec.setWidth_eq]
    exact writeCmd_accepted c hb he
  refine ⟨fun hd => ?_, fun hd => ?_⟩ <;> rw [hstep, runCommand, hd] <;> rfl

theorem tableNonEmpty_of_counts_zero {s : State} (h : ∀ i : SymIdx, s.count i = 0) :
    s.tableNonEmpty = false := by
  rw [← Bool.not_eq_true, tableNonEmpty_iff, not_not, presentSymbols]
  simp [h]

/-- Settles O7: each command tests its precondition before anything else. -/
theorem preconditionsRaise : Obligations.PreconditionsRaise := by
  unfold Obligations.PreconditionsRaise
  refine fun s => ⟨fun h => ?_, fun h => ⟨?_, ?_, ?_⟩, fun h => ?_⟩
  · rw [exec, execBuild, tableNonEmpty_of_counts_zero h]; rfl
  · rw [exec, execGen, h]; rfl
  · rw [exec, execSer, h]; rfl
  · rw [exec, execDec, h]; rfl
  · rw [exec, execEnc, h]; rfl

end Sys2Proof.Machine
end

section
/-! The container of a file (O59): `ENCODE` command by command (46_container.md R251). -/

namespace Sys2Proof.Machine

/-! ## The host's actions (10_state.md R36, 20_memory.md R64, 47_system.md R268) -/

theorem hostRun_cons {a : HostAction} {rest : List HostAction} {s t : State} (h : hostAct a s = .next t) :
    hostRun (a :: rest) s = hostRun rest t := by
  rw [hostRun, h]

theorem hostAct_issue (i : Instr) (s : State) : hostAct (issue i) s = writeCmd (encode i) s := by
  show writeCmd (BitVec.ofNat 16 (encode i).toNat) s = _
  rw [BitVec.ofNat_toNat, BitVec.setWidth_eq]

theorem runCommand_encode {i : Instr} (hi : i.wellFormed = true) (s : State) :
    runCommand (encode i) s = complete (exec i s) := by
  rw [runCommand, decodeEncode i hi]

/-- No operation runs and no error is latched. -/
structure Idle (s : State) : Prop where
  busy : s.busy = false
  err : s.err = 0

/-- An idle engine runs the command the host issues. -/
theorem issue_next {i : Instr} {s t : State} (hs : Idle s) (hi : i.wellFormed = true)
    (h : exec i { s with busy := true } = .next t) :
    hostAct (issue i) s = .next { t with busy := false } := by
  rw [hostAct_issue, writeCmd_accepted _ hs.busy hs.err, runCommand_encode hi, h, complete]

/-- `RST` is accepted in the error state too (60_exceptions.md R290). -/
theorem issue_rst {s : State} (hb : s.busy = false) : hostAct (issue .rst) s = .next (resetEngine s) := by
  rw [hostAct_issue]
  rcases writeCmd_cases (encode .rst) s with ⟨hbusy, _⟩ | ⟨_, _, hne, _⟩ | ⟨_, _, e⟩
  · rw [hb] at hbusy; cases hbusy
  · exact absurd rfl hne
  · rw [e, runCommand_encode rfl]; rfl

theorem armSrc_next {s : State} (bytes : List Byte) (pos : Nat) (hb : s.busy = false) :
    hostAct (.armSrc bytes pos) s = .next { s with src := s.src.arm bytes pos } := by
  simp only [hostAct, portAction, hb, Bool.false_eq_true, if_false]

/-! ## The table of a file (40_freq.md R145) -/

/-- The counter of a symbol after `FSCAN` of a file. -/
def fileCount (file : List Byte) (i : SymIdx) : Nat := if i = eofIdx then 1 else occurrences i file

/-- The engine after reset, with the table of a file: what `BUILD` makes of it depends on nothing else. -/
def tableOf (file : List Byte) : State := { State.reset with ft := Vector.ofFn (fileCount file) }

theorem count_tableOf (file : List Byte) (i : SymIdx) : (tableOf file).count i = fileCount file i := by
  simp [State.count, tableOf]

theorem ft_eq_of_count_eq {s t : State} (h : ∀ i, s.count i = t.count i) : s.ft = t.ft :=
  Vector.ext fun i hi => h ⟨i, hi⟩

theorem mem_presentSymbols (s : State) (i : SymIdx) : i ∈ presentSymbols s ↔ s.count i ≠ 0 := by
  simp [presentSymbols]

theorem byteIdx_ne_eofIdx (b : Byte) : byteIdx b ≠ eofIdx := fun h => by
  have hb := b.isLt
  have hv : b.toNat = 256 := congrArg Fin.val h
  omega

theorem eofIdx_mem_tableOf (file : List Byte) : eofIdx ∈ presentSymbols (tableOf file) := by
  rw [mem_presentSymbols, count_tableOf, fileCount, if_pos rfl]
  exact one_ne_zero

theorem byteIdx_mem_tableOf {file : List Byte} {b : Byte} (h : b ∈ file) :
    byteIdx b ∈ presentSymbols (tableOf file) := by
  rw [mem_presentSymbols, count_tableOf, fileCount, if_neg (byteIdx_ne_eofIdx b)]
  exact (List.count_pos_iff.mpr (List.mem_map_of_mem h)).ne'

theorem tableOf_nonEmpty (file : List Byte) : (tableOf file).tableNonEmpty = true :=
  (tableNonEmpty_iff _).mpr (List.ne_nil_of_mem (eofIdx_mem_tableOf file))

/-- `FSCAN` of a file shorter than `2^CNT_W` bytes leaves its table (40_freq.md R145, R146). -/
theorem issue_fscan {s : State} {file : List Byte} (hs : Idle s) (hr : s.src.rest = file)
    (ho : NoFail s.src.oracle) (hlen : file.length < 2 ^ s.cfg.cntW) :
    ∃ t, hostAct (issue .fscan) s = .next t ∧ t.ft = (tableOf file).ft ∧ NoFail t.src.oracle ∧
      t = { s with ft := t.ft, src := t.src } := by
  obtain ⟨t, ht, hcount, e⟩ := scanLoop_ok (s := clearTable { s with busy := true }) (s.src.left + 1) hr
    (by rw [← hr, InPort.rest_length]; omega) ho fun b _ => by
      have hle : occurrences (byteIdx b) file ≤ file.length := by
        simpa [occurrences] using List.count_le_length (a := byteIdx b) (l := file.map byteIdx)
      rw [clearTable_count, Nat.zero_add]
      exact hle.trans (Nat.le_sub_one_of_lt hlen)
  refine ⟨{ addSentinel t with busy := false }, issue_next hs rfl ?_, ft_eq_of_count_eq fun i => ?_, ?_, ?_⟩
  · rw [exec, execFscan, ht]; rfl
  · show (t.setCount eofIdx 1).count i = _
    rw [count_setCount, hcount, clearTable_count, Nat.zero_add, count_tableOf, fileCount]
    exact if_congr eq_comm rfl rfl
  · rw [e]; exact noFail_drop _ ho
  · rw [e, ← hs.busy]; rfl

/-! ## The tree and the codes of a table (41_tree_builder.md R170, R172, 42_code_table.md R192) -/

/-- The tree of `BUILD` is a function of the table (41_tree_builder.md R172). -/
theorem buildTree_hasTree_congr {s t : State} (e : t.ft = s.ft) (h : s.tableNonEmpty = true)
    {T : CodeTree} (hT : (buildTree s).HasTree T) : (buildTree t).HasTree T := by
  have hp : presentSymbols t = presentSymbols s := by simp only [presentSymbols, State.count, e]
  obtain ⟨U, hU, hasU, _⟩ := buildTree_ok h
  obtain ⟨V, hV, hasV, _⟩ := buildTree_ok (s := t) (by rwa [State.tableNonEmpty, e])
  rw [hp, forest_congr e, hU] at hV
  cases hV
  rwa [HasTree.unique hT hasU]

/-- An idle engine that holds a tree and its code table. -/
structure Coded (T : CodeTree) (s : State) : Prop extends Idle s where
  tv : s.tv = true
  cv : s.cv = true
  tree : s.HasTree T
  codes : s.HasCodes T

theorem issue_build {s : State} (hs : Idle s) (hne : s.tableNonEmpty = true) :
    hostAct (issue .build) s = .next { buildTree { s with busy := true } with busy := false } :=
  issue_next hs rfl (by rw [exec, execBuild]; exact if_pos hne)

theorem issue_gen {s : State} {T : CodeTree} (hs : Idle s) (htv : s.tv = true) (hT : s.HasTree T)
    (hl : T.Legal) :
    ∃ t, hostAct (issue .gen) s = .next t ∧ t.HasCodes T ∧
      t = { s with ct := t.ct, cv := true, draws := s.draws + 1 } := by
  obtain ⟨t, ht, hC, e⟩ := execGen_ok (s := { s with busy := true }) htv hT hl
  exact ⟨{ t with busy := false }, issue_next hs rfl ht, hC, by rw [e, ← hs.busy]⟩

/-- What `BUILD` and `GEN` leave of the engine besides its tree and codes. -/
def TreeOnly (s t : State) : Prop :=
  t = { s with
    node := t.node, nn := t.nn, root := t.root, heap := t.heap, hsize := t.hsize, ct := t.ct
    tv := t.tv, cv := t.cv, draws := t.draws }

/-- `BUILD` and `GEN` on the table of a file give the engine that table's tree and its codes. -/
theorem issue_build_gen {s : State} {file : List Byte} {T : CodeTree} (hs : Idle s)
    (hft : s.ft = (tableOf file).ft) (hT : (buildTree (tableOf file)).HasTree T) :
    ∃ t, (∀ rest, hostRun (issue .build :: issue .gen :: rest) s = hostRun rest t) ∧ Coded T t ∧
      TreeOnly s t := by
  have hne : s.tableNonEmpty = true := by rw [State.tableNonEmpty, hft]; exact tableOf_nonEmpty file
  have hl := buildTree_legal (tableOf_nonEmpty file) hT
  have hTs := buildTree_hasTree_congr (t := { s with busy := true }) hft (tableOf_nonEmpty file) hT
  have hbuild := issue_build hs hne
  obtain ⟨_, _, _, _, _, e, _⟩ := buildTree_ok (s := { s with busy := true }) hne
  generalize buildTree { s with busy := true } = b at hTs hbuild e
  have hb : Idle { b with busy := false } := ⟨rfl, (congrArg State.err e).trans hs.err⟩
  have htv : b.tv = true := congrArg State.tv e
  obtain ⟨t, hgen, hC, et⟩ := issue_gen hb htv hTs hl
  refine ⟨t, fun rest => by rw [hostRun_cons hbuild, hostRun_cons hgen], ?_, ?_⟩
  · exact { busy := congrArg State.busy et, err := (congrArg State.err et).trans hb.err
            tv := (congrArg State.tv et).trans htv, cv := congrArg State.cv et
            tree := by rw [et]; exact hTs, codes := hC }
  · rw [et, e, ← hs.busy]; rfl

/-- The first half of `ENCODE` (46_container.md R251): from any idle engine, in the error state or not, to
the tree and the codes of the file, nothing written yet. -/
theorem encode_prepares {s : State} {file : List Byte} {T : CodeTree} (hb : s.busy = false)
    (ho : NoFail s.src.oracle) (hlen : file.length < 2 ^ s.cfg.cntW)
    (hT : (buildTree (tableOf file)).HasTree T) :
    ∃ t, (∀ rest, hostRun (issue .rst :: .armSrc file 0 :: issue .fscan :: issue .build :: issue .gen :: rest) s =
        hostRun rest t) ∧
      Coded T t ∧ NoFail t.src.oracle ∧ t.pkCnt = 0 ∧ t.pko = s.pko ∧ t.cfg = s.cfg := by
  have harm := armSrc_next (s := resetEngine s) file 0 rfl
  have hr : Idle { resetEngine s with src := s.src.arm file 0 } := ⟨rfl, rfl⟩
  obtain ⟨u, hscan, hft, hu, e⟩ := issue_fscan hr (file := file) rfl ho hlen
  obtain ⟨t, hrun, hC, et⟩ := issue_build_gen (T := T) ⟨congrArg State.busy e, congrArg State.err e⟩ hft hT
  refine ⟨t, fun rest => ?_, hC, ?_, ?_, ?_, ?_⟩
  · rw [hostRun_cons (issue_rst hb), hostRun_cons harm]
    exact (hostRun_cons hscan).trans (hrun rest)
  · rw [et]; exact hu
  · rw [et, e]; rfl
  · rw [et, e]; rfl
  · rw [et, e]; rfl

/-! ## Writing the container (30_encoding.md R108, 46_container.md R250) -/

/-- Only `SRC`, the packer and `PKO` may differ. -/
def OutputOnly (s t : State) : Prop :=
  t = { s with src := t.src, pkAcc := t.pkAcc, pkCnt := t.pkCnt, pko := t.pko }

theorem OutputOnly.trans' {s t u : State} (h : OutputOnly s t) (k : OutputOnly t u) : OutputOnly s u := by
  unfold OutputOnly at *; rw [h] at k; exact k

theorem PackerOnly.outputOnly {s t : State} (h : PackerOnly s t) : OutputOnly s t := by
  unfold OutputOnly; rw [h]

theorem PackerOnly.src {s t : State} (h : PackerOnly s t) : t.src = s.src := by rw [h]

theorem Coded.outputOnly {T : CodeTree} {s t : State} (hs : Coded T s) (h : OutputOnly s t) : Coded T t := by
  rw [h]; exact { hs with }

/-- From `s` to `t` the packer has taken the bits `q`, and no access of `PKO` is going to fail. -/
structure Appends (q : List Bool) (s t : State) : Prop where
  frame : OutputOnly s t
  bits : written t = written s ++ q
  oracle : NoFail t.pko.oracle

theorem Appends.trans' {p q : List Bool} {s t u : State} (h : Appends p s t) (k : Appends q t u) :
    Appends (p ++ q) s u :=
  ⟨h.frame.trans' k.frame, by rw [k.bits, h.bits, List.append_assoc], k.oracle⟩

/-- A command that writes a bit sequence and does no more. -/
theorem issue_writeSeq {i : Instr} {q : List Bool} {s : State} (hs : Idle s) (hi : i.wellFormed = true)
    (ho : NoFail s.pko.oracle)
    (h : exec i { s with busy := true } = (writeSeq q { s with busy := true }).outcome) :
    ∃ t, hostAct (issue i) s = .next t ∧ Appends q s t ∧ t.src = s.src := by
  obtain ⟨t, ht⟩ := writeSeq_progress (q := q) (s := { s with busy := true }) ho
  obtain ⟨hw, hp, n, hn⟩ := writeSeq_ok ht
  refine ⟨{ t with busy := false }, issue_next hs hi (by rw [h, ht, Res.outcome]), ⟨?_, hw, ?_⟩, ?_⟩
  · unfold OutputOnly; rw [hp, ← hs.busy]
  · exact noFail_of_packerOnly hn ho
  · exact hp.src

theorem execSer_eq {T : CodeTree} {s : State} (htv : s.tv = true) (hT : s.HasTree T) (hl : T.Legal) :
    exec .ser s = (writeSeq T.serial s).outcome := by
  obtain ⟨ns, hH, _⟩ := hT
  have hdepth := T.depth_lt_leaves
  rw [exec, execSer, if_pos htv, put_eq 513 hH (by omega)]

/-- With the codes of a tree in the table, a payload is the tree's (30_encoding.md R107). -/
theorem payload_eq {T : CodeTree} {s : State} (h : s.HasCodes T) (bytes : List Byte) :
    payload s bytes = T.payload bytes := by
  simp only [payload, CodeTree.payload, h _]
  rfl

theorem Coded.code_ne_nil {T : CodeTree} {s : State} {i : SymIdx} (hs : Coded T s)
    (h : idxSymbol i ∈ T.symbols) : (s.codeAt i).code ≠ [] := by
  rw [hs.codes i]; exact (T.codeOf_ne_nil_iff _).mpr h

theorem issue_enc {T : CodeTree} {s : State} {file : List Byte} (hs : Coded T s) (hr : s.src.rest = file)
    (ho : NoFail s.src.oracle) (hp : NoFail s.pko.oracle)
    (hfile : ∀ b ∈ file, idxSymbol (byteIdx b) ∈ T.symbols) (heof : 256 ∈ T.symbols) :
    ∃ t, hostAct (issue .enc) s = .next t ∧ Appends (T.payload file) s t := by
  obtain ⟨t, ht, hw, hpt, e⟩ := enc_ok (s := { s with busy := true }) hr ho hp
    (fun b hb => hs.code_ne_nil (hfile b hb)) (hs.code_ne_nil heof)
  refine ⟨{ t with busy := false }, issue_next hs.toIdle rfl ?_, ?_, ?_, hpt⟩
  · rw [exec, execEnc]
    exact (if_pos hs.cv).trans (congrArg Res.outcome ht)
  · unfold OutputOnly; rw [e, ← hs.busy]
  · rw [← payload_eq hs.codes]; exact hw

/-- `CLOSE` pads what has been written to whole bytes (20_memory.md R69). -/
theorem issue_close {s : State} (hs : Idle s) (hp : NoFail s.pko.oracle) :
    ∃ t, hostAct (issue .close) s = .next t ∧ OutputOnly s t ∧
      streamBits t.pko.data = written s ++ padding (written s).length := by
  obtain ⟨t, ht⟩ := flush_progress (s := { s with busy := true }) hp
  obtain ⟨hbits, _, _, e, _⟩ := flush_ok ht
  refine ⟨{ t with busy := false }, issue_next hs rfl (by rw [exec, execClose, ht, Res.outcome]), ?_, hbits⟩
  unfold OutputOnly; rw [e, ← hs.busy]

/-- The bits of a container before their padding (30_encoding.md R108). -/
def containerBits (cfg : Config) (T : CodeTree) (file : List Byte) : List Bool :=
  bitsOf cfg.magic ++ T.serial ++ T.payload file

/-- The second half of `ENCODE` (46_container.md R251). -/
theorem encode_writes {s : State} {file : List Byte} {T : CodeTree} (hs : Coded T s) (hl : T.Legal)
    (ho : NoFail s.src.oracle) (hp : NoFail s.pko.oracle)
    (hfile : ∀ b ∈ file, idxSymbol (byteIdx b) ∈ T.symbols) (heof : 256 ∈ T.symbols) :
    ∃ t, hostRun [.armSrc file 0, issue .wmagic, issue .ser, issue .enc, issue .close] s = .next t ∧
      Coded T t ∧ streamBits t.pko.data = written s ++ containerBits s.cfg T file ++
        padding (written s ++ containerBits s.cfg T file).length := by
  have harm := armSrc_next file 0 hs.busy
  have hA : Coded T { s with src := s.src.arm file 0 } := { hs with }
  obtain ⟨m, hm, am, em⟩ := issue_writeSeq (i := .wmagic) hA.toIdle rfl hp rfl
  have hM := hA.outputOnly am.frame
  obtain ⟨r, hr, ar, er⟩ := issue_writeSeq (i := .ser) hM.toIdle rfl am.oracle
    (execSer_eq (s := { m with busy := true }) hM.tv hM.tree hl)
  have hR := hM.outputOnly ar.frame
  obtain ⟨c, hc, ac⟩ := issue_enc (file := file) hR (by rw [er, em]; rfl) (by rw [er, em]; exact ho) ar.oracle
    hfile heof
  have hC := hR.outputOnly ac.frame
  obtain ⟨t, ht, ft, hbits⟩ := issue_close hC.toIdle ac.oracle
  have hall := (am.trans' ar).trans' ac
  refine ⟨t, ?_, hC.outputOnly ft, ?_⟩
  · rw [hostRun_cons harm, hostRun_cons hm, hostRun_cons hr, hostRun_cons hc, hostRun_cons ht, hostRun]
  · rw [hbits, hall.bits]; rfl

/-- Every bit sequence with its padding is that of whole bytes. -/
theorem exists_padded_bytes (q : List Bool) : ∃ bytes, streamBits bytes = q ++ padding q.length := by
  obtain ⟨_, _, _, _, bytes, _, _, h⟩ := packerLaw q State.reset rfl (List.forall_mem_nil _)
  exact ⟨bytes, h⟩

/-- Settles O59: the tree is that of the file's table, and the container is the packed bits of its parts. -/
theorem encodeMakesContainer : Obligations.EncodeMakesContainer := by
  unfold Obligations.EncodeMakesContainer
  intro cfg file _ hlen
  obtain ⟨T, _, hT, _⟩ := buildTree_ok (tableOf_nonEmpty file)
  have hl := buildTree_legal (tableOf_nonEmpty file) hT
  have hperm := buildTree_symbols (tableOf_nonEmpty file) hT
  have hmem {i : SymIdx} (h : i ∈ presentSymbols (tableOf file)) : idxSymbol i ∈ T.symbols :=
    hperm.mem_iff.mpr (List.mem_map_of_mem h)
  have hfile : ∀ b ∈ file, idxSymbol (byteIdx b) ∈ T.symbols := fun b hb => hmem (byteIdx_mem_tableOf hb)
  have heof : 256 ∈ T.symbols := hmem (eofIdx_mem_tableOf file)
  have hnodup : T.symbols.Nodup :=
    hperm.nodup_iff.mpr (((List.nodup_finRange 257).filter _).map idxSymbol_injective)
  obtain ⟨container, hcon⟩ := exists_padded_bytes (containerBits cfg T file)
  refine ⟨T, container, hcon, hnodup, heof, hfile, ?_⟩
  rintro s rfl hb ho hp
  obtain ⟨u, hu, hC, hou, h0, hpko, hcfg⟩ := encode_prepares hb ho hlen hT
  obtain ⟨t, ht, hCt, hbits⟩ := encode_writes hC hl hou (hpko ▸ hp) hfile heof
  refine ⟨t, (hu _).trans ht, hCt.err, streamBits_injective ?_, hCt.tree, hCt.codes⟩
  rw [hbits, written_of_empty h0, hpko, hcfg, List.length_append, streamBits_length, padding_bytes_add,
    streamBits_append, hcon, List.append_assoc]

end Sys2Proof.Machine
end

section
/-! The frequency commands (O31 to O36): the word of each command, the counters after `FSCAN`, and where
`FSCAN` stops early (40_freq.md R140 to R146). -/

namespace Sys2Proof.Machine
open Laws.EncodeFields

/-! ## Command words (30_encoding.md R110) -/

/-- A command word as a number: opcode, reserved bits 0, operand. -/
theorem commandWord_toNat (op : BitVec 5) (arg : BitVec 9) :
    (commandWord op arg).toNat = 2048 * op.toNat + arg.toNat := by
  obtain ⟨hop, hrsv, harg⟩ := fields op arg
  have hop := (opField_toNat _).symm.trans (congrArg BitVec.toNat hop)
  have harg := (argField_toNat _).symm.trans (congrArg BitVec.toNat harg)
  have hrsv := (rsvField_eq_zero_iff _).mp hrsv
  omega

/-- A refused operand is `UsageError(2)` (30_encoding.md R113). -/
theorem runCommand_badOperand {c : CmdWord} (h : decode c = .badOperand) (s : State) :
    runCommand c s = .next (usageError 2 c s) := by
  rw [runCommand, h]

/-! ## The commands of one counter (40_freq.md R140 to R144) -/

/-- Settles O31: `FCLR` is that update of the table. -/
theorem fclrClearsTable : Obligations.FclrClearsTable := ⟨rfl, fun _ => rfl⟩

/-- Settles O33: `FEOF` is that update of one counter. -/
theorem feofSetsSentinel : Obligations.FeofSetsSentinel := ⟨rfl, fun _ => rfl⟩

/-- Settles O32, by the two answers of a count. -/
theorem faccCountsOneByte : Obligations.FaccCountsOneByte := by
  unfold Obligations.FaccCountsOneByte
  intro b
  have hb := b.isLt
  refine ⟨?_, fun s => ⟨runCommand_badOperand ?_ s, fun h => ?_, fun h => ?_⟩⟩
  · apply BitVec.eq_of_toNat_eq
    rw [encode, commandWord_toNat]
    simp only [BitVec.toNat_add, BitVec.toNat_setWidth, BitVec.reduceToNat]
    omega
  · refine ((decodeRefuses _).2).mpr ?_
    simp only [BitVec.toNat_add, BitVec.toNat_setWidth, BitVec.reduceToNat]
    omega
  · rw [exec, execFacc, countByte_ok h]; rfl
  · rw [exec, execFacc, countByte_full h]; rfl

/-- Settles O34, by the range of the symbol. -/
theorem fsetLoadsCounter : Obligations.FsetLoadsCounter := by
  unfold Obligations.FsetLoadsCounter
  intro x
  have hx := x.isLt
  refine ⟨?_, fun h s => ?_, fun h s => ⟨runCommand_badOperand ?_ s, ?_⟩⟩
  · apply BitVec.eq_of_toNat_eq
    rw [encode, commandWord_toNat]
    simp only [BitVec.toNat_add, BitVec.toNat_setWidth, BitVec.reduceToNat]
    omega
  · rw [exec, execFset, symIdx?_eq (Nat.le_of_lt_succ h)]; rfl
  · rw [encode, decode_commandWord (f := .symbol .fset) rfl, operandOf_symbol_eq, if_neg (by omega)]
  · rw [exec, execFset, symIdx?, dif_neg (by omega)]; rfl

/-! ## The counters after `FSCAN` (40_freq.md R146) -/

theorem byteIdx_injective : Function.Injective byteIdx := fun _ _ h =>
  BitVec.eq_of_toNat_eq (Fin.mk.inj h)

theorem occurrences_byteIdx (b : Byte) (bytes : List Byte) :
    occurrences (byteIdx b) bytes = bytes.count b :=
  List.count_map_of_injective _ _ byteIdx_injective _

theorem eofIdx_notMem_bytes (bytes : List Byte) : eofIdx ∉ bytes.map byteIdx := fun h => by
  obtain ⟨b, _, hb⟩ := List.mem_map.mp h
  exact byteIdx_ne_eofIdx b hb

theorem occurrences_eofIdx (bytes : List Byte) : occurrences eofIdx bytes = 0 :=
  List.count_eq_zero.mpr (eofIdx_notMem_bytes bytes)

/-- The table that `FSCAN` leaves counts the symbols of the bytes and one sentinel. -/
theorem fileCount_eq_count (bytes : List Byte) (i : SymIdx) :
    fileCount bytes i = (eofIdx :: bytes.map byteIdx).count i := by
  rw [fileCount]
  split
  case isTrue h => rw [h, List.count_cons_self, List.count_eq_zero.mpr (eofIdx_notMem_bytes bytes)]
  case isFalse h => rw [List.count_cons_of_ne (Ne.symm h)]; rfl

section
variable {s : State} {l : List SymIdx} (h : ∀ i, s.count i = l.count i)
include h

/-- Counters that count the members of a list add up to its length. -/
theorem sum_counts_of_count_eq : ((List.finRange 257).map s.count).sum = l.length := by
  simp only [← Fin.sum_univ_def, h, ← Multiset.coe_count]
  rw [Multiset.sum_count_eq_card fun i _ => Finset.mem_univ i, Multiset.coe_card]

/-- Where the counters count the members of a list, the present symbols are its members. -/
theorem presentSymbols_perm_dedup : (presentSymbols s).Perm l.dedup := by
  refine (List.perm_ext_iff_of_nodup ((List.nodup_finRange 257).filter _) l.nodup_dedup).mpr fun i => ?_
  rw [← presentSymbols, mem_presentSymbols, h, List.mem_dedup, ← Nat.pos_iff_ne_zero, List.count_pos_iff]

end

theorem length_dedup_scanned (bytes : List Byte) :
    (eofIdx :: bytes.map byteIdx).dedup.length = bytes.dedup.length + 1 := by
  rw [List.dedup_cons_of_notMem (eofIdx_notMem_bytes bytes), List.length_cons,
    List.dedup_map_of_injective byteIdx_injective, List.length_map]

/-- From an empty table, no counter of these bytes overflows. -/
theorem clearTable_counts_fit {s : State} {p : List Byte} (hc : ∀ b, p.count b < 2 ^ s.cfg.cntW) (b : Byte) :
    (clearTable s).count (byteIdx b) + occurrences (byteIdx b) p ≤ s.cfg.maxCount := by
  rw [clearTable_count, Nat.zero_add, occurrences_byteIdx]
  exact Nat.le_sub_one_of_lt (hc b)

/-- `FSCAN` counts every byte left on `SRC`, reads `SRC` to its end and sets the sentinel (40_freq.md R145). -/
theorem execFscan_ok {s : State} {bytes : List Byte} (hr : s.src.rest = bytes) (ho : NoFail s.src.oracle)
    (hc : ∀ b, bytes.count b < 2 ^ s.cfg.cntW) :
    ∃ t, exec .fscan s = .next t ∧ (∀ i, t.count i = fileCount bytes i) ∧
      t = { s with
        ft := t.ft
        src := { data := s.src.data, pos := s.src.pos + bytes.length
                 oracle := s.src.oracle.drop (bytes.length + 1) } } := by
  obtain ⟨t, ht, hcount, e⟩ := scanLoop_ok (s := clearTable s) (s.src.left + 1) hr
    (by rw [← hr, InPort.rest_length]; omega) ho
    fun b _ => clearTable_counts_fit hc b
  refine ⟨addSentinel t, by rw [exec, execFscan, ht]; rfl, fun i => ?_, by rw [e]; rfl⟩
  rw [addSentinel, count_setCount, hcount, clearTable_count, Nat.zero_add, fileCount]
  exact if_congr eq_comm rfl rfl

/-- Settles O35: the table is that of the list of the bytes' symbols and the sentinel. -/
theorem fscanCountsSource : Obligations.FscanCountsSource := by
  unfold Obligations.FscanCountsSource
  refine ⟨rfl, fun s bytes hr ho hc => ?_⟩
  obtain ⟨t, ht, hfile, e⟩ := execFscan_ok hr ho hc
  have hcount (i : SymIdx) := (hfile i).trans (fileCount_eq_count bytes i)
  have hlen : (presentSymbols t).length = bytes.dedup.length + 1 :=
    (presentSymbols_perm_dedup hcount).length_eq.trans (length_dedup_scanned bytes)
  refine ⟨t, ht, fun b => ?_, hfile eofIdx, ?_, ?_, hlen, e⟩
  · rw [hfile, fileCount, if_neg (byteIdx_ne_eofIdx b), occurrences_byteIdx]
  · rw [sum_counts_of_count_eq hcount, List.length_cons, List.length_map]
  · exact (tableNonEmpty_iff t).mpr (List.length_pos_iff.mp (by omega))

/-! ## Where `FSCAN` stops early (40_freq.md R145) -/

theorem counts_of_occurrences {u : State} {p : List Byte} (h : ∀ i, u.count i = occurrences i p) :
    (∀ b : Byte, u.count (byteIdx b) = p.count b) ∧ u.count eofIdx = 0 :=
  ⟨fun b => (h _).trans (occurrences_byteIdx b p), (h _).trans (occurrences_eofIdx p)⟩

/-- `FSCAN`'s loop over bytes whose accesses of `SRC` do not fail and whose counters do not overflow: it
counts them and goes on behind them. -/
theorem scanLoop_bytes {p r : List Byte} {s : State} (fuel : Nat) (hr : s.src.rest = p ++ r)
    (hs : NoFail (s.src.oracle.take p.length))
    (hc : ∀ b ∈ p, s.count (byteIdx b) + occurrences (byteIdx b) p ≤ s.cfg.maxCount) :
    ∃ t, scanLoop (fuel + p.length) s = scanLoop fuel t ∧
      (∀ i, t.count i = s.count i + occurrences i p) ∧
      t = { s with
        ft := t.ft
        src := { s.src with pos := s.src.pos + p.length, oracle := s.src.oracle.drop p.length } } := by
  induction p generalizing s with
  | nil => exact ⟨s, rfl, fun _ => rfl, rfl⟩
  | cons v p ih =>
    have hv := hc v List.mem_cons_self
    rw [occurrences_cons, if_pos rfl] at hv
    obtain ⟨e, hrest⟩ := byteInSrc_cons (noFail_take_head hs) hr
    have hcount (i : SymIdx) :
        ((srcRead 1 1 s).setCount (byteIdx v) (s.count (byteIdx v) + 1)).count i =
          s.count i + if byteIdx v = i then 1 else 0 := by
      rw [count_setCount]
      split
      case isTrue h => rw [h]
      case isFalse => rfl
    obtain ⟨t, ht, htc, hst⟩ := ih (s := (srcRead 1 1 s).setCount (byteIdx v) (s.count (byteIdx v) + 1))
      (by rw [setCount_src, srcRead_rest, hr]; rfl)
      (by have := noFail_take_tail hs; rwa [← List.drop_one] at this)
      fun b hb => by
        have := hc b (List.mem_cons_of_mem v hb)
        rw [occurrences_cons] at this
        rw [hcount, Nat.add_right_comm, Nat.add_assoc]
        exact this
    refine ⟨t, ?_, fun i => ?_, ?_⟩
    · rw [← ht, List.length_cons, ← Nat.add_assoc, scanLoop, e]
      simp only
      rw [countByte_ok (by exact (by omega : s.count (byteIdx v) ≠ s.cfg.maxCount))]
      simp only [Res.ok_andThen, srcRead, List.drop_one]
      rfl
    · rw [htc, hcount, occurrences_cons]; omega
    · rw [hst]
      simp only [setCount_src, srcRead, List.length_cons, List.drop_drop, Nat.add_assoc, Nat.add_comm 1]
      rfl

/-- `FSCAN` at the byte whose counter is full: consumed, not counted. -/
theorem execFscan_overflow {p r : List Byte} {v : Byte} {s : State} (hr : s.src.rest = p ++ v :: r)
    (ho : NoFail s.src.oracle) (hc : ∀ b, p.count b < 2 ^ s.cfg.cntW) (hv : p.count v = 2 ^ s.cfg.cntW - 1) :
    ∃ u, exec .fscan s = .next (raiseError .overflow 1 (v.setWidth 32) u) ∧
      (∀ i, u.count i = occurrences i p) ∧
      u = { s with
        ft := u.ft
        src := { data := s.src.data, pos := s.src.pos + (p.length + 1)
                 oracle := s.src.oracle.drop (p.length + 1) } } := by
  have hlen : p.length ≤ s.src.left := by
    rw [← InPort.rest_length, hr, List.length_append]; omega
  obtain ⟨u, hu, hcount, e⟩ := scanLoop_overflow (s := clearTable s) (s.src.left + 1) hr (by omega) ho
    (fun b _ => clearTable_counts_fit hc b)
    (by rw [clearTable_count, Nat.zero_add, occurrences_byteIdx]; exact hv)
  simp only [clearTable_count, Nat.zero_add] at hcount
  exact ⟨u, by rw [exec, execFscan, hu]; rfl, hcount, e⟩

/-- `FSCAN` where the access of `SRC` behind some bytes fails. -/
theorem execFscan_fail {p r : List Byte} {o : List Bool} {s : State} (hr : s.src.rest = p ++ r)
    (ho : s.src.oracle = List.replicate p.length false ++ true :: o) (hc : ∀ b, p.count b < 2 ^ s.cfg.cntW) :
    ∃ u, exec .fscan s = .next (raiseError .io 1 0 u) ∧ (∀ i, u.count i = occurrences i p) ∧
      u = { s with
        ft := u.ft
        src := { data := s.src.data, pos := s.src.pos + p.length, oracle := o } } := by
  obtain ⟨k, hk⟩ : ∃ k, s.src.left + 1 = k + 1 + p.length :=
    ⟨r.length, by rw [← InPort.rest_length, hr, List.length_append]; omega⟩
  have hdrop : s.src.oracle.drop p.length = true :: o := by rw [ho, List.drop_left' (by simp)]
  have htake : s.src.oracle.take p.length = List.replicate p.length false := by
    rw [ho, List.take_left' (by simp)]
  obtain ⟨u, hu, hcount, e⟩ := scanLoop_bytes (s := clearTable s) (k + 1) hr
    (fun b hb => List.eq_of_mem_replicate (htake ▸ hb))
    (fun b _ => clearTable_counts_fit hc b)
  simp only [clearTable_count, Nat.zero_add] at hcount
  have hou : u.src.oracle = true :: o := by rw [e]; exact hdrop
  refine ⟨{ u with src := { u.src with oracle := u.src.oracle.tail } }, ?_, hcount, ?_⟩
  · rw [exec, execFscan, hk, hu, scanLoop, byteInSrc_fail (by rw [hou]; rfl)]; rfl
  · rw [hou, e]; rfl

/-- Settles O36: the byte that overflows, or the access that fails, stands behind the bytes counted. -/
theorem fscanStopsEarly : Obligations.FscanStopsEarly := by
  unfold Obligations.FscanStopsEarly
  refine fun s p hc => ⟨fun v r hr ho hv => ?_, fun r o hr ho => ?_⟩
  · obtain ⟨u, hu, hcount, e⟩ := execFscan_overflow hr ho hc hv
    obtain ⟨hbytes, heof⟩ := counts_of_occurrences hcount
    exact ⟨u, hu, hbytes, heof, e⟩
  · obtain ⟨u, hu, hcount, e⟩ := execFscan_fail hr ho hc
    obtain ⟨hbytes, heof⟩ := counts_of_occurrences hcount
    exact ⟨u, hu, hbytes, heof, e⟩

end Sys2Proof.Machine
end

section
/-! The tree builder (O20, O37, O39 to O42): its queue, the tree it stores, and the weights of its
records (41_tree_builder.md R165 to R174). -/

namespace Sys2Proof.Machine

/-! ## The queue (41_tree_builder.md R165) -/

/-- Settles O37, by the law of each of the two operations. -/
theorem queueIsASet : Obligations.QueueIsASet := by
  unfold Obligations.QueueIsASet
  refine fun s hs => ⟨fun n hk hn => ?_, fun m t hk e => ?_⟩
  · obtain ⟨honly, _, hperm, hok⟩ := pqInsert_ok hs hk hn
    exact ⟨hok, hperm, honly⟩
  · obtain ⟨honly, _, hperm, hok, hmin⟩ := pqExtractMin_ok hs hk
    rw [e] at honly hperm hok hmin
    exact ⟨hperm.mem_iff.mpr List.mem_cons_self, fun x hx hne => (less_iff s m x).mp (hmin x hx hne), hok,
      hperm, honly⟩

/-! ## The tree (41_tree_builder.md R170 to R174) -/

theorem exec_build_nonEmpty {s : State} (h : s.tableNonEmpty = true) : exec .build s = .next (buildTree s) :=
  if_pos h

/-- Settles O39: the queue gives the loop of `BUILD` the two least twigs, which `huffman` merges. -/
theorem buildMergesTheLeast : Obligations.BuildMergesTheLeast := by
  unfold Obligations.BuildMergesTheLeast
  intro s hne
  obtain ⟨T, hT, hhas, _⟩ := buildTree_ok hne
  exact ⟨buildTree s, T, exec_build_nonEmpty hne, hT, hhas⟩

/-- The position of a record is below `2^10`, so that an index can name it (10_state.md R24). -/
theorem recordIndex_toNat (k : Fin 513) : (BitVec.ofNat 10 k.val).toNat = k.val := by
  rw [BitVec.toNat_ofNat]; omega

theorem record_eq {s : State} {k : Fin 513} {r : NodeRec} (h : s.node[k.val]? = some r) : s.node[k] = r :=
  Option.some_inj.mp ((Vector.getElem?_eq_getElem k.isLt).symm.trans h)

theorem nodeAt?_recordIndex (s : State) (k : Fin 513) : s.nodeAt? (BitVec.ofNat 10 k.val) = some s.node[k] := by
  rw [State.nodeAt?, recordIndex_toNat]
  exact Vector.getElem?_eq_getElem k.isLt

theorem weight_of_record {s : State} {n : Index} {r : NodeRec} (h : s.node[n.toNat]? = some r) :
    s.weight n = r.w := by
  rw [State.weight, State.nodeAt?, h]; rfl

theorem weight_recordIndex (s : State) (k : Fin 513) : s.weight (BitVec.ofNat 10 k.val) = s.node[k].w :=
  weight_of_record (nodeAt?_recordIndex s k)

/-- Settles O40: the Leaf records are the leaves of the tree, and the merge loop makes the weights. -/
theorem buildTreeLaws : Obligations.BuildTreeLaws := by
  unfold Obligations.BuildTreeLaws
  intro s hne
  obtain ⟨T, _, hhas, _, _, _, _, _, hinternal, hmono⟩ := buildTree_ok hne
  refine ⟨buildTree s, T, exec_build_nonEmpty hne, hhas, buildTree_symbols hne hhas, fun k hk hk' => ?_,
    fun j k hj hjk hk => ?_⟩
  · rw [← recordIndex_toNat k] at hk hk'
    obtain ⟨r, hr, _, _, _, hw⟩ := hinternal _ hk hk'
    rw [nodeAt?_recordIndex] at hr
    cases hr
    exact hw
  · rw [Fin.le_def, ← recordIndex_toNat j, ← recordIndex_toNat k] at hjk
    rw [← recordIndex_toNat] at hj hk
    rw [← weight_recordIndex, ← weight_recordIndex]
    exact hmono _ _ hj hjk hk

theorem forest_weights (s : State) : (forest s).map Twig.weight = (presentSymbols s).map s.count := by
  rw [forest, List.map_map]
  conv_rhs => rw [← List.zipIdx_map_fst 0 (presentSymbols s), List.map_map]
  rfl

/-- Every twig of the first forest is a leaf, which weighs its count. -/
theorem mem_forest {s : State} {t : Twig} (h : t ∈ forest s) : ∃ i n, t = leafTwig s n i := by
  obtain ⟨e, _, rfl⟩ := List.mem_map.mp h
  exact ⟨e.1, BitVec.ofNat 10 e.2, rfl⟩

theorem below_forest (f : Symbol → Nat) (s : State) : below f (forest s) = 0 := by
  refine List.sum_eq_zero fun x hx => ?_
  obtain ⟨t, ht, rfl⟩ := List.mem_map.mp hx
  obtain ⟨i, n, rfl⟩ := mem_forest ht
  rfl

/-- Settles O41: the tree is `huffman` of the leaves, and that costs no more than any tree over their
weights. -/
theorem buildIsOptimal : Obligations.BuildIsOptimal := by
  unfold Obligations.BuildIsOptimal
  intro s f hne hf
  obtain ⟨T, hT, hhas, _⟩ := buildTree_ok hne
  refine ⟨buildTree s, T, exec_build_nonEmpty hne, hhas, fun U hU => ?_⟩
  have hweights : (U.weights f).leaves.Perm ((forest s).map Twig.weight) := by
    rw [U.weights_leaves, forest_weights, ← show f ∘ idxSymbol = s.count from funext hf, ← List.map_map]
    exact hU.map f
  have htwigs : ∀ t ∈ forest s, t.weight = t.tree.total f := fun t ht => by
    obtain ⟨i, n, rfl⟩ := mem_forest ht
    exact (hf i).symm
  calc T.pathLength f 0
      ≤ dot ((U.weights f).depths 0) (U.weights f).leaves + below f (forest s) :=
        huffman_optimal hT htwigs _ hweights
    _ = U.pathLength f 0 := by rw [below_forest, Nat.add_zero, U.pathLength_eq_dot]

/-- Settles O42: the tree and the Internal records are those of the table's merges, the numbers and the Leaf
records those of its present symbols. -/
theorem buildIsDeterministic : Obligations.BuildIsDeterministic := by
  unfold Obligations.BuildIsDeterministic
  intro s s' e hne
  have hne' : s'.tableNonEmpty = true := by rwa [State.tableNonEmpty, ← e]
  have hcount : s'.count = s.count := by funext i; rw [State.count, State.count, e]
  have hp : presentSymbols s' = presentSymbols s := by rw [presentSymbols, presentSymbols, hcount]
  obtain ⟨T, _, hhas, hnn, hroot, _, _, hleaves, _⟩ := buildTree_ok hne
  obtain ⟨_, _, _, hnn', hroot', _, _, hleaves', _⟩ := buildTree_ok hne'
  rw [hp] at hnn'
  refine ⟨buildTree s, buildTree s', T, exec_build_nonEmpty hne, exec_build_nonEmpty hne', hhas,
    buildTree_hasTree_congr e.symm hne hhas, BitVec.eq_of_toNat_eq (by omega), BitVec.eq_of_toNat_eq (by omega),
    fun k hk => ?_, fun k hk hk' => buildTree_same e.symm hne hk hk'⟩
  obtain ⟨r, hr, hl, hsym, hw⟩ := hleaves k hk
  obtain ⟨r', hr', hl', hsym', hw'⟩ := hleaves' k (by rw [hp]; exact hk)
  simp only [hp, hcount] at hsym' hw'
  exact ⟨r, r', hr, hr', hl, hl', hsym.trans hsym'.symm, hw.trans hw'.symm⟩

/-! ## The width of the weights (41_tree_builder.md R173) -/

theorem CodeTree.total_eq_sum (f : Symbol → Nat) (t : CodeTree) : t.total f = (t.symbols.map f).sum := by
  induction t with
  | leaf x => simp [CodeTree.total, CodeTree.symbols]
  | node l r ihl ihr => rw [CodeTree.total, CodeTree.symbols, List.map_append, List.sum_append, ihl, ihr]

/-- A record weighs what its symbol counts, or what its two children weigh (41_tree_builder.md R166,
R167). -/
def Weighs (f : Symbol → Nat) (s : State) (r : NodeRec) : Prop :=
  r.w = if r.leaf then f r.sym else s.weight r.left + s.weight r.right

/-- A node weighs the sum of the counts of the leaves below it. -/
theorem Holds.weight_eq_total {f : Symbol → Nat} {s : State} {t : CodeTree} {n : Index} {ns : List Nat}
    (h : Holds s.node t n ns) (hw : ∀ i ∈ ns, ∀ r, s.node[i]? = some r → Weighs f s r) :
    s.weight n = t.total f := by
  induction t generalizing n ns with
  | leaf x =>
    obtain ⟨rfl, r, hr, hl, rfl⟩ := h
    rw [weight_of_record hr, hw _ List.mem_cons_self r hr, if_pos hl]
    rfl
  | node a b iha ihb =>
    obtain ⟨r, la, lb, hr, hl, ha, hb, rfl⟩ := h
    rw [weight_of_record hr, hw _ List.mem_cons_self r hr, if_neg (by simp [hl]),
      iha ha fun i hi => hw i (by simp [hi]), ihb hb fun i hi => hw i (by simp [hi])]
    rfl

theorem buildTree_weighs {f : Symbol → Nat} {s : State} (h : s.tableNonEmpty = true)
    (hf : ∀ i, f (idxSymbol i) = s.count i) {k : Nat} (hk : k < (buildTree s).nn.toNat) {r : NodeRec}
    (hr : (buildTree s).node[k]? = some r) : Weighs f (buildTree s) r := by
  obtain ⟨_, _, _, hnn, _, _, _, hleaves, hinternal, _⟩ := buildTree_ok h
  have hlen := presentSymbols_length s
  by_cases hleaf : k < (presentSymbols s).length
  · obtain ⟨r', hr', hl, hsym, hw⟩ := hleaves k hleaf
    cases hr.symm.trans hr'
    rw [Weighs, if_pos hl, hw, hsym, hf]
  · have hkn : (BitVec.ofNat 10 k).toNat = k := recordIndex_toNat ⟨k, by omega⟩
    obtain ⟨r', hr', hl, _, _, hw⟩ := hinternal (BitVec.ofNat 10 k) (by omega) (by omega)
    rw [State.nodeAt?, hkn] at hr'
    cases hr.symm.trans hr'
    rwa [Weighs, if_neg (by simp [hl])]

/-- The root of `BUILD` weighs what all symbols count together. -/
theorem buildTree_weight_root {s : State} (h : s.tableNonEmpty = true) :
    (buildTree s).weight (buildTree s).root = ((presentSymbols s).map s.count).sum := by
  obtain ⟨T, _, hhas, _⟩ := buildTree_ok h
  obtain ⟨ns, hH, hperm⟩ := id hhas
  obtain ⟨f, hf⟩ : ∃ f : Symbol → Nat, ∀ i, f (idxSymbol i) = s.count i :=
    ⟨Function.extend idxSymbol s.count 0, fun i => idxSymbol_injective.extend_apply s.count 0 i⟩
  calc (buildTree s).weight (buildTree s).root
      = T.total f := hH.weight_eq_total fun i hi r hr =>
        buildTree_weighs h hf (List.mem_range.mp (hperm.mem_iff.mp hi)) hr
    _ = (((presentSymbols s).map idxSymbol).map f).sum := by
        rw [T.total_eq_sum, ((buildTree_symbols h hhas).map f).sum_eq]
    _ = ((presentSymbols s).map s.count).sum := by rw [List.map_map, show f ∘ idxSymbol = s.count from funext hf]

/-- Every weight has `WGT_W = CNT_W + 9` bits (10_state.md R24). -/
def WeightsFit (s : State) : Prop := ∀ n : Fin 513, s.node[n].w < 2 ^ (s.cfg.cntW + 9)

theorem WeightsFit.congr {s t : State} (h : WeightsFit s) (hnode : t.node = s.node) (hcfg : t.cfg = s.cfg) :
    WeightsFit t := by
  rw [WeightsFit, hnode, hcfg]
  exact h

/-- A free weight is cut to its width (notes/assumptions/3.md). -/
theorem freeNodeRec_w_lt (s : State) (n : Nat) : (freeNodeRec s n).w < 2 ^ (s.cfg.cntW + 9) :=
  Nat.mod_lt _ (Nat.two_pow_pos _)

theorem WeightsFit.setNode {s : State} (h : WeightsFit s) (n : Index) {r : NodeRec}
    (hr : r.w < 2 ^ (s.cfg.cntW + 9)) : WeightsFit (s.setNode n r) := by
  intro k
  rw [Fin.getElem_fin, setNode_node, Vector.getElem_setIfInBounds]
  split
  · exact hr
  · exact h k

theorem resetEngine_weightsFit (s : State) : WeightsFit (resetEngine s) := by
  intro k
  rw [resetEngine_node, freeNodes, Fin.getElem_fin, Vector.getElem_ofFn]
  exact freeNodeRec_w_lt s.draw k

theorem raiseError_weightsFit {s : State} (h : WeightsFit s) (e : ErrClass) (sub : BitVec 3) (info : BitVec 32) :
    WeightsFit (raiseError e sub info s) :=
  h.congr (raiseError_node e sub info s) (raiseError_cfg e sub info s)

theorem keepsWeights_get : AllowsGet (Keeps WeightsFit) where
  __ := Keeps.steps WeightsFit
  access _ _ h := h
  load _ _ h := h
  shift _ _ h := h
  alloc _ _ h := h
  record s n _ _ _ _ h := h.setNode n (freeNodeRec_w_lt s n.toNat)

/-- 257 counts of `CNT_W` bits add up to less than `2^WGT_W`. -/
theorem sum_counts_lt {s : State} (hc : ∀ i, s.count i < 2 ^ s.cfg.cntW) :
    ((presentSymbols s).map s.count).sum < 2 ^ (s.cfg.cntW + 9) := by
  have hpos := Nat.two_pow_pos s.cfg.cntW
  have hsum := List.sum_le_card_nsmul ((presentSymbols s).map s.count) (2 ^ s.cfg.cntW) fun c h => by
    obtain ⟨i, _, rfl⟩ := List.mem_map.mp h
    exact (hc i).le
  rw [List.length_map, smul_eq_mul] at hsum
  calc ((presentSymbols s).map s.count).sum
      ≤ 257 * 2 ^ s.cfg.cntW := hsum.trans (Nat.mul_le_mul_right _ (presentSymbols_length s))
    _ < 2 ^ (s.cfg.cntW + 9) := by rw [Nat.pow_add]; omega

/-- `BUILD` writes counts, and sums that are at most the root's (41_tree_builder.md R173, R174). -/
theorem buildTree_weightsFit {s : State} (hc : ∀ i, s.count i < 2 ^ s.cfg.cntW) (hs : WeightsFit s)
    (hne : s.tableNonEmpty = true) : WeightsFit (buildTree s) := by
  obtain ⟨_, _, _, hnn, hroot, hbt, habove, hleaves, _, hmono⟩ := buildTree_ok hne
  intro k
  have hcfg : (buildTree s).cfg = s.cfg := by rw [hbt]
  have hk := recordIndex_toNat k
  rw [hcfg]
  by_cases hleaf : k.val < (presentSymbols s).length
  · obtain ⟨r, hr, _, _, hw⟩ := hleaves k hleaf
    rw [record_eq hr, hw]
    exact (hc _).trans (Nat.pow_lt_pow_right one_lt_two (by omega))
  by_cases hin : k.val < (buildTree s).nn.toNat
  · rw [← weight_recordIndex]
    calc (buildTree s).weight (BitVec.ofNat 10 k.val)
        ≤ (buildTree s).weight (buildTree s).root := hmono _ _ (by omega) (by omega) (by omega)
      _ = ((presentSymbols s).map s.count).sum := buildTree_weight_root hne
      _ < 2 ^ (s.cfg.cntW + 9) := sum_counts_lt hc
  · rw [record_eq ((habove k (by omega)).trans (Vector.getElem?_eq_getElem k.isLt))]
    exact hs k

/-- Every command keeps the width: `RST`, `BUILD` and `DES` write records whose weights fit, and no other
command writes a record. -/
theorem exec_weightsFit {i : Instr} {s t : State} (hc : ∀ i, s.count i < 2 ^ s.cfg.cntW) (hs : WeightsFit s)
    (h : exec i s = .next t) : WeightsFit t := by
  by_cases hi : i ∈ [Instr.rst, .build, .des]
  · simp only [List.mem_cons, List.not_mem_nil, or_false] at hi
    rcases hi with rfl | rfl | rfl
    · cases h; exact resetEngine_weightsFit s
    · simp only [exec, execBuild] at h
      split at h <;> cases h
      · exact buildTree_weightsFit hc hs ‹_›
      · exact raiseError_weightsFit hs _ _ _
    · have hget : Within (Keeps WeightsFit) (fun _ _ => True) s.draw.dropTree.noNodes
          ((get 514 s.draw.dropTree.noNodes).andThen fun n t => .ok () (t.setRoot n).treeMade) :=
        (get_within keepsWeights_get trivial trivial trivial trivial _ _).andThen keepsWeights_get.trans
          fun _ _ _ _ hu => hu
      rcases hget.next h with ht | ⟨e, sub, info, u, _, hu, rfl⟩
      · exact ht hs
      · exact raiseError_weightsFit (hu hs) e sub info
  · obtain ⟨u, hu, ht⟩ := exec_cases h
    have w := hu.writtenBy
    have hfit : WeightsFit u := hs.congr (w.tree hi).1 w.outside.1
    rcases ht with rfl | ⟨e, sub, info, rfl⟩
    · exact hfit
    · exact raiseError_weightsFit hfit e sub info

/-- Settles O20: a command keeps the width, and every other step writes no record or makes them free. -/
theorem weightsNeverOverflow : Obligations.WeightsNeverOverflow := by
  unfold Obligations.WeightsNeverOverflow
  intro s t hr hs h
  replace hs : WeightsFit s := hs
  suffices WeightsFit t from this
  cases stepTo_of_step h with
  | environment e => rw [e]; exact hs
  | din v rest => exact hs
  | reset rest => exact resetEngine_weightsFit _
  | command rest hu =>
    exact (exec_weightsFit (s := { s with host := rest, busy := true }) hr.counts hs hu :)
  | refused sub c rest => exact raiseError_weightsFit (s := { s with host := rest, busy := true }) hs _ _ _

end Sys2Proof.Machine
end

section
/-! The code table that `GEN` makes (O43): its precondition and its meaning on a valid tree
(42_code_table.md R192 to R194). -/

namespace Sys2Proof.Machine

/-- Settles O43: without a valid tree the precondition of `GEN` is not met; with one `execGen_ok` gives the
table and the frame. -/
theorem genDerivesCodes : Obligations.GenDerivesCodes := by
  unfold Obligations.GenDerivesCodes
  refine ⟨by decide, fun s => ⟨fun htv => ?_, fun T htv hT hl => execGen_ok htv hT hl⟩⟩
  obtain ⟨_, hnoTree, _⟩ := preconditionsRaise s
  exact (hnoTree htv).1

end Sys2Proof.Machine
end

section
/-! The tree serializer and deserializer (43_tree_codec.md R200 to R209): O45 to O49. -/

namespace Sys2Proof.Machine

/-! ### What `DES` makes of its `Get` -/

theorem GetOnly.tv {s t : State} (h : GetOnly s t) : t.tv = s.tv := by rw [h]

/-- `DES` sets `root` to what `Get` returned, and `TV` (43_tree_codec.md R204). -/
theorem execDes_of_get_ok {s u : State} {n : Index} (h : get 514 s.draw.dropTree.noNodes = .ok n u) :
    exec .des s = .next (u.setRoot n).treeMade := by
  rw [exec, execDes, h]; rfl

/-- An error inside `Get` ends `DES` (43_tree_codec.md R206). -/
theorem execDes_of_get_raised {s u : State} (h : get 514 s.draw.dropTree.noNodes = .raised u) :
    exec .des s = .next u := by
  rw [exec, execDes, h]; rfl

/-- A `DES` that ends without an error comes from a `Get` that returned. -/
theorem get_ok_of_execDes {s t : State} (h : exec .des s = .next t) (he : t.err = 0) :
    ∃ n u, get 514 s.draw.dropTree.noNodes = .ok n u ∧ t = (u.setRoot n).treeMade := by
  have hwithin := get_within (A := fun _ _ => True) getOnly_allows trivial trivial trivial trivial 514
    s.draw.dropTree.noNodes
  cases hg : get 514 s.draw.dropTree.noNodes with
  | ok n u =>
    cases h.symm.trans (execDes_of_get_ok hg)
    exact ⟨n, u, rfl, rfl⟩
  | raised u =>
    rw [hg] at hwithin
    obtain ⟨e, sub, info, v, _, _, rfl⟩ := hwithin
    cases h.symm.trans (execDes_of_get_raised hg)
    rw [raiseError_err] at he
    exact absurd he e.code_ne
  | stop f => rw [exec, execDes, hg] at h; cases h

/-- A tree stored in preorder from index 0, with no further record, is the tree of the state. -/
theorem hasTree_of_preorder {t : State} {T : CodeTree} (hH : Holds t.node T t.root (List.range T.size))
    (hnn : t.nn.toNat = T.size) : t.HasTree T :=
  ⟨_, hH, by rw [hnn]⟩

/-- Where no record was allocated before, preorder from `nn` on is preorder from 0. -/
theorem preorder_from_zero {s u : State} {T : CodeTree} (h0 : s.nn = 0)
    (hH : Holds u.node T s.nn (List.range' s.nn.toNat T.size)) (hnn : u.nn.toNat = s.nn.toNat + T.size) :
    Holds u.node T 0 (List.range T.size) ∧ u.nn.toNat = T.size := by
  rw [h0] at hH hnn
  rw [List.range_eq_range']
  exact ⟨hH, hnn.trans (Nat.zero_add _)⟩

/-! ### The records above the tree -/

/-- Everything a `Get` that returned can have done: it has read a tag, and behind it the field of a Leaf or
two subtrees (43_tree_codec.md R203). -/
theorem get_ok_cases {fuel : Nat} {s u : State} {n : Index} (h : get (fuel + 1) s = .ok n u) :
    s.nn ≠ 513 ∧ ∃ b v, readBit s = .ok (some b) v ∧
      (b = true ∧ getLeaf v.nn v.alloc = .ok n u ∨
        b = false ∧ n = v.nn ∧ ∃ l w r y, get fuel v.alloc = .ok l w ∧ get fuel w = .ok r y ∧
          u = setInternal v.nn l r y) := by
  rw [get] at h
  split at h
  · cases h
  next hne =>
  obtain ⟨b, v, hb, h⟩ := Res.andThen_ok h
  match b with
  | none => cases h
  | some true => exact ⟨hne, _, v, hb, .inl ⟨rfl, h⟩⟩
  | some false =>
    obtain ⟨l, w, hl, h⟩ := Res.andThen_ok h
    obtain ⟨r, y, hr, h⟩ := Res.andThen_ok h
    cases h
    exact ⟨hne, _, v, hb, .inr ⟨rfl, rfl, l, w, r, y, hl, hr, rfl⟩⟩

/-- The Leaf branch writes one record and allocates none. -/
theorem getLeaf_ok {n m : Index} {s u : State} (h8 : s.upCnt.toNat ≤ 8) (h : getLeaf n s = .ok m u) :
    ∃ w x, UnpackerOnly s w ∧ u = w.setNode n x := by
  obtain ⟨v, w, hv, h⟩ := Res.andThen_ok h
  cases v with
  | none => cases h
  | some v =>
    obtain ⟨_, _, _, _, hw, _⟩ := readMore_ok_some h8 hv
    simp only at h
    split at h <;> cases h
    exact ⟨w, _, hw, rfl⟩

theorem setNode_getElem?_of_ne {s : State} {n : Index} {r : NodeRec} {k : Nat} (h : n.toNat ≠ k) :
    (s.setNode n r).node[k]? = s.node[k]? := by
  rw [setNode_getElem?, if_neg h]

/-- `Get` writes no record that it has not allocated (43_tree_codec.md R205). -/
theorem get_keeps_above {n : Index} {s u : State} (fuel : Nat) (hn : s.nn.toNat ≤ 513)
    (h8 : s.upCnt.toNat ≤ 8) (h : get fuel s = .ok n u) :
    ∀ k, u.nn.toNat ≤ k → u.node[k]? = s.node[k]? := by
  induction fuel generalizing n s u with
  | zero => cases h
  | succ fuel ih =>
    intro k hk
    obtain ⟨hne, b, v, hb, hcases⟩ := get_ok_cases h
    obtain ⟨_, hs, hc, _⟩ := readBit_ok_some h8 hb
    have hlt : s.nn.toNat < 513 := lt_of_le_of_ne hn fun e => hne (BitVec.eq_of_toNat_eq e)
    have hv : v.alloc.nn.toNat = v.nn.toNat + 1 := by rw [alloc_nn, hs.nn, nn_succ hlt]
    have hvs : v.nn.toNat = s.nn.toNat := by rw [hs.nn]
    have hcv : v.alloc.upCnt.toNat ≤ 8 := by rw [alloc_upCnt]; omega
    rcases hcases with ⟨_, hleaf⟩ | ⟨_, _, l, w, r, y, hl, hr, rfl⟩
    · obtain ⟨w, x, hw, rfl⟩ := getLeaf_ok hcv hleaf
      rw [setNode_nn, hw.nn] at hk
      rw [setNode_getElem?_of_ne (by omega), hw.node, alloc_node, hs.node]
    · obtain ⟨_, _, _, _, _, hnw, hnw', hcw, _⟩ := get_inv fuel (by omega) hcv hl
      obtain ⟨_, _, _, _, _, hny, _⟩ := get_inv fuel hnw' hcw hr
      rw [setInternal, setNode_nn] at hk
      rw [setInternal, setNode_getElem?_of_ne (by omega), ih hnw' hcw hr k hk,
        ih (by omega) hcv hl k (by omega), alloc_node, hs.node]

/-! ### The obligations -/

/-- Settles O45: `Put` writes the bits of the stored tree, and the packer appends them. -/
theorem serWritesTree : Obligations.SerWritesTree := by
  unfold Obligations.SerWritesTree
  intro s T htv hT hl ho
  obtain ⟨t, ht⟩ := writeSeq_progress (q := T.serial) ho
  obtain ⟨hw, honly, _⟩ := writeSeq_ok ht
  have hlen := T.serial_length
  exact ⟨t, by rw [execSer_eq htv hT hl, ht]; rfl, hw, by omega, honly⟩

/-- Settles O46: `Get`, from no record allocated, stores the tree whose bits stand next. -/
theorem desStoresTree : Obligations.DesStoresTree := by
  unfold Obligations.DesStoresTree
  intro s T r hl h8 ho hu
  have hdepth := T.depth_lt_leaves
  have hsize := T.size_eq
  obtain ⟨hleaves, hsym⟩ := hl
  obtain ⟨u, hget, hH, hnn, hur, _, _, _, honly, _⟩ := get_ok (s := s.draw.dropTree.noNodes) 514
    (by omega) hsym (by simp; omega) h8 ho hu
  have habove := get_keeps_above (s := s.draw.dropTree.noNodes) 514 (by simp) h8 hget
  obtain ⟨hH, hnn⟩ := preorder_from_zero (noNodes_nn _) hH hnn
  refine ⟨_, execDes_of_get_ok hget, hasTree_of_preorder hH hnn, hH, rfl, hnn, hur,
    fun k hk => habove k (by rw [hnn]; exact hk), ?_⟩
  rw [honly]
  rfl

/-- Settles O47: the bits that a returned `Get` has read are those of the tree that it has stored. -/
theorem desReadsOneTree : Obligations.DesReadsOneTree := by
  unfold Obligations.DesReadsOneTree
  intro s t h8 _ h he
  obtain ⟨n, u, hget, rfl⟩ := get_ok_of_execDes h he
  obtain ⟨T, rfl, hsym, hu, hH, hnn, hle, _⟩ := get_inv (s := s.draw.dropTree.noNodes) 514 (by simp) h8 hget
  obtain ⟨hH, hnn⟩ := preorder_from_zero (noNodes_nn _) hH hnn
  have hsize := T.size_eq
  have hpos := T.leaves_pos
  have hlen := T.serial_length
  exact ⟨rfl, T, ⟨by omega, hsym⟩, hasTree_of_preorder hH hnn, hu, by omega, by omega⟩

/-- Settles O48: `SER` writes the tree's bits, `DES` reads one tree's bits, and the codes of `GEN` are those
of the tree that the state holds. -/
theorem treeRoundTrip : Obligations.TreeRoundTrip := by
  unfold Obligations.TreeRoundTrip
  refine ⟨fun s T htv hT hl ho => ?_, fun s t h8 hs h ht ho => ?_⟩
  · obtain ⟨t, hser, hw, _⟩ := serWritesTree s T htv hT hl ho
    obtain ⟨w, hgen, hcodes, _⟩ := execGen_ok htv hT hl
    refine ⟨t, T.serial, w, hser, hw, hgen, hcodes, fun s' r h8 ho' hu => ?_⟩
    obtain ⟨t', hdes, hT', _, _, _, hr, _, hframe⟩ := desStoresTree s' T r hl h8 ho' hu
    obtain ⟨u, hgen', hcodes', _⟩ := execGen_ok (by rw [hframe]) hT' hl
    exact ⟨t', u, hdes, hT', hr, hgen', hcodes'⟩
  · obtain ⟨htv, T, hl, hT, hu, _⟩ := desReadsOneTree s t h8 hs h ht
    obtain ⟨u, hser, hw, _⟩ := serWritesTree t T htv hT hl ho
    exact ⟨T.serial, u, hu, hser, hw⟩

/-- On records that leave the tree open, `DES` comes to a call of `Get` behind them, with `TV` clear, and
takes the error of that call (43_tree_codec.md R203, R206). -/
theorem execDes_open {s : State} {rs : List (Option Symbol)} {r : List Bool} (h8 : s.upCnt.toNat ≤ 8)
    (ho : NoFail s.upi.oracle) (hr : Unfinished rs) (hl : rs.length ≤ 513)
    (hu : unread s = rs.flatMap recordBits ++ r) :
    ∃ u fuel, unread u = r ∧ u.nn.toNat = rs.length ∧ 1 ≤ fuel ∧ u.upCnt.toNat ≤ 8 ∧
      NoFail u.upi.oracle ∧ u.tv = false ∧ ∀ t, get fuel u = .raised t → exec .des s = .next t := by
  obtain ⟨u, fuel, hur, hnn, hfuel, hc, hou, honly, hraise⟩ := get_open (s := s.draw.dropTree.noNodes)
    (fuel := 514) _ (Nat.le_refl _) hr (by simpa using hl) (by simp) h8 ho hu
  have hnn : u.nn.toNat = rs.length := by simpa using hnn
  exact ⟨u, fuel, hur, hnn, by omega, hc, hou, honly.tv, fun t ht => execDes_of_get_raised (hraise t ht)⟩

/-- Bits that end where a record is due or inside its field (43_tree_codec.md R206). -/
theorem execDes_truncated {s : State} {rs : List (Option Symbol)} {p : List Bool} (h8 : s.upCnt.toNat ≤ 8)
    (ho : NoFail s.upi.oracle) (hr : Unfinished rs) (hl : rs.length < 513)
    (hp : p = [] ∨ ∃ q, p = true :: q ∧ q.length < 9) (hu : unread s = rs.flatMap recordBits ++ p) :
    ∃ u, exec .des s = .next (raiseError .corruptStream 1 0 u) ∧ u.tv = false ∧ unread u = [] := by
  obtain ⟨v, fuel, hv, hnn, hfuel, hc, hov, htv, hraise⟩ := execDes_open h8 ho hr hl.le hu
  obtain ⟨u, hget, hur, honly⟩ := get_truncated (by omega) hfuel hc hov hp hv
  exact ⟨u, hraise _ hget, honly.tv.trans htv, hur⟩

/-- Settles O49: what a call of `Get` raises behind records that leave the tree open; bits that end inside a
legal tree are such records and a part of the next. -/
theorem desRejects : Obligations.DesRejects := by
  unfold Obligations.DesRejects
  refine fun s h8 ho => ⟨fun T q hT hq h => ?_, fun rs p hr hl hp hu => execDes_truncated h8 ho hr hl hp hu,
    fun rs v r hr hl hv hu => ?_, fun rs r hr hl hu => ?_⟩
  · obtain ⟨hleaves, hsym⟩ := hT
    have hsize := T.size_eq
    obtain ⟨rs, p, hr, hlt, hp, hu⟩ := serial_cut hsym hq h
    exact execDes_truncated h8 ho hr (by omega) hp hu
  · obtain ⟨w, fuel, hw, hnn, hfuel, hc, how, htv, hraise⟩ := execDes_open h8 ho hr hl.le hu
    obtain ⟨u, hget, hur, honly⟩ := get_badLeaf (by omega) hfuel hv hc how hw
    exact ⟨u, hraise _ hget, honly.tv.trans htv, hur⟩
  · obtain ⟨u, fuel, hur, hnn, hfuel, _, _, htv, hraise⟩ := execDes_open h8 ho hr hl.le hu
    exact ⟨u, hraise _ (get_full (by omega) hfuel), htv, hur⟩

end Sys2Proof.Machine
end

section
/-! The stream encoder (O50, O51): the payload that `ENC` writes, and the first symbol without a code
(44_stream_encoder.md R220 to R224). -/

namespace Sys2Proof.Machine

/-- With a code table `ENC` is its loop and then the sentinel's emission (44_stream_encoder.md R221). -/
theorem execEnc_eq {s : State} (hcv : s.cv = true) :
    exec .enc s = ((encLoop (s.src.left + 1) s).andThen fun _ t => emit eofIdx t).outcome := by
  rw [exec, execEnc, if_pos hcv]

/-! ## What a completed `ENC` has written (44_stream_encoder.md R223) -/

/-- An operation that ends with `ERR` clear has gone on to its end: every error entry sets `ERR`. -/
theorem Within.ok_of_next {R : State → State → Prop} {A : ErrClass → BitVec 3 → Prop} {α : Type}
    {s t : State} {r : Res α} (h : Within R A s r) (hr : r.outcome = .next t) (he : t.err = 0) :
    ∃ a, r = .ok a t := by
  cases r with
  | ok a u => cases hr; exact ⟨a, rfl⟩
  | raised u =>
    cases hr
    obtain ⟨e, sub, info, v, _, _, rfl⟩ := h
    rw [raiseError_err] at he
    exact absurd he e.code_ne
  | stop f => cases hr

/-- An `ENC` that ends with `ERR` clear had a code table, ended its loop and wrote the sentinel. -/
theorem encLoop_ok_of_execEnc {s t : State} (h : exec .enc s = .next t) (he : t.err = 0) :
    ∃ u, encLoop (s.src.left + 1) s = .ok () u ∧ emit eofIdx u = .ok () t := by
  by_cases hcv : s.cv = true
  · have hwithin : Within EncFrame (fun _ _ => True) s
        ((encLoop (s.src.left + 1) s).andThen fun _ u => emit eofIdx u) :=
      (encLoop_within encFrame_allows (fun _ _ => ⟨rfl, List.prefix_rfl⟩) trivial trivial trivial _ s).andThen
        encFrame_allows.trans fun _ u _ _ => emit_within encFrame_allows trivial trivial eofIdx u
    obtain ⟨_, hok⟩ := hwithin.ok_of_next ((execEnc_eq hcv).symm.trans h) he
    obtain ⟨_, u, hu, ht⟩ := Res.andThen_ok hok
    exact ⟨u, hu, ht⟩
  · rw [exec, execEnc, if_neg hcv] at h
    cases h
    rw [usageError, raiseError_err] at he
    exact absurd he (ErrClass.code_ne _)

theorem emit_ok {i : SymIdx} {s t : State} (h : emit i s = .ok () t) :
    written t = written s ++ (s.codeAt i).code ∧ PackerOnly s t := by
  by_cases hc : (s.codeAt i).code = []
  · rw [emit_missing hc] at h; cases h
  · rw [emit_eq hc] at h
    obtain ⟨hw, hp, _⟩ := writeSeq_ok h
    exact ⟨hw, hp⟩

/-- A loop of `ENC` that ended has written the code of every byte left on `SRC`, and the code
table is the same (44_stream_encoder.md R221). -/
theorem encLoop_ok_written {s t : State} (fuel : Nat) (h : encLoop fuel s = .ok () t) :
    written t = written s ++ s.src.rest.flatMap (fun b => (s.codeAt (byteIdx b)).code) ∧
      t.codeAt = s.codeAt := by
  induction fuel generalizing s with
  | zero => cases h
  | succ fuel ih =>
    rw [encLoop] at h
    rcases byteIn_cases s.src with ⟨_, e⟩ | ⟨_, hr, e⟩ | ⟨_, v, r, hr, e, hrest⟩ <;>
      simp only [byteInSrc, e] at h
    · cases h
    · cases h
      exact ⟨by rw [hr, List.flatMap_nil, List.append_nil]; rfl, rfl⟩
    · obtain ⟨_, u, hu, hk⟩ := Res.andThen_ok h
      obtain ⟨hwu, hpu⟩ := emit_ok hu
      obtain ⟨hwt, hct⟩ := ih hk
      have hcu : u.codeAt = s.codeAt := by rw [hpu]; rfl
      have hru : u.src.rest = r := by rw [hpu]; exact hrest
      refine ⟨?_, hct.trans hcu⟩
      rw [hwt, hwu, hru, hcu, hr, List.flatMap_cons, ← List.append_assoc]
      rfl

/-- Settles O50: `enc_ok` gives the run of `ENC`, and the two pieces of a completed `ENC` its payload. -/
theorem encWritesPayload : Obligations.EncWritesPayload := by
  unfold Obligations.EncWritesPayload
  refine ⟨fun s bytes hcv hr ho hp hc heof => ?_, fun s t _ h he => ?_⟩
  · obtain ⟨t, ht, hw, _, hframe⟩ := enc_ok hr ho hp hc heof
    refine ⟨t, by rw [execEnc_eq hcv, ht, Res.outcome], ?_, hframe⟩
    rw [hw, payload, List.append_assoc]
  · obtain ⟨u, hloop, hemit⟩ := encLoop_ok_of_execEnc h he
    obtain ⟨hwu, hcu⟩ := encLoop_ok_written _ hloop
    obtain ⟨hwt, _⟩ := emit_ok hemit
    rw [hwt, hwu, hcu]

/-! ## The first symbol without a code (44_stream_encoder.md R220, R224) -/

/-- The information word for a byte without a code is the byte (60_exceptions.md R285). -/
theorem zext32_idxSymbol_byteIdx (v : Byte) : zext32 (idxSymbol (byteIdx v)) = v.setWidth 32 := by
  apply BitVec.eq_of_toNat_eq
  have hv := v.isLt
  rw [zext32, BitVec.toNat_setWidth, BitVec.toNat_setWidth, idxSymbol_toNat, byteIdx]

/-- The loop of `ENC` at a byte without a code, behind bytes that have one. -/
theorem encLoop_missing {p r : List Byte} {v : Byte} {s : State} (fuel : Nat)
    (hr : s.src.rest = p ++ v :: r) (hf : p.length < fuel) (ho : NoFail s.src.oracle)
    (hp : NoFail s.pko.oracle) (hc : ∀ b ∈ p, (s.codeAt (byteIdx b)).code ≠ [])
    (hv : (s.codeAt (byteIdx v)).code = []) :
    ∃ u, encLoop fuel s = .raised (raiseError .internalInvariant 1 (v.setWidth 32) u) ∧
      written u = written s ++ p.flatMap (fun b => (s.codeAt (byteIdx b)).code) ∧
      u.src.pos = s.src.pos + (p.length + 1) := by
  obtain ⟨k, rfl⟩ : ∃ k, fuel = k + 1 + p.length := ⟨fuel - 1 - p.length, by omega⟩
  obtain ⟨t, e, hw, hrt, _, hst⟩ := encLoop_bytes (k + 1) hr (fun b hb => ho b (List.mem_of_mem_take hb)) hp hc
  have hot : t.src.oracle = s.src.oracle.drop p.length := by rw [hst]
  have hbyte : byteInSrc t = (.byte v, srcRead 1 1 t) := by
    rw [(byteInSrc_cons (by rw [hot]; exact noFail_head (noFail_drop _ ho)) hrt).1, ← List.drop_one]; rfl
  have hvt : ((srcRead 1 1 t).codeAt (byteIdx v)).code = [] := by rw [hst]; exact hv
  refine ⟨srcRead 1 1 t, ?_, hw, by rw [hst]; rfl⟩
  rw [e, encLoop, hbyte]
  simp only [emit_missing hvt, Res.raised_andThen, zext32_idxSymbol_byteIdx]

/-- Settles O51: at a byte the loop raises, and at the sentinel the emission behind the loop. -/
theorem encMissingCodeRaises : Obligations.EncMissingCodeRaises := by
  unfold Obligations.EncMissingCodeRaises
  refine fun s p hcv ho hp hc => ⟨fun v r hr hv => ?_, fun hr heof => ?_⟩
  · have hlen : p.length ≤ s.src.left := by
      rw [← InPort.rest_length, hr, List.length_append]; omega
    obtain ⟨u, e, hw, hpos⟩ := encLoop_missing (s.src.left + 1) hr (by omega) ho hp hc hv
    exact ⟨u, by rw [execEnc_eq hcv, e]; rfl, hw, hpos⟩
  · have hlen : p.length = s.src.left := by rw [← InPort.rest_length, hr]
    obtain ⟨u, e, hw, _, hu⟩ := encLoop_ok (s.src.left + 1) hr (by omega) ho hp hc
    have heofu : (u.codeAt eofIdx).code = [] := by rw [hu]; exact heof
    exact ⟨u, by rw [execEnc_eq hcv, e, Res.ok_andThen, emit_missing heofu]; rfl, hw, by rw [hu]⟩

end Sys2Proof.Machine
end

section
/-! The stream decoder (O52, O53, O54): a whole payload, bits that end before the sentinel, and a tree that is
a single Leaf (45_stream_decoder.md R230 to R237). -/

namespace Sys2Proof.Machine

/-- With a tree `DEC` is its loop from the root, with a turn for each bit and one more
(45_stream_decoder.md R231, R237). -/
theorem execDec_eq {s : State} (htv : s.tv = true) (h8 : s.upCnt.toNat ≤ 8) :
    exec .dec s = (decLoop ((unread s).length + 1) (s.setCur s.root)).outcome := by
  rw [exec, execDec, if_pos htv, unread_length h8]

/-! ## A whole payload (45_stream_decoder.md R236) -/

/-- Discarding the buffered rest of a byte drops as many bits as stand before the next byte boundary. -/
theorem streamBits_rest_eq_drop_unread {s : State} (h7 : s.upCnt.toNat ≤ 7) :
    streamBits s.upi.rest = (unread s).drop ((unread s).length % 8) := by
  have hbuf : (buffered s).length = s.upCnt.toNat := buffered_length (by omega)
  have hmod : (unread s).length % 8 = (buffered s).length := by
    rw [unread, List.length_append, streamBits_length]; omega
  rw [hmod, unread, List.drop_left]

/-- `DEC` on a payload of the valid tree: `dec_ok` from the root, its last discard dropping the rest of the
current byte (45_stream_decoder.md R236). -/
theorem execDec_payload {s : State} {T : CodeTree} {bytes : List Byte} {q : List Bool} (htv : s.tv = true)
    (hT : s.HasTree T) (h8 : s.upCnt.toNat ≤ 8) (ho : NoFail s.upi.oracle) (hd : NoFail s.dst.oracle)
    (hx : ∀ b ∈ bytes, T.codeOf (idxSymbol (byteIdx b)) ≠ []) (heof : T.codeOf eofSymbol ≠ [])
    (hu : unread s = T.payload bytes ++ q) :
    ∃ t, exec .dec s = .next t ∧
      t.dst = { data := s.dst.data ++ bytes, oracle := s.dst.oracle.drop bytes.length } ∧
      t.upCnt = 0 ∧ unread t = q.drop (q.length % 8) ∧
      t = { s with cur := t.cur, upBuf := 0, upCnt := 0, upi := t.upi, dst := t.dst } := by
  obtain ⟨ns, hH, _⟩ := hT
  obtain ⟨t, ht, _, hbuf, hcnt, _, _, hst, hdst, v, huv, h7, hupi⟩ :=
    dec_ok (s := s.setCur s.root) hH hx heof rfl h8 ho hd hu
  have hframe : t = { s with
      cur := t.cur, upBuf := t.upBuf, upCnt := t.upCnt, upi := t.upi, dst := t.dst } := hst
  refine ⟨t, ?_, hdst, hcnt, ?_, by rwa [hbuf, hcnt] at hframe⟩
  · rw [execDec_eq htv h8, unread_length h8]
    exact congrArg Res.outcome ht
  · rw [unread_of_empty hcnt, hupi, streamBits_rest_eq_drop_unread h7, huv]

/-- Settles O52, by the run of `DEC` on a payload. -/
theorem decWritesBytes : Obligations.DecWritesBytes := by
  unfold Obligations.DecWritesBytes
  intro s T bytes r htv hT h8 ho hd hx heof hu
  obtain ⟨t, ht, hdst, hcnt, hut, hframe⟩ := execDec_payload htv hT h8 ho hd hx heof hu
  exact ⟨t, ht, by rw [hdst], hcnt, hut, hframe⟩

/-! ## Bits that end before the sentinel (45_stream_decoder.md R234) -/

/-- From the root, bits that end there or at an Internal node below it raise with the node they lead to. -/
theorem decLoop_starves {T : CodeTree} {ns : List Nat} {s : State} {p : List Bool}
    (hH : Holds s.node T s.root ns) (hp : p = [] ∨ T.Inside p) (hc : s.cur = s.root)
    (h8 : s.upCnt.toNat ≤ 8) (ho : NoFail s.upi.oracle) (hu : unread s = p) :
    ∃ u, decLoop (p.length + 1) s =
        .raised (raiseError .corruptStream 4 (zext32 (follow s.node s.root p)) u) ∧
      u.cur = follow s.node s.root p ∧ unread u = [] ∧ CursorOnly s u := by
  rcases hp with rfl | hp
  · refine ⟨{ s with upi := { s.upi with oracle := s.upi.oracle.tail } }, ?_, hc, hu, rfl⟩
    rw [starve_root _ h8 ho hu, hc, follow]
  · cases T with
    | leaf y =>
      obtain ⟨x, q, hq, hx⟩ := hp
      simp [CodeTree.paths, hq] at hx
    | node l r =>
      obtain ⟨top, _, _, htop, hl, _⟩ := id hH
      obtain ⟨u, e, hcu, huu, _, _, _, hsu⟩ := starve 0 htop hl hH hp hc h8 ho hu
      exact ⟨u, by rw [← e, Nat.zero_add, Nat.add_comm], hcu, huu, hsu⟩

/-- Settles O53: the codes of the bytes lead back to the root, from where the bits end. -/
theorem decExhaustionRaises : Obligations.DecExhaustionRaises := by
  unfold Obligations.DecExhaustionRaises
  intro s T bytes p htv hT h8 ho hd hx hp hu
  obtain ⟨ns, hH, _⟩ := hT
  obtain ⟨v, hv, hcv, huv, h8v, hov, _, hsv, hdv⟩ :=
    decBytes (s := s.setCur s.root) (p.length + 1) hH hx rfl h8 ho hd hu
  have hnode : v.node = s.node := hsv.node
  have hroot : v.root = s.root := hsv.root
  have hHv : Holds v.node T v.root ns := by rw [hnode, hroot]; exact hH
  obtain ⟨u, e, hcu, huu, hsu⟩ := decLoop_starves hHv hp (hcv.trans hroot.symm) h8v hov huv
  have hlen : (unread s).length + 1 = p.length + 1 + T.turns bytes := by
    rw [hu, List.length_append, CodeTree.turns]; omega
  rw [hnode, hroot] at e hcu
  refine ⟨u, ?_, by rw [hsu.dst, hdv]; rfl, huu, hcu⟩
  rw [execDec_eq htv h8, hlen, hv, e]; rfl

/-! ## A single Leaf (45_stream_decoder.md R232) -/

/-- At a single Leaf `k` bits 0 take `DEC` back to the root, the symbol's byte written `k` times, with a turn
for each of the other bits and one more. -/
theorem execDec_leaf_zeros {s : State} {x : Symbol} {k : Nat} {q : List Bool} (htv : s.tv = true)
    (hT : s.HasTree (.leaf x)) (h8 : s.upCnt.toNat ≤ 8) (ho : NoFail s.upi.oracle)
    (hd : NoFail s.dst.oracle) (hx : k = 0 ∨ x ≠ eofSymbol)
    (hu : unread s = List.replicate k false ++ q) :
    ∃ v top, exec .dec s = (decLoop (q.length + 1) v).outcome ∧
      v.nodeAt? v.root = some top ∧ top.leaf = true ∧ v.cur = s.root ∧ unread v = q ∧
      v.upCnt.toNat ≤ 8 ∧ NoFail v.upi.oracle ∧
      v.dst = { data := s.dst.data ++ List.replicate k (symByte x), oracle := s.dst.oracle.drop k } := by
  obtain ⟨_, ⟨_, top, htop, hl, rfl⟩, _⟩ := hT
  obtain ⟨v, e, huv, hcv, h8v, hov, hsv, hdv⟩ :=
    leafRoot_zeros (s := s.setCur s.root) (q.length + 1) k htop hl hx rfl h8 ho hd hu
  have hroot : v.root = s.root := hsv.root
  have htopv : v.nodeAt? v.root = some top := by
    rw [State.nodeAt?, hsv.node, hroot]; exact htop
  have hlen : (unread s).length + 1 = q.length + 1 + k := by
    rw [hu, List.length_append, List.length_replicate]; omega
  exact ⟨v, top, by rw [execDec_eq htv h8, hlen, e], htopv, hl, hcv.trans hroot, huv, h8v, hov, hdv⟩

/-- Settles O54: behind the bits 0 stands a bit 1 or the end of the bits; at the sentinel bit 0 is a whole
payload. -/
theorem decAtASingleLeaf : Obligations.DecAtASingleLeaf := by
  unfold Obligations.DecAtASingleLeaf
  intro s x htv hT h8 ho hd
  refine ⟨fun k q hx hu => ?_, fun k hx hu => ?_, fun q hx hu => ?_⟩
  · obtain ⟨v, top, e, htop, hl, _, huv, h8v, hov, hdv⟩ := execDec_leaf_zeros htv hT h8 ho hd hx hu
    obtain ⟨u, hraise, huu, hsu⟩ := leafRoot_one (true :: q).length htop hl h8v hov huv
    exact ⟨u, by rw [e, hraise]; rfl, huu, hsu.cursorOnly.dst.trans hdv⟩
  · obtain ⟨v, _, e, _, _, hcv, huv, h8v, hov, hdv⟩ :=
      execDec_leaf_zeros (q := []) htv hT h8 ho hd hx (by rw [hu, List.append_nil])
    exact ⟨{ v with upi := { v.upi with oracle := v.upi.oracle.tail } },
      by rw [e, List.length_nil, starve_root 0 h8v hov huv, hcv]; rfl, huv, hdv⟩
  · subst hx
    obtain ⟨t, ht, hdst, hcnt, _, hframe⟩ :=
      execDec_payload (bytes := []) htv hT h8 ho hd (by simp) (by decide) hu
    refine ⟨t, ht, by rw [hdst, List.append_nil]; rfl, by rw [hframe], hcnt⟩

end Sys2Proof.Machine
end

section
/-! The container commands and the files (O56, O57, O58, O60): `CLOSE`, `RMAGIC`, and `DECODE` command by
command (46_container.md R247 to R253). -/

namespace Sys2Proof.Machine

/-! ## The error entry (60_exceptions.md R288) -/

/-- With no bit pending the error entry writes nothing to `PKO`. -/
theorem raiseError_of_empty {s : State} (h : s.pkCnt = 0) (e : ErrClass) (sub : BitVec 3) (info : BitVec 32) :
    raiseError e sub info s = { s with err := e.code, esub := sub, einfo := info, busy := false } := by
  rcases raiseError_cases e sub info s with ⟨_, k⟩ | ⟨hne, _⟩
  · exact k
  · exact absurd h hne

@[simp] theorem raiseError_esub (e : ErrClass) (sub : BitVec 3) (info : BitVec 32) (s : State) :
    (raiseError e sub info s).esub = sub := by rw [(raiseError_eq e sub info s).1]

/-! ## `CLOSE` (46_container.md R249) -/

/-- Settles O57: `CLOSE` is `Flush`, whose three cases are no bit pending, the padded byte emitted, and the
access that fails. -/
theorem closePadsAndEmits : Obligations.ClosePadsAndEmits := by
  unfold Obligations.ClosePadsAndEmits
  refine ⟨by decide, fun s => ?_⟩
  have hexec : exec .close s = (flush s).outcome := rfl
  rw [hexec, ← headD_eq_false_iff, ← headD_eq_true_iff]
  rcases flush_cases s with ⟨h0, e⟩ | ⟨hne, ho, e⟩ | ⟨hne, ho, e⟩ <;> rw [e]
  · exact ⟨fun _ => rfl, fun hne => absurd h0 hne, fun hne => absurd h0 hne⟩
  · exact ⟨fun h0 => absurd h0 hne, fun _ _ => ⟨paddedByte s, bitsOf_paddedByte s, rfl⟩,
      fun _ hfail => absurd (ho.symm.trans hfail) Bool.false_ne_true⟩
  · exact ⟨fun h0 => absurd h0 hne, fun _ hok => absurd (hok.symm.trans ho) Bool.false_ne_true,
      fun _ _ => by rw [raiseError_of_empty rfl]; rfl⟩

/-! ## `RMAGIC` (46_container.md R247) -/

theorem UnpackerOnly.cfg {s t : State} (h : UnpackerOnly s t) : t.cfg = s.cfg := by rw [h]
theorem UnpackerOnly.dst {s t : State} (h : UnpackerOnly s t) : t.dst = s.dst := by rw [h]
theorem UnpackerOnly.tv {s t : State} (h : UnpackerOnly s t) : t.tv = s.tv := by rw [h]

theorem execRmagic_eq {s t : State} {m : Option (BitVec 32)} (h : readBits 32 s = .ok m t) :
    exec .rmagic s = (checkMagic m t).outcome := by
  rw [exec, execRmagic, h, Res.ok_andThen]

theorem execRmagic_magic {s t : State} (h : readBits 32 s = .ok (some s.cfg.magic) t)
    (hs : UnpackerOnly s t) : exec .rmagic s = .next t := by
  rw [execRmagic_eq h, checkMagic, if_pos (by rw [hs.cfg]), Res.outcome]

theorem execRmagic_other {s t : State} {m : BitVec 32} (h : readBits 32 s = .ok (some m) t)
    (hs : UnpackerOnly s t) (hm : m ≠ s.cfg.magic) :
    exec .rmagic s = .next (raiseError .format 1 m t) := by
  rw [execRmagic_eq h, checkMagic, if_neg (by rwa [hs.cfg]), Res.outcome]

/-- Settles O56: `ReadBits(32)` gives the magic number, another value, or the end of the bits. -/
theorem rmagicChecksMagic : Obligations.RmagicChecksMagic := by
  unfold Obligations.RmagicChecksMagic
  refine ⟨by decide, fun s h8 ho => ⟨fun r hu => ?_, fun m r hm hu => ?_, fun hlt => ?_⟩⟩
  · obtain ⟨t, e, hr, hs, _⟩ := readBits_some s.cfg.magic h8 ho hu
    exact ⟨t, execRmagic_magic e hs, hr, hs⟩
  · obtain ⟨t, e, hr, hs, _⟩ := readBits_some m h8 ho hu
    exact ⟨t, execRmagic_other e hs hm, hr, hs⟩
  · obtain ⟨t, e, hr, hs, _⟩ := readMore_none 32 (v := (0 : BitVec 32)) h8 ho hlt
    exact ⟨t, execRmagic_eq e, hr, hs⟩

/-! ## `DECODE` up to its first check (46_container.md R252) -/

theorem armUpi_next {s : State} (bytes : List Byte) (pos : Nat) (hb : s.busy = false) :
    hostAct (.armUpi bytes pos) s = .next { s with upi := s.upi.arm bytes pos } := by
  simp only [hostAct, portAction, hb, Bool.false_eq_true, if_false]

/-- The engine after reset, with a file on `UPI`. -/
def decodeStart (file : List Byte) (s : State) : State :=
  { resetEngine s with upi := s.upi.arm file 0 }

theorem hostRun_decodeSequence {s : State} (file : List Byte) (hb : s.busy = false) :
    hostRun (decodeSequence file) s =
      hostRun [issue .rmagic, issue .des, issue .dec] (decodeStart file s) := by
  rw [decodeSequence, hostRun_cons (issue_rst hb), hostRun_cons (armUpi_next file 0 rfl)]
  rfl

theorem unread_decodeStart (file : List Byte) (s : State) :
    unread (decodeStart file s) = streamBits file :=
  unread_of_empty rfl

theorem decodeStart_idle (file : List Byte) (s : State) : Idle (decodeStart file s) := ⟨rfl, rfl⟩

/-! ## A file without the magic number (46_container.md R248) -/

/-- In the error state a command other than `RST` is ignored (60_exceptions.md R290). -/
theorem issue_ignored {i : Instr} {s : State} (he : s.err ≠ 0) (hi : encode i ≠ encode .rst) :
    hostAct (issue i) s = .next s := by
  rw [hostAct_issue]
  rcases writeCmd_cases (encode i) s with ⟨_, e⟩ | ⟨_, _, _, e⟩ | ⟨_, hacc, _⟩
  · exact e
  · exact e
  · exact (hacc.elim he hi).elim

/-- A command that raises leaves the engine as the error entry does (60_exceptions.md R288). -/
theorem issue_raises {i : Instr} {s u : State} {e : ErrClass} {sub : BitVec 3} {info : BitVec 32}
    (hs : Idle s) (hi : i.wellFormed = true)
    (h : exec i { s with busy := true } = .next (raiseError e sub info u)) :
    hostAct (issue i) s = .next (raiseError e sub info u) :=
  (issue_next hs hi h).trans rfl

/-- `RMAGIC` from an empty unpacker, four other bytes standing next, raises with their value behind them. -/
theorem execRmagic_wrongBytes {s : State} (h0 : s.upCnt = 0) (ho : NoFail s.upi.oracle)
    (hlen : 4 ≤ s.upi.rest.length) (hne : streamBits (s.upi.rest.take 4) ≠ bitsOf s.cfg.magic) :
    ∃ m v, exec .rmagic s = .next (raiseError .format 1 m v) ∧ UnpackerOnly s v ∧
      v.upi.data = s.upi.data ∧ v.upi.pos = s.upi.pos + 4 := by
  have hz : s.upCnt.toNat = 0 := by simp [h0]
  have hq : (streamBits (s.upi.rest.take 4)).length = 32 := by
    rw [streamBits_length, List.length_take, Nat.min_eq_left hlen]
  have hu : unread s = streamBits (s.upi.rest.take 4) ++ streamBits (s.upi.rest.drop 4) := by
    rw [← streamBits_append, List.take_append_drop, unread_of_empty h0]
  obtain ⟨m, v, e, hm, _, hs, _, _, hdata⟩ := readMore_some _ (v := (0 : BitVec 32)) (by omega) ho hu
  rw [hq] at e hm
  have hbits : bitsOf m = streamBits (s.upi.rest.take 4) := by
    rw [hm, List.drop_append_of_le_length (by simp)]; simp
  obtain ⟨hpos, h7⟩ := readMore_position e (by omega)
  exact ⟨m, v, execRmagic_other e hs fun h => hne (by rw [← hbits, h]), hs, hdata, by omega⟩

/-- Settles O58: `RMAGIC` raises behind the four bytes, and the error state ignores `DES` and `DEC`. -/
theorem decodeFailsFast : Obligations.DecodeFailsFast := by
  unfold Obligations.DecodeFailsFast
  intro s file hb ho hlen hne
  obtain ⟨m, v, hmagic, hs, hdata, hpos⟩ :=
    execRmagic_wrongBytes (s := { decodeStart file s with busy := true }) rfl ho hlen hne
  have hact := issue_raises (decodeStart_idle file s) rfl hmagic
  have herr : (raiseError .format 1 m v).err ≠ 0 := by rw [raiseError_err]; exact ErrClass.code_ne _
  have hdes := issue_ignored (i := .des) herr (by decide)
  have hdec := issue_ignored (i := .dec) herr (by decide)
  refine ⟨raiseError .format 1 m v, ?_, raiseError_err .., raiseError_esub .., ?_, ?_, ?_, ?_⟩
  · rw [hostRun_decodeSequence file hb, hostRun_cons hact, hostRun_cons hdes, hostRun_cons hdec, hostRun]
  · rw [raiseError_dst, hs.dst]; rfl
  · rw [raiseError_upi, hdata]; rfl
  · rw [raiseError_upi, hpos]; rfl
  · rw [raiseError_tv, hs.tv]; rfl

/-! ## The round trip of a file (46_container.md R253) -/

/-- An idle engine before which stand exactly the bits `q`, no access of `UPI` going to fail. -/
structure Reading (q : List Bool) (s : State) : Prop extends Idle s where
  count : s.upCnt.toNat ≤ 8
  oracle : NoFail s.upi.oracle
  bits : unread s = q

/-- `RMAGIC` reads the magic number. -/
theorem issue_rmagic {s : State} {q : List Bool} (h : Reading (bitsOf s.cfg.magic ++ q) s) :
    ∃ t, hostAct (issue .rmagic) s = .next t ∧ Reading q t ∧ t.dst = s.dst := by
  obtain ⟨t, e, hr, hs, h8, ho, _⟩ :=
    readBits_some (s := { s with busy := true }) s.cfg.magic h.count h.oracle h.bits
  have herr : t.err = 0 := by rw [hs]; exact h.err
  exact ⟨{ t with busy := false }, issue_next h.toIdle rfl (execRmagic_magic e hs),
    ⟨⟨rfl, herr⟩, h8, ho, hr⟩, hs.dst⟩

/-- What a completed `DES` leaves in the unpacker and of the answers of `UPI`. -/
theorem execDes_unpacker {s t : State} (h8 : s.upCnt.toNat ≤ 8) (h : exec .des s = .next t) (he : t.err = 0) :
    t.upCnt.toNat ≤ 8 ∧ ∃ k, t.upi.oracle = s.upi.oracle.drop k := by
  obtain ⟨n, u, hget, rfl⟩ := get_ok_of_execDes h he
  obtain ⟨_, _, _, _, _, _, _, hc, _, _, _, horacle⟩ :=
    get_inv (s := s.draw.dropTree.noNodes) 514 (by simp) h8 hget
  exact ⟨hc, horacle⟩

/-- `DES` reads the serialized tree. -/
theorem issue_des {s : State} {T : CodeTree} {q : List Bool} (h : Reading (T.serial ++ q) s) (hl : T.Legal) :
    ∃ t, hostAct (issue .des) s = .next t ∧ Reading q t ∧ t.tv = true ∧ t.HasTree T ∧ t.dst = s.dst := by
  obtain ⟨t, e, hT, _, _, _, hr, _, hframe⟩ :=
    desStoresTree { s with busy := true } T q hl h.count h.oracle h.bits
  have herr : t.err = 0 := by rw [hframe]; exact h.err
  obtain ⟨h8, k, horacle⟩ := execDes_unpacker (s := { s with busy := true }) h.count e herr
  have ho : NoFail t.upi.oracle := by rw [horacle]; exact noFail_drop k h.oracle
  exact ⟨{ t with busy := false }, issue_next h.toIdle rfl e, ⟨⟨rfl, herr⟩, h8, ho, hr⟩,
    by rw [hframe], hT, by rw [hframe]⟩

/-- `DEC` reads the payload and writes the file. -/
theorem issue_dec {s : State} {T : CodeTree} {file : List Byte} {q : List Bool}
    (h : Reading (T.payload file ++ q) s) (htv : s.tv = true) (hT : s.HasTree T) (hd : NoFail s.dst.oracle)
    (hfile : ∀ b ∈ file, idxSymbol (byteIdx b) ∈ T.symbols) (heof : 256 ∈ T.symbols) :
    ∃ t, hostAct (issue .dec) s = .next t ∧ t.err = 0 ∧ t.dst.data = s.dst.data ++ file := by
  obtain ⟨t, e, hdst, _, _, hframe⟩ := execDec_payload (s := { s with busy := true }) htv hT h.count h.oracle hd
    (fun b hb => (T.codeOf_ne_nil_iff _).mpr (hfile b hb)) ((T.codeOf_ne_nil_iff _).mpr heof) h.bits
  have herr : t.err = 0 := by rw [hframe]; exact h.err
  exact ⟨{ t with busy := false }, issue_next h.toIdle rfl e, herr, congrArg OutPort.data hdst⟩

/-- `DECODE` of a container, whatever bits follow its payload, writes the file that its payload encodes. -/
theorem decode_container {s : State} {T : CodeTree} {file container : List Byte} {q : List Bool}
    (hb : s.busy = false) (ho : NoFail s.upi.oracle) (hd : NoFail s.dst.oracle) (hl : T.Legal)
    (hfile : ∀ b ∈ file, idxSymbol (byteIdx b) ∈ T.symbols) (heof : 256 ∈ T.symbols)
    (hbits : streamBits container = containerBits s.cfg T file ++ q) :
    ∃ t, hostRun (decodeSequence container) s = .next t ∧ t.err = 0 ∧ t.dst.data = s.dst.data ++ file := by
  have hstart : Reading (bitsOf (decodeStart container s).cfg.magic ++ (T.serial ++ (T.payload file ++ q)))
      (decodeStart container s) := by
    refine ⟨decodeStart_idle container s, Nat.zero_le 8, ho, ?_⟩
    rw [unread_decodeStart, hbits, containerBits, List.append_assoc, List.append_assoc]
    rfl
  obtain ⟨u, hu, hreadu, hdu⟩ := issue_rmagic hstart
  obtain ⟨v, hv, hreadv, htv, hT, hdv⟩ := issue_des hreadu hl
  have hdst : v.dst = s.dst := hdv.trans hdu
  obtain ⟨t, ht, herr, hdt⟩ := issue_dec hreadv htv hT (hdst ▸ hd) hfile heof
  refine ⟨t, ?_, herr, by rw [hdt, hdst]⟩
  rw [hostRun_decodeSequence container hb, hostRun_cons hu, hostRun_cons hv, hostRun_cons ht, hostRun]

/-- The tree of a file's table is legal and has a leaf for every byte of the file and for the sentinel
(41_tree_builder.md R174). -/
theorem exists_fileTree (file : List Byte) :
    ∃ T : CodeTree, (buildTree (tableOf file)).HasTree T ∧ T.Legal ∧
      (∀ b ∈ file, idxSymbol (byteIdx b) ∈ T.symbols) ∧ 256 ∈ T.symbols := by
  obtain ⟨T, _, hT, _⟩ := buildTree_ok (tableOf_nonEmpty file)
  have hperm := buildTree_symbols (tableOf_nonEmpty file) hT
  have hmem {i : SymIdx} (h : i ∈ presentSymbols (tableOf file)) : idxSymbol i ∈ T.symbols :=
    hperm.mem_iff.mpr (List.mem_map_of_mem h)
  exact ⟨T, hT, buildTree_legal (tableOf_nonEmpty file) hT, fun b hb => hmem (byteIdx_mem_tableOf hb),
    hmem (eofIdx_mem_tableOf file)⟩

/-- The tree whose container `encodeMakesContainer` gives is that of the file's table, hence legal: the
engine of the run holds both. -/
theorem legal_of_encoded {s t : State} {file : List Byte} {T : CodeTree} (hb : s.busy = false)
    (hlen : file.length < 2 ^ s.cfg.cntW) (ho : NoFail s.src.oracle) (hp : NoFail s.pko.oracle)
    (ht : hostRun (encodeSequence file) s = .next t) (hT : t.HasTree T) : T.Legal := by
  obtain ⟨U, hU, hl, hfile, heof⟩ := exists_fileTree file
  obtain ⟨u, hu, hC, hou, _, hpko, _⟩ := encode_prepares hb ho hlen hU
  obtain ⟨v, hv, hCv, _⟩ := encode_writes hC hl hou (hpko ▸ hp) hfile heof
  have hvt : v = t := Host.Outcome.next.inj (((hu _).trans hv).symm.trans ht)
  rwa [HasTree.unique hT (hvt ▸ hCv.tree)]

/-- Settles O60: the container's bits are what `RMAGIC`, `DES` and `DEC` read, one part each. -/
theorem fileRoundTrip : Obligations.FileRoundTrip := by
  unfold Obligations.FileRoundTrip
  intro s file hb hw hlen ho hp
  obtain ⟨T, container, hbits, _, heof, hfile, hencode⟩ := encodeMakesContainer s.cfg file hw hlen
  obtain ⟨t, ht, herr, hpko, hT, _⟩ := hencode s rfl hb ho hp
  have hl := legal_of_encoded hb hlen ho hp ht hT
  refine ⟨t, container, ht, herr, hpko, fun s' hcfg hb' ho' hd' => ?_⟩
  exact decode_container hb' ho' hd' hl hfile heof (by rw [hcfg]; exact hbits)

end Sys2Proof.Machine
end

section
/-! The inspection port and `NOP` (47_system.md R265, R271): O14, O30. -/

namespace Sys2Proof.Machine

/-- An element that exists is shown to the host, and nothing else changes; no element depends on what the
host is about to do. -/
theorem step_inspect {s : State} {space : Space} {i : Nat} {v : HostView} {rest : List HostAction}
    (hb : s.busy = false) (h : s.host = .inspect space i :: rest) (hv : inspect space i s = some v) :
    step s = .next { s with host := rest, hostSaw := v } := by
  have hview : inspect space i { s with host := rest } = some v := by rw [← hv]; cases space <;> rfl
  rw [step_action h, hostAct, hostInspect, if_neg (by simp [hb]), hview]

/-! Every index of an array names its element, and index 0 names a scalar. -/

theorem inspect_ft (s : State) (i : Fin 257) : inspect .ft i.val s = some (.word s.ft[i]) := by
  simp [inspect]

theorem inspect_node (s : State) (i : Fin 513) : inspect .node i.val s = some (.node s.node[i]) := by
  simp [inspect]

theorem inspect_heap (s : State) (i : Fin 257) : inspect .heap i.val s = some (.word s.heap[i].toNat) := by
  simp [inspect]

theorem inspect_ct (s : State) (i : Fin 257) :
    inspect .ct i.val s = some (.code s.ct[i].len s.ct[i].field) := by
  simp [inspect]

theorem inspect_scalar (s : State) {space : Space} {v : Nat}
    (h : (space, v) ∈ [(Space.nn, s.nn.toNat), (.root, s.root.toNat), (.hsize, s.hsize.toNat),
      (.cur, s.cur.toNat), (.pkAcc, s.pkAcc.toNat), (.pkCnt, s.pkCnt.toNat),
      (.upBuf, s.upBuf.toNat), (.upCnt, s.upCnt.toNat)]) :
    inspect space 0 s = some (.word v) := by
  simp only [List.mem_cons, Prod.mk.injEq, List.not_mem_nil, or_false] at h
  rcases h with ⟨rfl, rfl⟩ | ⟨rfl, rfl⟩ | ⟨rfl, rfl⟩ | ⟨rfl, rfl⟩ | ⟨rfl, rfl⟩ | ⟨rfl, rfl⟩ | ⟨rfl, rfl⟩ |
    ⟨rfl, rfl⟩ <;> rfl

/-- Settles O14: an idle engine shows what `inspect` finds in the space. -/
theorem inspectionReads : Obligations.InspectionReads := by
  unfold Obligations.InspectionReads
  exact fun s rest hb => ⟨fun i h => step_inspect hb h (inspect_ft s i),
    fun i h => step_inspect hb h (inspect_node s i), fun i h => step_inspect hb h (inspect_heap s i),
    fun i h => step_inspect hb h (inspect_ct s i), fun _ _ hv h => step_inspect hb h (inspect_scalar s hv)⟩

/-- Settles O30: the opcode and the operand field of `NOP` are 0, and its operation answers the state it was
given. -/
theorem nopDoesNothing : Obligations.NopDoesNothing := ⟨rfl, fun _ => rfl⟩

end Sys2Proof.Machine
end

section
/-! Errors and the error state (O8, O9, O23): the error entry, the words it leaves accepted, and which errors a
word can raise (60_exceptions.md R288, R290, R293). -/

namespace Sys2Proof.Machine

/-- What `ByteOut` leaves of a port, whatever it answers (20_memory.md R62). -/
theorem byteOut_port (p : OutPort) (v : Byte) :
    (p.byteOut v).2 =
      { data := if p.oracle.head? = some true then p.data else p.data ++ [v], oracle := p.oracle.tail } := by
  rcases byteOut_cases p v with ⟨ho, e⟩ | ⟨ho, e⟩
  · rw [e, if_neg ((headD_eq_false_iff _).mp ho)]
  · rw [e, if_pos ((headD_eq_true_iff _).mp ho)]

/-- With bits pending the error entry empties the packer into one `ByteOut` (60_exceptions.md R288). -/
theorem raiseError_of_pending {s : State} (h : s.pkCnt ≠ 0) (e : ErrClass) (sub : BitVec 3) (info : BitVec 32) :
    raiseError e sub info s =
      { s with
        err := e.code, esub := sub, einfo := info, busy := false, pkAcc := 0, pkCnt := 0
        pko := (s.pko.byteOut (paddedByte s)).2 } := by
  rw [raiseError, flushIgnoring, if_neg h]; rfl

/-- Settles O8: no bit is pending, or the padded byte goes to `PKO`. -/
theorem errorEntry : Obligations.ErrorEntry := by
  unfold Obligations.ErrorEntry
  refine ⟨rfl, rfl, rfl, rfl, rfl, rfl, fun e sub info s => ⟨fun h0 => raiseError_of_empty h0 e sub info,
    fun hne => ⟨paddedByte s, bitsOf_paddedByte s, ?_⟩⟩⟩
  rw [raiseError_of_pending hne, byteOut_port]

/-- In the error state an idle engine ignores every word but that of `RST` (60_exceptions.md R290). -/
theorem writeCmd_ignored {s : State} {c : CmdWord} (he : s.err ≠ 0) (hc : c ≠ encode .rst) :
    writeCmd c s = .next s := by
  rcases writeCmd_cases c s with ⟨_, e⟩ | ⟨_, _, _, e⟩ | ⟨_, hacc, _⟩
  · exact e
  · exact e
  · exact (hacc.elim he hc).elim

/-- Settles O9: the word is ignored or that of `RST`, and no read asks for the error state. -/
theorem errorStateIgnores : Obligations.ErrorStateIgnores := by
  unfold Obligations.ErrorStateIgnores
  refine fun s rest he hb => ⟨fun c h hc => ?_, fun h => ?_, fun reg h => step_read h,
    fun space i v h hv => step_inspect hb h hv⟩
  · rw [step_writeCmd h, BitVec.ofNat_toNat, BitVec.setWidth_eq]
    exact writeCmd_ignored he hc
  · exact ⟨resetEngine { s with host := rest }, (step_action h).trans (issue_rst hb), resetEngine_atReset _⟩

/-- The step of an idle engine without an error before which stands a word of `CMD` (10_state.md R36). -/
theorem step_acceptedWord {s : State} {c : CmdWord} {rest : List HostAction}
    (h : s.host = .write 0 c.toNat :: rest) (hb : s.busy = false) (he : s.err = 0) :
    step s = runCommand c { s with host := rest, busy := true } := by
  rw [step_writeCmd h, BitVec.ofNat_toNat, BitVec.setWidth_eq]
  exact writeCmd_accepted c hb he

/-- A command latches no error but by the error entry. -/
theorem ExecFrame.err_eq_zero {i : Instr} {s t : State} (h : ExecFrame i s t) (h0 : s.err = 0) : t.err = 0 := by
  by_cases hi : i = .rst
  · subst hi
    rw [show t = resetEngine s from h]; rfl
  · obtain ⟨herr, _⟩ := h.writtenBy.errors hi
    exact herr.trans h0

/-- Settles O23: a refused word raises its decoding error, and a decoded command an error of its row. -/
theorem whichErrorsCanBeRaised : Obligations.WhichErrorsCanBeRaised := by
  unfold Obligations.WhichErrorsCanBeRaised
  intro s t c rest h hb he ht hne
  rw [step_acceptedWord h hb he] at ht
  rcases runCommand_cases c { s with host := rest, busy := true } with ⟨hd, e⟩ | ⟨hd, e⟩ | ⟨i, hd, e⟩ <;>
    rw [e] at ht <;> rw [hd]
  · cases ht; exact ⟨raiseError_err .., raiseError_esub ..⟩
  · cases ht; exact ⟨raiseError_err .., raiseError_esub ..⟩
  · obtain ⟨u, hu, rfl⟩ := complete_next ht
    obtain ⟨hwf, _⟩ := encodeDecode c i hd
    rcases exec_frame i hwf _ u hu with hf | ⟨e, sub, info, v, hmay, _, rfl⟩
    · exact absurd (hf.err_eq_zero he) hne
    · show ((raiseError e sub info v).err.toNat, (raiseError e sub info v).esub.toNat) ∈ mayRaise i
      rw [raiseError_err, raiseError_esub]
      exact hmay

end Sys2Proof.Machine
end

section
/-! Every command ends (O21): no loop runs out of its bound, and no walk leaves the stored tree
(70_reset_and_hazards.md R337). -/

namespace Sys2Proof.Machine

/-! ## Pieces of an operation -/

/-- The machine does not stop in this piece of an operation: it goes on, or it has raised an error. -/
def Res.Ends {α : Type} (r : Res α) : Prop := ∀ f, r ≠ .stop f

theorem Res.ok_ends {α : Type} (a : α) (s : State) : (Res.ok a s).Ends := fun _ h => nomatch h

theorem Res.raised_ends {α : Type} (s : State) : (Res.raised s : Res α).Ends := fun _ h => nomatch h

theorem Res.Ends.andThen {α β : Type} {r : Res α} {k : α → State → Res β} (h : r.Ends)
    (hk : ∀ a t, r = .ok a t → (k a t).Ends) : (r.andThen k).Ends := fun f hf => by
  rcases Res.andThen_stop hf with hr | ⟨a, t, hr, hs⟩
  · exact h f hr
  · exact hk a t hr f hs

theorem Res.Ends.outcome {α : Type} {r : Res α} (h : r.Ends) : ∃ t, r.outcome = .next t := by
  cases r with
  | ok a t => exact ⟨t, rfl⟩
  | raised t => exact ⟨t, rfl⟩
  | stop f => exact absurd rfl (h f)

/-! ## Packer and source -/

theorem writeBit_ends (b : Bool) (s : State) : (writeBit b s).Ends := by
  rcases writeBit_cases b s with ⟨_, e⟩ | ⟨_, _, e⟩ | ⟨_, _, e⟩ <;> rw [e]
  · exact Res.ok_ends _ _
  · exact Res.ok_ends _ _
  · exact Res.raised_ends _

theorem writeSeq_ends (q : List Bool) (s : State) : (writeSeq q s).Ends := by
  induction q generalizing s with
  | nil => exact Res.ok_ends _ _
  | cons b q ih => exact (writeBit_ends b s).andThen fun _ t _ => ih t

theorem flush_ends (s : State) : (flush s).Ends := by
  rcases flush_cases s with ⟨_, e⟩ | ⟨_, _, e⟩ | ⟨_, _, e⟩ <;> rw [e]
  · exact Res.ok_ends _ _
  · exact Res.ok_ends _ _
  · exact Res.raised_ends _

/-- A byte that `SRC` gives is one of those left, so the bytes left bound the turns of a loop over `SRC`
(20_memory.md R61). -/
theorem byteInSrc_left_lt {s t : State} {v : Byte} (h : byteInSrc s = (.byte v, t)) :
    t.src.left < s.src.left := by
  rw [← InPort.rest_length, ← InPort.rest_length]
  rcases byteIn_cases s.src with ⟨_, e⟩ | ⟨_, _, e⟩ | ⟨_, w, r, hr, e, hrest⟩ <;> rw [byteInSrc, e] at h <;> cases h
  have ht : InPort.rest { s.src with oracle := s.src.oracle.tail, pos := s.src.pos + 1 } = r := hrest
  rw [ht, hr]
  exact Nat.lt_succ_self _

theorem countByte_cases (b : Byte) (s : State) :
    (∃ t, countByte b s = .raised t) ∨ ∃ c, countByte b s = .ok () (s.setCount (byteIdx b) c) := by
  by_cases h : s.count (byteIdx b) = s.cfg.maxCount
  · exact .inl ⟨_, countByte_full h⟩
  · exact .inr ⟨_, countByte_ok h⟩

theorem scanLoop_ends {s : State} (fuel : Nat) (hf : s.src.left < fuel) : (scanLoop fuel s).Ends := by
  induction fuel generalizing s with
  | zero => omega
  | succ fuel ih =>
    rw [scanLoop]
    rcases h : byteInSrc s with ⟨v | _ | _, t⟩
    · have hlt := byteInSrc_left_lt h
      rcases countByte_cases v t with ⟨_, e⟩ | ⟨c, e⟩ <;> simp only [e]
      · exact Res.raised_ends _
      · exact ih (by rw [setCount_src]; omega)
    · exact Res.ok_ends _ _
    · exact Res.raised_ends _

theorem emit_ends (i : SymIdx) (s : State) : (emit i s).Ends := by
  by_cases h : (s.codeAt i).code = []
  · rw [emit_missing h]; exact Res.raised_ends _
  · rw [emit_eq h]; exact writeSeq_ends _ s

theorem encLoop_ends {s : State} (fuel : Nat) (hf : s.src.left < fuel) : (encLoop fuel s).Ends := by
  induction fuel generalizing s with
  | zero => omega
  | succ fuel ih =>
    rw [encLoop]
    rcases h : byteInSrc s with ⟨v | _ | _, t⟩
    · have hlt := byteInSrc_left_lt h
      refine (emit_ends _ t).andThen fun _ u hu => ih ?_
      obtain ⟨_, hpacker⟩ := emit_ok hu
      rw [hpacker.src]; omega
    · exact Res.ok_ends _ _
    · exact Res.raised_ends _

theorem checkMagic_ends (m : Option (BitVec 32)) (s : State) : (checkMagic m s).Ends := by
  cases m with
  | none => exact Res.raised_ends _
  | some m =>
    rw [checkMagic]
    split
    · exact Res.ok_ends _ _
    · exact Res.raised_ends _

/-! ## The decoder stays on the stored tree (45_stream_decoder.md R231, R237) -/

/-- The node memory holds some tree below node index `n` (10_state.md R24). -/
def Rooted (v : Vector NodeRec 513) (n : Index) : Prop := ∃ T ns, Holds v T n ns

/-- Below an Internal record of a stored tree stand two stored trees. -/
theorem Rooted.record {v : Vector NodeRec 513} {n : Index} (h : Rooted v n) :
    ∃ r, v[n.toNat]? = some r ∧ (r.leaf = false → Rooted v r.left ∧ Rooted v r.right) := by
  obtain ⟨T, ns, hH⟩ := h
  cases T with
  | leaf x =>
    obtain ⟨_, r, hr, hl, _⟩ := hH
    exact ⟨r, hr, fun hl' => absurd (hl.symm.trans hl') Bool.noConfusion⟩
  | node a b =>
    obtain ⟨r, la, lb, hr, _, ha, hb, _⟩ := hH
    exact ⟨r, hr, fun _ => ⟨⟨a, la, ha⟩, ⟨b, lb, hb⟩⟩⟩

/-- Where `cur` stands before each turn of `DEC`: on the stored tree, at the root or at an Internal node. -/
structure AtTurn (s : State) : Prop where
  root : Rooted s.node s.root
  cur : Rooted s.node s.cur
  inner : s.cur = s.root ∨ ∃ r, s.nodeAt? s.cur = some r ∧ r.leaf = false

/-- An edge leads to a node of the tree, or the bit is 1 at a single Leaf (45_stream_decoder.md R231, R232). -/
theorem moveCur_cases {s : State} (h : AtTurn s) (b : Bool) :
    (∃ t, moveCur b s = .raised t) ∨ ∃ n, moveCur b s = .ok () (s.setCur n) ∧ Rooted s.node n := by
  obtain ⟨top, htop, _⟩ := h.root.record
  cases hl : top.leaf with
  | true =>
    rw [moveCur_leaf htop hl]
    cases b with
    | true => exact .inl ⟨_, rfl⟩
    | false => exact .inr ⟨s.cur, rfl, h.cur⟩
  | false =>
    obtain ⟨here, hhere, hbelow⟩ := h.cur.record
    have hinner : here.leaf = false := by
      rcases h.inner with e | ⟨r, hr, hrl⟩
      · rw [e] at hhere; cases htop.symm.trans hhere; exact hl
      · cases hr.symm.trans hhere; exact hrl
    obtain ⟨hleft, hright⟩ := hbelow hinner
    refine .inr ⟨_, moveCur_internal htop hl hhere, ?_⟩
    split
    · exact hright
    · exact hleft

/-- An arrival raises, is at the sentinel, or has changed no more than `cur` and `DST` and leaves the state
ready for the next turn (45_stream_decoder.md R231, R233, R235). -/
theorem arrive_cases {s : State} (hroot : Rooted s.node s.root) (hcur : Rooted s.node s.cur) :
    (∃ t, arrive s = .raised t) ∨ (∃ t, arrive s = .ok true t) ∨
      ∃ n p, arrive s = .ok false { s with cur := n, dst := p } ∧ AtTurn { s with cur := n, dst := p } := by
  obtain ⟨r, hr, _⟩ := hcur.record
  cases hl : r.leaf with
  | false => exact .inr (.inr ⟨s.cur, s.dst, arrive_internal hr hl, hroot, hcur, .inr ⟨r, hr, hl⟩⟩)
  | true =>
    by_cases hx : r.sym = eofSymbol
    · exact .inr (.inl ⟨_, arrive_eof hr hl hx⟩)
    · have hr : s.nodeAt? s.cur = some r := hr
      rcases byteOut_cases s.dst (symByte r.sym) with ⟨_, e⟩ | ⟨_, e⟩ <;>
        simp only [arrive, hr, hl, if_true, if_neg hx, byteOutDst, e]
      · exact .inr (.inr ⟨s.root, _, rfl, hroot, hroot, .inl rfl⟩)
      · exact .inl ⟨_, rfl⟩

/-- Each turn of `DEC` but the last takes a bit and stays on the tree, so the bits left and one more turn are
enough (45_stream_decoder.md R237). -/
theorem decLoop_ends {s : State} (fuel : Nat) (hs : AtTurn s) (h8 : s.upCnt.toNat ≤ 8)
    (hf : (unread s).length < fuel) : (decLoop fuel s).Ends := by
  induction fuel generalizing s with
  | zero => omega
  | succ fuel ih =>
    rw [decLoop]
    refine Res.Ends.andThen (fun _ => readBit_not_stop) fun b t hb => ?_
    cases b with
    | none => exact Res.raised_ends _
    | some b =>
      obtain ⟨hu, ht, h7, _⟩ := readBit_ok_some h8 hb
      have hturn : AtTurn t := by rw [ht]; exact { hs with }
      have hlen : (unread t).length < fuel := by rw [hu, List.length_cons] at hf; omega
      rcases moveCur_cases hturn b with ⟨_, e⟩ | ⟨n, e, hn⟩
      · simp only [e]; exact Res.raised_ends _
      rcases arrive_cases (s := t.setCur n) hturn.root hn with ⟨_, k⟩ | ⟨_, k⟩ | ⟨m, p, k, hm⟩ <;>
        simp only [e, Res.ok_andThen, k]
      · exact Res.raised_ends _
      · exact Res.ok_ends _ _
      · exact ih hm (show t.upCnt.toNat ≤ 8 by omega) hlen

/-! ## The commands -/

/-- The commands that need a valid tree end: a set `TV` means a stored tree (10_state.md R45). -/
theorem exec_ends_of_tree {s : State} {T : CodeTree} (htv : s.tv = true) (hT : s.HasTree T) (hl : T.Legal)
    (h8 : s.upCnt.toNat ≤ 8) :
    (∃ t, exec .gen s = .next t) ∧ (∃ t, exec .ser s = .next t) ∧ ∃ t, exec .dec s = .next t := by
  obtain ⟨t, hgen, _⟩ := execGen_ok htv hT hl
  obtain ⟨ns, hH, _⟩ := id hT
  have hroot : Rooted s.node s.root := ⟨T, ns, hH⟩
  refine ⟨⟨t, hgen⟩, ?_, ?_⟩
  · rw [execSer_eq htv hT hl]; exact (writeSeq_ends _ s).outcome
  · rw [execDec_eq htv h8]
    exact (decLoop_ends (s := s.setCur s.root) _ ⟨hroot, hroot, .inl rfl⟩ h8 (Nat.lt_succ_self _)).outcome

/-- The same with `TV` clear too: then they raise (30_encoding.md R114). -/
theorem exec_ends_of_treeInv {s : State} (hs : s.TreeInv) (h8 : s.upCnt.toNat ≤ 8) :
    (∃ t, exec .gen s = .next t) ∧ (∃ t, exec .ser s = .next t) ∧ ∃ t, exec .dec s = .next t := by
  cases htv : s.tv with
  | true =>
    obtain ⟨T, hl, hT⟩ := hs.tree htv
    exact exec_ends_of_tree htv hT hl h8
  | false =>
    obtain ⟨_, hnoTree, _⟩ := preconditionsRaise s
    obtain ⟨hgen, hser, hdec⟩ := hnoTree htv
    exact ⟨⟨_, hgen⟩, ⟨_, hser⟩, ⟨_, hdec⟩⟩

/-- Settles O21: the loops end with the bytes or bits of their port, `DES` with the node memory, and the
commands on a tree because the tree is stored. -/
theorem everyOperationEnds : Obligations.EveryOperationEnds := by
  unfold Obligations.EveryOperationEnds
  intro s i hr hs
  have h8 := hr.unpackerCount
  obtain ⟨hgen, hser, hdec⟩ := exec_ends_of_treeInv hs h8
  cases i with
  | nop | rst | fclr | feof => exact ⟨_, rfl⟩
  | fset x =>
    rw [exec, execFset]
    split
    · exact ⟨_, rfl⟩
    · exact ⟨_, rfl⟩
  | facc b =>
    rcases countByte_cases b s with ⟨t, e⟩ | ⟨_, e⟩ <;> rw [exec, execFacc, e]
    · exact ⟨_, rfl⟩
    · exact ⟨_, rfl⟩
  | fscan =>
    exact ((scanLoop_ends (s := clearTable s) _ (Nat.lt_succ_self _)).andThen fun _ _ _ => Res.ok_ends _ _).outcome
  | build =>
    rw [exec, execBuild]
    split
    · exact ⟨_, rfl⟩
    · exact ⟨_, rfl⟩
  | gen => exact hgen
  | ser => exact hser
  | dec => exact hdec
  | des =>
    have hget : (get 514 s.draw.dropTree.noNodes).Ends := fun _ => get_not_stop 514 (by simp) (by simp) h8
    exact (hget.andThen fun _ _ _ => Res.ok_ends _ _).outcome
  | enc =>
    by_cases hcv : s.cv = true
    · rw [execEnc_eq hcv]
      exact ((encLoop_ends _ (Nat.lt_succ_self _)).andThen fun _ t _ => emit_ends _ t).outcome
    · obtain ⟨_, _, hnoCodes⟩ := preconditionsRaise s
      exact ⟨_, hnoCodes (Bool.eq_false_of_not_eq_true hcv)⟩
  | wmagic => exact (writeSeq_ends _ s).outcome
  | rmagic => exact Res.Ends.outcome (Res.Ends.andThen (fun _ => readMore_not_stop) fun m t _ => checkMagic_ends m t)
  | close => exact (flush_ends s).outcome

end Sys2Proof.Machine
end
